-- ==== Sys2Proof/Word.lean ====
section
/-! DEFINITION. The word types of the block: the input byte (spec/30 R91), the 40-bit directive and event word
(spec/30 R97, R104), and the registers' fixed widths (spec/00 R8: `RATE_W`, `POS_W`, `LVL_W`). -/

namespace Sys2Proof

/-- The input unit, 8 bits (R91). -/
abbrev Byte := BitVec 8

/-- A directive word or an event word, 40 bits (R97, R104). -/
abbrev Word40 := BitVec 40

/-- The argument of a directive or an event, 32 bits, two's complement (R97). -/
abbrev Arg32 := BitVec 32

/-- A level output, `LVL_W` = 16 bits unsigned (R48). -/
abbrev Level := BitVec 16

end Sys2Proof
end

