-- ==== Sys2Proof/Config.lean ====
section
/-! DEFINITION. The configuration of the block (spec/00 R7, R8): what a deployment fixes at reset, the reference
configurations of R10, and the two values the spec leaves free (logs 4, 11). -/

namespace Sys2Proof

/-- `KIND[c]` (R8). -/
inductive Kind where
  | stepper
  | dc
  | servo
deriving DecidableEq, Repr

/-- `TABLE[c]`, the step table variant (R8, R135). -/
inductive Table where
  | full
  | half
deriving DecidableEq, Repr

/-- `N(t)`: 4 phases in the full-step table, 8 in the half-step table (R8, R130). -/
def Table.phases : Table → Nat
  | .full => 4
  | .half => 8

/-- `SERVO_STOP_POLICY[c]` (R8, R172). -/
inductive ServoPolicy where
  | hold
  | home
  | release
deriving DecidableEq, Repr

/-- `PROTOCOL` (R8, R210). -/
inductive Protocol where
  | char
  | frame
deriving DecidableEq, Repr

/-- The parameters of one channel (R8). `brakePwm = none` is the OPEN `BRAKE_PWM_LEVEL[c]` (log 11). -/
structure ChanCfg where
  kind : Kind
  table : Table
  minRate : Nat
  maxRate : Nat
  trackPos : Bool
  moveRate : Nat
  maxRun : Nat
  persist : Bool
  brake : Bool
  brakePwm : Option Level
  servoHome : Level
  servoStop : ServoPolicy
  digMap : List Nat
  lvlMap : List Nat
deriving DecidableEq, Repr

/-- `N(c)`, the phases of the channel's table. -/
def ChanCfg.phases (cc : ChanCfg) : Nat := cc.table.phases

/-- The argument of a directive template: a literal, or the current preset rate with a sign (R95, R211). -/
inductive TemplateArg where
  | lit (a : Arg32)
  | plusP
  | minusP
deriving DecidableEq, Repr

/-- A directive template of a `CHAR_MAP` entry: the fields of a directive word (R97), the argument possibly `+P` or
`-P` (R95, R96, R211). -/
structure Template where
  kind : BitVec 4
  ch : BitVec 4
  arg : TemplateArg
deriving DecidableEq, Repr

/-- `CHAR_MAP`: the default map of R95, or a deployment's own map from bytes to template lists (R96; log 20). -/
inductive CharMap where
  | default
  | custom (entries : List (Byte × List Template))
deriving DecidableEq, Repr

/-- `FRAME_KIND[i]` (R8, R233). -/
inductive FieldKind where
  | setTarget
  | setRate
deriving DecidableEq, Repr

/-- `FRAME_KIND[i]`, `FRAME_CH[i]`, `FRAME_MIN[i]`, `FRAME_MAX[i]` of one frame field (R8). -/
structure FrameField where
  kind : FieldKind
  ch : Nat
  min : Int
  max : Int
deriving DecidableEq, Repr

/-- The configuration (R8). `NCH` is the length of `chans`, `NPRESET` the length of `presets`; `field0` and `field1`
are the two frame fields, `NFIELDS` being exactly 2. -/
structure Config where
  chans : List ChanCfg
  timeUnit : Nat
  tsW : Nat
  timeout : Nat
  protocol : Protocol
  charMap : CharMap
  presets : List Nat
  jogSteps : Nat
  cap : Nat
  startB : Byte
  endB : Byte
  sepB : Byte
  fieldSat : Nat
  field0 : FrameField
  field1 : FrameField
  ndig : Nat
  nlvl : Nat
  rxDepth : Nat
deriving DecidableEq, Repr

/-- `NCH` (R8). -/
def Config.nch (cfg : Config) : Nat := cfg.chans.length

/-- `NPRESET` (R8). -/
def Config.npreset (cfg : Config) : Nat := cfg.presets.length

/-- What the byte decoder reads beside the byte: the configuration, `ps.framing`, `ps.cursor` and `sq.preset_idx`
(R211, R220). -/
structure Ctx where
  cfg : Config
  framing : Bool
  cursor : Nat
  presetIdx : Nat
deriving DecidableEq, Repr

/-- FREE VALUE (spec/60 R333, spec/93 I19; log 4): the value the platform's timestamp counter shows at the n-th pass
for which the environment's input list says nothing. Reduced modulo `2^TS_W` where it is sampled. -/
opaque Config.freeTime : Nat → Nat

/-- FREE VALUE (spec/42 R193, spec/93 I2; log 11): the PWM level a `DC` channel drives while braking where
`BRAKE_PWM_LEVEL[c]` is OPEN. One value per channel, the same for a whole run. -/
opaque Config.freeBrakePwm : Nat → Level

/-! ## The reference configurations (R10) -/

/-- A `STEPPER` channel with the reference values of R8. -/
def refStepper (t : Table) (dig : List Nat) : ChanCfg :=
  { kind := .stepper, table := t, minRate := 1, maxRate := 1000, trackPos := false, moveRate := 500,
    maxRun := 2147483647, persist := false, brake := false, brakePwm := none, servoHome := 90#16,
    servoStop := .hold, digMap := dig, lvlMap := [] }

/-- A `DC` channel with the reference values of R8. -/
def refDc (dig lvl : List Nat) : ChanCfg :=
  { refStepper .half dig with kind := .dc, maxRate := 255, lvlMap := lvl }

/-- A `SERVO` channel with the reference values of R8; its rate bounds are read by no rule (log 14). -/
def refServo (dig lvl : List Nat) : ChanCfg :=
  { refStepper .half dig with kind := .servo, maxRate := 255, lvlMap := lvl }

/-- The reference values of frame field 0 (R8). -/
def refField0 : FrameField := { kind := .setTarget, ch := 0, min := 45, max := 135 }

/-- The reference values of frame field 1 (R8). -/
def refField1 : FrameField := { kind := .setRate, ch := 1, min := -255, max := 255 }

/-- RC-A, dual-wheel drive (R10). -/
def Config.rcA : Config :=
  { chans := [refStepper .half [0, 1, 2, 3], refStepper .half [4, 5, 6, 7]],
    timeUnit := 1000000, tsW := 32, timeout := 500000, protocol := .char, charMap := .default,
    presets := [200, 500, 800], jogSteps := 10, cap := 32,
    startB := 0x3C#8, endB := 0x3E#8, sepB := 0x2C#8, fieldSat := 32767,
    field0 := refField0, field1 := refField1,
    ndig := 8, nlvl := 0, rxDepth := 64 }

/-- RC-B, steering and throttle (R10). -/
def Config.rcB : Config :=
  { Config.rcA with chans := [refServo [0] [0], refDc [1, 2] [1]], protocol := .frame, ndig := 3, nlvl := 2 }

/-- RC-B-BRK: RC-B with a braking channel 1 whose braking level is 0 (R10). -/
def Config.rcBBrk : Config :=
  { Config.rcB with
    chans := [refServo [0] [0], { refDc [1, 2] [1] with brake := true, brakePwm := some 0#16 }] }

/-- RC-C, single-axis positioning (R10). -/
def Config.rcC : Config :=
  { Config.rcA with
    chans := [{ refStepper .full [0, 1, 2, 3] with trackPos := true, persist := true }], ndig := 4 }

/-- RC-A with `MIN_RATE[0] = 50`, the variant of two vectors of spec/95 section 2.3. -/
def Config.rcAMin50 : Config :=
  { Config.rcA with
    chans := [{ refStepper .half [0, 1, 2, 3] with minRate := 50 }, refStepper .half [4, 5, 6, 7]] }

/-- RC-C with `MAX_RUN[0] = 5`, the variant of a vector of spec/95 section 2.5. -/
def Config.rcCRun5 : Config :=
  { Config.rcC with
    chans := [{ refStepper .full [0, 1, 2, 3] with trackPos := true, persist := true, maxRun := 5 }] }

end Sys2Proof
end

