-- ==== Sys2Proof/Machine/Arith.lean ====
section
/-! DEFINITION. The arithmetic of the spec's pseudocode (spec/00 R12, R15): exact on integers, narrowed only where a rule
names a width. -/

namespace Sys2Proof.Machine

/-- `sgn(v)` (R12). -/
def sgn (v : Int) : Int := if v < 0 then -1 else if 0 < v then 1 else 0

/-- `clamp(v, lo, hi)` (R12). -/
def clamp (v lo hi : Int) : Int := if v < lo then lo else if hi < v then hi else v

/-- `wrap_32(v)`, the two's-complement wrap of R12, as a 32-bit register value. -/
def wrap32 (v : Int) : BitVec 32 := BitVec.ofInt 32 v

/-- `wsub(a, b) = (a - b) mod 2^TS_W`, the wrapping timestamp difference (R12, R152). -/
def wsub (tsW a b : Nat) : Nat := (((a : Int) - (b : Int)) % ((2 ^ tsW : Nat) : Int)).toNat

/-- The value of `setRate`'s requested rate after `RangeClamp`: 0 stays 0, and otherwise the magnitude is clamped to
`[MIN_RATE, MAX_RATE]` and the sign kept (R140). -/
def clampRate (minRate maxRate : Nat) (r : Int) : Int :=
  if r = 0 then 0 else sgn r * clamp r.natAbs minRate maxRate

end Sys2Proof.Machine
end

