-- ==== Sys2Proof/Machine/Regs.lean ====
section
/-! DEFINITION. The register banks of the block (spec/10): channel, parser, watchdog, sequencer and output registers, the
ports (spec/60 R335), and what a channel's registers hold after reset (spec/70 R360, R363). -/

namespace Sys2Proof.Machine

/-- The byte memory: (address, byte) pairs, addresses strictly rising, no entry equal to what an unlisted address
reads as (`Memory.wf` in Machine/Ops.lean). -/
abbrev Memory := List Host.Cell

/-- The register bank `ch[c]` of one channel (R32 to R39). Timestamps are naturals below `2^TS_W` (log 10). -/
structure ChanRegs where
  phase : BitVec 3
  rate : BitVec 16
  last : Nat
  energized : Bool
  brake : Bool
  pos : BitVec 32
  moving : Bool
  target : BitVec 32
  angle : Level
deriving DecidableEq, Repr

/-- The parser registers `ps` (R40 to R42). -/
structure Parser where
  framing : Bool
  cursor : BitVec 8
  buf : Memory
deriving DecidableEq, Repr

/-- The watchdog registers `wd` (R43 to R45). -/
structure Watchdog where
  armed : Bool
  forced : Bool
  lastValid : Nat
deriving DecidableEq, Repr

/-- The pass stages (R47). -/
inductive Stage where
  | idle
  | sample
  | drain
  | wdog
  | tick
  | commit
deriving DecidableEq, Repr

/-- The 3-bit code of a stage; 6 and 7 are never held (R47). -/
def stageCode : Stage → BitVec 3
  | .idle => 0#3
  | .sample => 1#3
  | .drain => 2#3
  | .wdog => 3#3
  | .tick => 4#3
  | .commit => 5#3

/-- The sequencer registers `sq` (R46, R47) and the pass timestamp `now` (R281). -/
structure Sequencer where
  presetIdx : BitVec 4
  stage : Stage
  now : Nat
deriving DecidableEq, Repr

/-- The output register `out` (R48). -/
structure Outputs where
  dig : List Bool
  lvl : List Level
deriving DecidableEq, Repr

/-- One channel's part of the status snapshot (R294). -/
structure ChanStatus where
  kind : Kind
  phase : BitVec 3
  rate : BitVec 16
  energized : Bool
  brake : Bool
  pos : BitVec 32
  moving : Bool
  angle : Level
deriving DecidableEq, Repr

/-- The status snapshot (R294). -/
structure Snapshot where
  chans : List ChanStatus
  armed : Bool
  forced : Bool
  presetIdx : BitVec 4
  framing : Bool
deriving DecidableEq, Repr

/-- One entry of the diagnostic stream: an event word, and on a `STATUS` the snapshot (R104, R320). -/
structure DiagEntry where
  word : Word40
  snapshot : Option Snapshot
deriving DecidableEq, Repr

/-- What the environment does before and at one step: it lets a pass happen at a timestamp, some bytes having arrived
since the pass before (R75, R304, R333), or power is lost and returns, the store answering the loads of the
reset (R362, R363, R368). -/
inductive Input where
  | pass (time : Nat) (arrived : List Byte)
  | powerCycle (answers : List (Option Int))
deriving DecidableEq, Repr

/-- The ports (R335): the receive FIFO, the diagnostic stream and the save port of the spec, and the model's own
list of inputs to come and counter of free timestamps (logs 3, 4). -/
structure Ports where
  rx : List Byte
  diag : List DiagEntry
  saves : List Word40
  inputs : List Input
  draws : Nat
deriving DecidableEq, Repr

/-- Every register of a bank 0. -/
def zeroChan : ChanRegs :=
  { phase := 0#3, rate := 0#16, last := 0, energized := false, brake := false, pos := 0#32, moving := false,
    target := 0#32, angle := 0#16 }

/-- `ch[c].pos` after reset: the store's answer wrapped to 32 bits, 0 for `NO_ENTRY` and for a channel that is not
`PERSIST` (R37, R363). -/
def loadedPos (cc : ChanCfg) (answer : Option Int) : BitVec 32 :=
  if cc.persist then (answer.map wrap32).getD 0#32 else 0#32

/-- The register bank of a channel after reset (R360): everything 0 but a loaded position and a servo's home angle.
`last` and `target`, which the spec leaves unspecified, are 0 (logs 5, 6). -/
def resetChan (cc : ChanCfg) (answer : Option Int) : ChanRegs :=
  { zeroChan with
    pos := loadedPos cc answer
    angle := if cc.kind = .servo then cc.servoHome else 0#16 }

/-- The banks of all channels after reset: channel c takes the c-th answer of the store (R363; log 24). -/
def resetChans : List ChanCfg → List (Option Int) → List ChanRegs
  | [], _ => []
  | cc :: ccs, [] => resetChan cc none :: resetChans ccs []
  | cc :: ccs, a :: as => resetChan cc a :: resetChans ccs as

end Sys2Proof.Machine
end

