-- ==== Sys2Proof/Machine/State.lean ====
section
/-! DEFINITION. The whole state of the machine, the reasons a step can stop, and the state after reset. -/

namespace Sys2Proof.Machine

/-- Faults of the model: cases the spec says the hardware never reaches and a model must not pass over. Each is SAFE:
the model stops where the hardware has no behaviour. -/
inductive Fault where
  /-- `patternAt` with a phase outside the table (R71, R130): the commit stage, on a phase at or above `N(c)`. -/
  | tableIndex
  /-- `BufWrite` outside `0 .. CAP-1` (R72): a body byte while `ps.cursor` is at or above `CAP`. -/
  | bufferIndex
  /-- `RATE_PRESET[sq.preset_idx]` with an index at or above `NPRESET` (R46): a drive command. -/
  | presetIndex
  /-- An event word with a reserved code (R104, spec/93 I21): no input of the block is one, so no step raises it. -/
  | reservedEvent
deriving DecidableEq, Repr

/-- Refusals: inputs to which the spec gives no meaning. Each is SAFE. -/
inductive Refusal where
  /-- An instruction with no meaning yet, by its mnemonic; raised by `exec`'s refused arms only. -/
  | notModelled (mnemonic : String)
  /-- A directive word that is ill formed or of a reserved kind (R100, R101, R288). -/
  | illFormedDirective
  /-- An event word that is ill formed (R104). -/
  | illFormedEvent
  /-- A configuration that breaks a constraint (R9). -/
  | illFormedConfig
deriving DecidableEq, Repr

/-- The machine: the read-only configuration registers (R49) and the owned structures of R30. -/
structure State where
  cfg : Config
  ch : List ChanRegs
  ps : Parser
  wd : Watchdog
  sq : Sequencer
  out : Outputs
  port : Ports
deriving DecidableEq, Repr

/-- The outcome of an instruction or a step. -/
abbrev Result := Host.Outcome State Fault Refusal

/-- The state after reset of a block with this configuration, the store giving these answers (R360, R363). `inputs`
is what the environment will do, `draws` the count of free timestamps taken (logs 3, 4). -/
def State.resetOf (cfg : Config) (answers : List (Option Int)) (inputs : List Input) (draws : Nat) : State :=
  { cfg := cfg
    ch := resetChans cfg.chans answers
    ps := { framing := false, cursor := 0#8, buf := [] }
    wd := { armed := false, forced := false, lastValid := 0 }
    sq := { presetIdx := 0#4, stage := .idle, now := 0 }
    out := { dig := List.replicate cfg.ndig false, lvl := List.replicate cfg.nlvl 0#16 }
    port := { rx := [], diag := [], saves := [], inputs := inputs, draws := draws } }

/-- The machine right after reset: reference configuration RC-A, which keeps no position (R10, R360; log 1). -/
def State.reset : State := State.resetOf Config.rcA [] [] 0

end Sys2Proof.Machine
end

