-- ==== Sys2Proof/Syntax.lean ====
section
/-! DEFINITION. The instructions of the block: one constructor for each row of spec/opcode_table.json. F-CHAR and
F-FRAME rows are the input bytes (spec/30 R92 to R95), F-DIR rows the directive words (R97 to R101), F-EV rows the
event words (R104). -/

namespace Sys2Proof

/-- The instructions. A directive's channel is the `CH` field (4 bits), its argument the `ARG` field (32 bits, two's
complement). -/
inductive Instr where
  /-- `FWD`: bytes 0x57, 0x77. -/
  | fwd
  /-- `REV`: bytes 0x53, 0x73. -/
  | rev
  /-- `LEFT`: bytes 0x41, 0x61. -/
  | left
  /-- `RIGHT`: bytes 0x44, 0x64. -/
  | right
  /-- `STOP`: bytes 0x58, 0x78. -/
  | stopKey
  /-- `STOP_SPACE`: byte 0x20. -/
  | stopSpace
  /-- `PRESET_0` to `PRESET_8`: bytes 0x31 to 0x39. -/
  | preset0
  | preset1
  | preset2
  | preset3
  | preset4
  | preset5
  | preset6
  | preset7
  | preset8
  /-- `QUERY`: byte 0x3F. -/
  | query
  /-- `JOG_FWD`: byte 0x2B. -/
  | jogFwd
  /-- `JOG_REV`: byte 0x2D. -/
  | jogRev
  /-- `HOME`: bytes 0x48, 0x68. -/
  | home
  /-- `CHAR_UNMAPPED`: a byte with no `CHAR_MAP` entry. -/
  | charUnmapped (b : Byte)
  /-- `FRAME_START`: the byte `START`. -/
  | frameStart
  /-- `FRAME_END`: the byte `END` in an open frame. -/
  | frameEnd
  /-- `FRAME_BODY`: a body byte that fits the buffer. -/
  | frameBody (b : Byte)
  /-- `FRAME_OVERFLOW`: a body byte that meets a full buffer. -/
  | frameOverflow (b : Byte)
  /-- `FRAME_IGNORED`: a byte outside a frame that is not `START`. -/
  | frameIgnored (b : Byte)
  /-- `FRAME`: the composite `START body END`. -/
  | frame (body : List Byte)
  /-- `SetRate(c, a)`, kind 0x0. -/
  | setRate (c : BitVec 4) (a : Arg32)
  /-- `SetAbsoluteTarget(c, a)`, kind 0x1. -/
  | setAbsoluteTarget (c : BitVec 4) (a : Arg32)
  /-- `StepRelative(c, a)`, kind 0x2. -/
  | stepRelative (c : BitVec 4) (a : Arg32)
  /-- `Stop(c)`, kind 0x3 with a channel. -/
  | stop (c : BitVec 4)
  /-- `StopAll`, kind 0x3 with `CH = 0xF`. -/
  | stopAll
  /-- `QueryStatus`, kind 0x4. -/
  | queryStatus
  /-- `AdjustRatePreset(k)`, kind 0x5. -/
  | adjustRatePreset (k : Arg32)
  /-- `ParseError(r)`, kind 0x6. -/
  | parseError (r : Arg32)
  /-- `EV_PARSE_ERROR(r)`, event code 0x1. -/
  | evParseError (r : Arg32)
  /-- `EV_OVERFLOW`, event code 0x2. -/
  | evOverflow
  /-- `EV_WD_TIMEOUT`, event code 0x3. -/
  | evWdTimeout
  /-- `EV_STATUS`, event code 0x4. -/
  | evStatus
  /-- `EV_SAVE_POS(c, p)`, event code 0x5. -/
  | evSavePos (c : BitVec 4) (p : Arg32)
deriving DecidableEq, Repr

end Sys2Proof
end

