-- ==== Sys2Proof/Machine/Operands.lean ====
section
/-! DEFINITION. The operand forms of the block: the text fields of a frame body (spec/30 R93, R102; spec/43 R230 to R233)
and the directive word's fields (spec/30 R97). -/

namespace Sys2Proof.Machine

/-! ## The fields of a 40-bit word (R97, R104) -/

/-- The word `{k, c, a}`: `KIND` or `EV` in [39:36], `CH` in [35:32], `ARG` in [31:0]. -/
def mkWord (k c : BitVec 4) (a : Arg32) : Word40 := k ++ c ++ a

/-- Bits [39:36]. -/
def wordKind (w : Word40) : BitVec 4 := w.extractLsb' 36 4

/-- Bits [35:32]. -/
def wordCh (w : Word40) : BitVec 4 := w.extractLsb' 32 4

/-- Bits [31:0]. -/
def wordArg (w : Word40) : Arg32 := w.extractLsb' 0 32

/-! ## The text of a frame body -/

/-- A byte 0x30 .. 0x39 (R93). -/
def isDigit (b : Byte) : Bool := 0x30 ≤ b.toNat && b.toNat ≤ 0x39

/-- `'+'` 0x2B or `'-'` 0x2D (R93). -/
def isSign (b : Byte) : Bool := b == 0x2B#8 || b == 0x2D#8

/-- `split(body, SEP)`: k `SEP` bytes give k + 1 fields, and the empty body gives one empty field (R230). -/
def splitSep (sep : Byte) : List Byte → List (List Byte)
  | [] => [[]]
  | b :: bs =>
    if b = sep then [] :: splitSep sep bs
    else match splitSep sep bs with
      | [] => [[b]]
      | f :: fs => (b :: f) :: fs

/-- The field without its leading sign, if it has one (R231). -/
def fieldDigits : List Byte → List Byte
  | [] => []
  | b :: bs => if isSign b then bs else b :: bs

/-- The field matches `[ '+' | '-' ] digit { digit }` (R93). -/
def fieldOk (f : List Byte) : Bool := !(fieldDigits f).isEmpty && (fieldDigits f).all isDigit

/-- The saturating accumulation of decimal digits, most significant first (R102, R231). -/
def accumulate (sat : Nat) (ds : List Byte) : Nat :=
  ds.foldl (fun m g => min (m * 10 + (g.toNat - 0x30)) sat) 0

/-- `fieldValue(f)`, the decimal value of a well-formed field (R231). -/
def fieldValue (sat : Nat) (f : List Byte) : Int :=
  if f.head? = some 0x2D#8 then -(accumulate sat (fieldDigits f) : Int) else accumulate sat (fieldDigits f)

/-- The reason codes of `ParseError` (R104, R321). -/
def reasonFieldCount : Arg32 := 1#32
def reasonEmptyField : Arg32 := 2#32
def reasonNonNumeric : Arg32 := 3#32
def reasonAbandoned : Arg32 := 4#32

/-- What is wrong with one field, if anything: empty is tested before non-numeric (R230). -/
def fieldError (f : List Byte) : Option Arg32 :=
  if f = [] then some reasonEmptyField
  else if fieldOk f then none else some reasonNonNumeric

/-- `mkDirective(i, v)`: field i's clamped value as a directive of kind `FRAME_KIND[i]` on channel `FRAME_CH[i]`
(R232, R233; `ARG` is the value in 32-bit two's complement, R102). -/
def mkDirective (ff : FrameField) (v : Int) : Instr :=
  match ff.kind with
  | .setTarget => .setAbsoluteTarget (BitVec.ofNat 4 ff.ch) (wrap32 v)
  | .setRate => .setRate (BitVec.ofNat 4 ff.ch) (wrap32 v)

/-- Field i's directive from its text: `fieldValue`, then `RangeClamp`, then `mkDirective` (R102, R230). -/
def fieldDirective (sat : Nat) (ff : FrameField) (f : List Byte) : Instr :=
  mkDirective ff (clamp (fieldValue sat f) ff.min ff.max)

/-- `parseBody(n)` on the body's bytes: one `ParseError` with the first failing reason, or the two directives of a
well-formed body (R230, R234). Field 0 is checked fully before field 1. -/
def parseBody (cfg : Config) (body : List Byte) : List Instr :=
  match splitSep cfg.sepB body with
  | [f0, f1] =>
    match fieldError f0 with
    | some r => [.parseError r]
    | none =>
      match fieldError f1 with
      | some r => [.parseError r]
      | none => [fieldDirective cfg.fieldSat cfg.field0 f0, fieldDirective cfg.fieldSat cfg.field1 f1]
  | _ => [.parseError reasonFieldCount]

/-- The body is one of the grammar of R93: exactly two fields, each well formed. -/
def bodyOk (sep : Byte) (body : List Byte) : Bool :=
  match splitSep sep body with
  | [f0, f1] => fieldOk f0 && fieldOk f1
  | _ => false

end Sys2Proof.Machine
end

