-- ==== Sys2Proof/Machine/CharMap.lean ====
section
/-! DEFINITION. The byte map of `CHAR` mode (spec/30 R92, R95, R96, R108; spec/43 R211, R212): the default map's rows, and the
entries of a map that replaces it. -/

namespace Sys2Proof.Machine

/-- The row of the default `CHAR_MAP` that a byte selects, if any (R95); letters match in either case, and `PRESET` k
is mapped only if `k < NPRESET`. -/
def defaultRow (npreset : Nat) (b : Byte) : Option Instr :=
  match b.toNat with
  | 0x57 | 0x77 => some .fwd
  | 0x53 | 0x73 => some .rev
  | 0x41 | 0x61 => some .left
  | 0x44 | 0x64 => some .right
  | 0x58 | 0x78 => some .stopKey
  | 0x20 => some .stopSpace
  | 0x31 => if 0 < npreset then some .preset0 else none
  | 0x32 => if 1 < npreset then some .preset1 else none
  | 0x33 => if 2 < npreset then some .preset2 else none
  | 0x34 => if 3 < npreset then some .preset3 else none
  | 0x35 => if 4 < npreset then some .preset4 else none
  | 0x36 => if 5 < npreset then some .preset5 else none
  | 0x37 => if 6 < npreset then some .preset6 else none
  | 0x38 => if 7 < npreset then some .preset7 else none
  | 0x39 => if 8 < npreset then some .preset8 else none
  | 0x3F => some .query
  | 0x2B => some .jogFwd
  | 0x2D => some .jogRev
  | 0x48 | 0x68 => some .home
  | _ => none

/-- The entry a replaced `CHAR_MAP` has for a byte (R96). -/
def customEntry (entries : List (Byte × List Template)) (b : Byte) : Option (List Template) :=
  entries.lookup b

/-- A magnitude as a directive argument: `+P`, `+JOG_STEPS` (R95). -/
def plusArg (p : Nat) : Arg32 := BitVec.ofNat 32 p

/-- A negated magnitude in 32-bit two's complement: `-P`, `-JOG_STEPS` (R95). -/
def minusArg (p : Nat) : Arg32 := BitVec.ofInt 32 (-(p : Int))

/-- `instantiate(t, P)`: `+P` becomes `P`, `-P` becomes `-P`, every other argument stays (R211). `none` where the
template needs a preset and there is none (log 18). -/
def instantiate (p : Option Nat) (t : Template) : Option Word40 :=
  match t.arg, p with
  | .lit a, _ => some (mkWord t.kind t.ch a)
  | .plusP, some v => some (mkWord t.kind t.ch (plusArg v))
  | .minusP, some v => some (mkWord t.kind t.ch (minusArg v))
  | _, none => none

end Sys2Proof.Machine
end

