-- ==== Sys2Proof/WellFormed.lean ====
section
/-! DEFINITION. What is well formed: a configuration (spec/00 R8's ranges, R9), a directive word (spec/30 R100), an event word
(R104), and an instruction in the state of the decoder that reads it (the conditions of spec/opcode_table.json). -/

namespace Sys2Proof

open Sys2Proof.Machine

/-! ## Configurations (R8, R9; log 13) -/

/-- Local digital lines of a channel kind (R190). -/
def Kind.digLines : Kind → Nat
  | .stepper => 4
  | .dc => 2
  | .servo => 1

/-- Local level outputs of a channel kind (R190). -/
def Kind.lvlLines : Kind → Nat
  | .stepper => 0
  | .dc => 1
  | .servo => 1

/-- R9 items 2, 3 and 4 and R8's range of `MAX_RUN`. -/
def ChanCfg.wfRates (cc : ChanCfg) : Bool :=
  1 ≤ cc.minRate && cc.minRate ≤ cc.maxRate && cc.maxRate ≤ 32767
    && (!cc.trackPos || cc.kind == .stepper) && (!cc.persist || cc.trackPos) && (!cc.brake || cc.kind == .dc)
    && (!cc.trackPos || (cc.minRate ≤ cc.moveRate && cc.moveRate ≤ cc.maxRate))
    && 1 ≤ cc.maxRun && cc.maxRun ≤ 2147483647

/-- R9 item 5 for one channel: the map has one entry per local line, each in range. -/
def ChanCfg.wfMap (ndig nlvl : Nat) (cc : ChanCfg) : Bool :=
  cc.digMap.length == cc.kind.digLines && cc.lvlMap.length == cc.kind.lvlLines
    && cc.digMap.all (· < ndig) && cc.lvlMap.all (· < nlvl)

/-- No line occurs twice. -/
def noRepeats : List Nat → Bool
  | [] => true
  | x :: xs => !xs.contains x && noRepeats xs

/-- R9 item 5: every map in range, and no two (channel, local line) pairs on one physical line. -/
def Config.wfMaps (cfg : Config) : Bool :=
  cfg.chans.all (ChanCfg.wfMap cfg.ndig cfg.nlvl)
    && noRepeats (cfg.chans.flatMap ChanCfg.digMap) && noRepeats (cfg.chans.flatMap ChanCfg.lvlMap)

/-- R9 item 7. -/
def Config.wfBytes (cfg : Config) : Bool :=
  cfg.startB != cfg.endB && cfg.startB != cfg.sepB && cfg.endB != cfg.sepB
    && [cfg.startB, cfg.endB, cfg.sepB].all fun b => !isDigit b && !isSign b

/-- R9 item 8 for one field. -/
def FrameField.wf (chans : List ChanCfg) (ff : FrameField) : Bool :=
  ff.min ≤ ff.max &&
    match chans[ff.ch]? with
    | none => false
    | some cc =>
      match ff.kind with
      | .setRate => cc.kind == .stepper || cc.kind == .dc
      | .setTarget => cc.kind == .servo || cc.trackPos

/-- The configurations that spec/95 runs and whose frame fields, which R10 leaves at R8's reference values, break R9
item 8: RC-A, with the default map or with a custom one (2.10; R96 lets it be any), RC-C, and each of them with one
parameter changed (2.3, 2.5). Every other parameter is fixed, the map of the last three among them. Each is in `CHAR` mode,
where no rule reads a frame field (log 12). -/
def Config.isReferenceRun (cfg : Config) : Bool :=
  { cfg with charMap := .default } == Config.rcA || [Config.rcAMin50, Config.rcC, Config.rcCRun5].contains cfg

/-- R9 item 8 for both fields, whatever the protocol; the configurations of `isReferenceRun` alone pass without it
(log 12). -/
def Config.wfFields (cfg : Config) : Bool :=
  (cfg.field0.wf cfg.chans && cfg.field1.wf cfg.chans) || cfg.isReferenceRun

/-- A directive word's fields are well formed (R100), and its kind is not reserved (R101). -/
def dirFieldsWf (npreset : Nat) (kind ch : BitVec 4) (arg : Arg32) : Bool :=
  match kind.toNat with
  | 0x0 | 0x1 => ch.toNat ≤ 14
  | 0x2 => ch.toNat ≤ 14 && arg != 0x80000000#32
  | 0x3 => arg == 0#32
  | 0x4 => ch == 0xF#4 && arg == 0#32
  | 0x5 => ch == 0xF#4 && arg.toNat < npreset
  | 0x6 => ch == 0xF#4 && 1 ≤ arg.toNat && arg.toNat ≤ 4
  | _ => false

/-- A template of a replaced `CHAR_MAP` is well formed: whichever preset its `±P` stands for, the directive word is
(R100), and it is no `ParseError` (R9 item 9, R96, R211; log 20). -/
def Template.wf (presets : List Nat) (t : Template) : Bool :=
  t.kind != 0x6#4 &&
    match t.arg with
    | .lit a => dirFieldsWf presets.length t.kind t.ch a
    | .plusP => presets.all fun p => dirFieldsWf presets.length t.kind t.ch (plusArg p)
    | .minusP => presets.all fun p => dirFieldsWf presets.length t.kind t.ch (minusArg p)

/-- R9 item 9. -/
def Config.wfCharMap (cfg : Config) : Bool :=
  match cfg.charMap with
  | .default => true
  | .custom entries => entries.all fun e => e.2.all (Template.wf cfg.presets)

/-- R8's ranges of the scalar parameters and R9 items 1 and 6. -/
def Config.wfScalars (cfg : Config) : Bool :=
  1 ≤ cfg.nch && cfg.nch ≤ 15
    && 1 ≤ cfg.timeUnit && cfg.timeUnit ≤ 4294967295
    && 8 ≤ cfg.tsW && cfg.tsW ≤ 64 && cfg.timeout + 2 ≤ 2 ^ cfg.tsW
    && 1 ≤ cfg.npreset && cfg.npreset ≤ 9 && cfg.presets.all (fun p => 1 ≤ p && p ≤ 32767)
    && 1 ≤ cfg.jogSteps && cfg.jogSteps ≤ 2147483647
    && 1 ≤ cfg.cap && cfg.cap ≤ 255 && 1 ≤ cfg.fieldSat && cfg.fieldSat ≤ 2147483647
    && cfg.ndig ≤ 64 && cfg.nlvl ≤ 64 && 1 ≤ cfg.rxDepth && cfg.rxDepth ≤ 65536

/-- The configuration is well formed (R9); the model refuses any other. -/
def Config.wf (cfg : Config) : Bool :=
  cfg.wfScalars && cfg.chans.all ChanCfg.wfRates && cfg.wfMaps && cfg.wfBytes && cfg.wfFields && cfg.wfCharMap

/-! ## Words (R100, R104) -/

/-- The directive is well formed (R100). `Stop` with `CH = 0xF` is the word of `StopAll`. Of the other formats
nothing is a directive. -/
def Instr.dirWf (npreset : Nat) : Instr → Bool
  | .setRate c a => dirFieldsWf npreset 0x0#4 c a
  | .setAbsoluteTarget c a => dirFieldsWf npreset 0x1#4 c a
  | .stepRelative c a => dirFieldsWf npreset 0x2#4 c a
  | .stop c => c.toNat ≤ 14
  | .stopAll => true
  | .queryStatus => true
  | .adjustRatePreset k => dirFieldsWf npreset 0x5#4 0xF#4 k
  | .parseError r => dirFieldsWf npreset 0x6#4 0xF#4 r
  | .fwd | .rev | .left | .right | .stopKey | .stopSpace | .preset0 | .preset1 | .preset2 | .preset3 | .preset4
  | .preset5 | .preset6 | .preset7 | .preset8 | .query | .jogFwd | .jogRev | .home | .charUnmapped _
  | .frameStart | .frameEnd | .frameBody _ | .frameOverflow _ | .frameIgnored _ | .frame _
  | .evParseError _ | .evOverflow | .evWdTimeout | .evStatus | .evSavePos _ _ => false

/-- The event is well formed (R104): a `PARSE_ERROR` has a reason code, a `SAVE_POS` a channel index. -/
def Instr.evWf : Instr → Bool
  | .evParseError r => 1 ≤ r.toNat && r.toNat ≤ 4
  | .evOverflow => true
  | .evWdTimeout => true
  | .evStatus => true
  | .evSavePos c _ => c.toNat ≤ 14
  | .fwd | .rev | .left | .right | .stopKey | .stopSpace | .preset0 | .preset1 | .preset2 | .preset3 | .preset4
  | .preset5 | .preset6 | .preset7 | .preset8 | .query | .jogFwd | .jogRev | .home | .charUnmapped _
  | .frameStart | .frameEnd | .frameBody _ | .frameOverflow _ | .frameIgnored _ | .frame _
  | .setRate _ _ | .setAbsoluteTarget _ _ | .stepRelative _ _ | .stop _ | .stopAll | .queryStatus
  | .adjustRatePreset _ | .parseError _ => false

/-- The decoder reads bytes by the default map of `CHAR` mode. -/
def Ctx.charDefault (x : Ctx) : Bool := x.cfg.protocol == .char && x.cfg.charMap == .default

/-- The decoder is in `FRAME` mode. -/
def Ctx.inFrameMode (x : Ctx) : Bool := x.cfg.protocol == .frame

/-- The byte has no entry in the configured `CHAR_MAP` (R212). -/
def Ctx.unmapped (x : Ctx) (b : Byte) : Bool :=
  match x.cfg.charMap with
  | .default => (defaultRow x.cfg.npreset b).isNone
  | .custom entries => (customEntry entries b).isNone

/-- The instruction is well formed in the decoder's state: the condition of its row of spec/opcode_table.json. -/
def Instr.wf (x : Ctx) : Instr → Bool
  | .fwd | .rev | .left | .right | .stopKey | .stopSpace | .query | .jogFwd | .jogRev | .home => x.charDefault
  | .preset0 => x.charDefault && 0 < x.cfg.npreset
  | .preset1 => x.charDefault && 1 < x.cfg.npreset
  | .preset2 => x.charDefault && 2 < x.cfg.npreset
  | .preset3 => x.charDefault && 3 < x.cfg.npreset
  | .preset4 => x.charDefault && 4 < x.cfg.npreset
  | .preset5 => x.charDefault && 5 < x.cfg.npreset
  | .preset6 => x.charDefault && 6 < x.cfg.npreset
  | .preset7 => x.charDefault && 7 < x.cfg.npreset
  | .preset8 => x.charDefault && 8 < x.cfg.npreset
  | .charUnmapped b => x.cfg.protocol == .char && x.unmapped b
  | .frameStart => x.inFrameMode
  | .frameEnd => x.inFrameMode && x.framing && x.cfg.endB != x.cfg.startB
  | .frameBody b =>
    x.inFrameMode && x.framing && b != x.cfg.startB && b != x.cfg.endB && x.cursor < x.cfg.cap
  | .frameOverflow b =>
    x.inFrameMode && x.framing && b != x.cfg.startB && b != x.cfg.endB && x.cursor == x.cfg.cap
  | .frameIgnored b => x.inFrameMode && !x.framing && b != x.cfg.startB
  | .frame body => x.inFrameMode && bodyOk x.cfg.sepB body && body.length ≤ x.cfg.cap
  | .setRate c a => Instr.dirWf x.cfg.npreset (.setRate c a)
  | .setAbsoluteTarget c a => Instr.dirWf x.cfg.npreset (.setAbsoluteTarget c a)
  | .stepRelative c a => Instr.dirWf x.cfg.npreset (.stepRelative c a)
  | .stop c => Instr.dirWf x.cfg.npreset (.stop c)
  | .stopAll => true
  | .queryStatus => true
  | .adjustRatePreset k => Instr.dirWf x.cfg.npreset (.adjustRatePreset k)
  | .parseError r => Instr.dirWf x.cfg.npreset (.parseError r)
  | .evParseError r => Instr.evWf (.evParseError r)
  | .evOverflow => true
  | .evWdTimeout => true
  | .evStatus => true
  | .evSavePos c p => Instr.evWf (.evSavePos c p)

end Sys2Proof
end

