-- ==== Sys2Proof/Machine/Ops.lean ====
section
/-! DEFINITION. The named operations over memory, registers and ports: the receive buffer (spec/20 R72), the channel register
bank with its hardwired fields (spec/10 section 2), the diagnostic stream and the save port (R320, R301), the
watchdog refresh (R260). RAISING an error category is `emit` (R320, R327: nothing is saved and control does not
move); the analogue of a RETURN is `wdRefresh`, which ends the forced state (R328). -/

namespace Sys2Proof.Machine

/-! ## Outcomes -/

/-- Go on with the next state; stop at a fault or a refusal. -/
def andThen (r : Result) (k : State → Result) : Result :=
  match r with
  | .next s => k s
  | .fault f => .fault f
  | .refused f => .refused f

/-! ## The byte memory -/

/-- What an unlisted address reads as: 0 (log 7). -/
def Memory.blank : Byte := 0#8

/-- The byte at an address. -/
def Memory.read : Memory → Nat → Byte
  | [], _ => Memory.blank
  | (a, v) :: m, i => if i = a then v else Memory.read m i

/-- Write one byte, keeping the canonical form: writing the blank value removes the entry. -/
def Memory.write : Memory → Nat → Byte → Memory
  | [], i, b => if b = Memory.blank then [] else [(i, b)]
  | (a, v) :: m, i, b =>
    if i < a then (if b = Memory.blank then (a, v) :: m else (i, b) :: (a, v) :: m)
    else if i = a then (if b = Memory.blank then m else (i, b) :: m)
    else (a, v) :: Memory.write m i b

/-- Every address of the list is above `lo`'s bound, rising, with no blank entry. -/
def Memory.wfFrom : Nat → Memory → Bool
  | _, [] => true
  | lo, (a, v) :: m => lo ≤ a && v != Memory.blank && Memory.wfFrom (a + 1) m

/-- The canonical form holds: addresses strictly rising, no entry equal to what an unlisted address reads as. -/
def Memory.wf (m : Memory) : Bool := Memory.wfFrom 0 m

/-- `BufWrite(i, b)` (R72): a write outside `0 .. CAP-1` is a fault of the model. -/
def bufWrite (i : Nat) (b : Byte) (s : State) : Result :=
  if i < s.cfg.cap then .next { s with ps := { s.ps with buf := s.ps.buf.write i b } } else .fault .bufferIndex

/-- `[BufRead(0), ..., BufRead(n-1)]` with `n = ps.cursor`, the body of the current frame (R72, R230): no byte at or
above the cursor is read. -/
def bufBody (s : State) : List Byte := (List.range s.ps.cursor.toNat).map s.ps.buf.read

/-! ## The channel register bank -/

/-- The bank with its hardwired and absent fields at 0 (the table of spec/10 section 2; log 15). -/
def maskChan (cc : ChanCfg) (r : ChanRegs) : ChanRegs :=
  { phase := if cc.kind = .stepper then r.phase else 0#3
    rate := if cc.kind = .servo then 0#16 else r.rate
    last := if cc.kind = .stepper then r.last else 0
    energized := r.energized
    brake := if cc.kind = .dc then r.brake else false
    pos := if cc.trackPos then r.pos else 0#32
    moving := if cc.trackPos then r.moving else false
    target := if cc.trackPos then r.target else 0#32
    angle := if cc.kind = .servo then r.angle else 0#16 }

/-- Read `ch[c]`: the one operation that reads channel registers. A channel at or above `NCH` has none. -/
def State.chan (s : State) (c : Nat) : ChanRegs :=
  match s.cfg.chans[c]? with
  | some cc => maskChan cc (s.ch[c]?.getD zeroChan)
  | none => zeroChan

/-- Write `ch[c]` from its present value: the one operation that writes channel registers. A write to a hardwired
field is dropped, and a channel at or above `NCH` takes no write (R289). -/
def updChan (c : Nat) (f : ChanCfg → ChanRegs → ChanRegs) (s : State) : State :=
  match s.cfg.chans[c]? with
  | some cc => { s with ch := s.ch.set c (maskChan cc (f cc (s.chan c))) }
  | none => s

/-- The same operation on every channel `0 .. NCH-1`, in index order. -/
def forChans (op : Nat → State → State) (s : State) : State :=
  (List.range s.cfg.nch).foldl (fun t c => op c t) s

/-! ## Ports -/

/-- `emit E(arg)`: append one event to the diagnostic stream; no register and no control flow changes (R320). -/
def emit (e : DiagEntry) (s : State) : State := { s with port := { s.port with diag := s.port.diag ++ [e] } }

/-- `save(c, p)`: append `SAVE_POS(c, p)` to the persistence port (R301, R104). -/
def save (c : BitVec 4) (p : BitVec 32) (s : State) : State :=
  { s with port := { s.port with saves := s.port.saves ++ [mkWord 0x5#4 c p] } }

/-- Bytes arrive at the receive FIFO, in order; one that meets a full FIFO is lost (R75). -/
def arrive : List Byte → State → State
  | [], s => s
  | b :: bs, s =>
    arrive bs (if s.port.rx.length < s.cfg.rxDepth then { s with port := { s.port with rx := s.port.rx ++ [b] } }
      else s)

/-! ## Watchdog, presets, the decoder's view -/

/-- `wdRefresh()` (R260). -/
def wdRefresh (s : State) : State := { s with wd := { armed := true, forced := false, lastValid := s.sq.now } }

/-- `P = RATE_PRESET[sq.preset_idx]` (R95, R211). -/
def State.preset (s : State) : Option Nat := s.cfg.presets[s.sq.presetIdx.toNat]?

/-- What the decoder reads of the state. -/
def State.ctx (s : State) : Ctx :=
  { cfg := s.cfg, framing := s.ps.framing, cursor := s.ps.cursor.toNat, presetIdx := s.sq.presetIdx.toNat }

/-- `sq.stage <- S` (R13, R47). -/
def setStage (g : Stage) (s : State) : State := { s with sq := { s.sq with stage := g } }

end Sys2Proof.Machine
end

