-- ==== Sys2Proof/Machine/Flags.lean ====
section
/-! DEFINITION. The status flags and who writes them (spec/10 R53). The block has no arithmetic condition codes. `ps.framing`,
`wd.armed` and `wd.forced` are written where their rules stand (Machine/FrameBytes.lean, `wdRefresh`,
Machine/Watchdog.lean). -/

namespace Sys2Proof.Machine

/-- `energized` after `setRate` with clamped rate `r2`: set with a non-zero rate (R141), cleared with 0 (R142). -/
def energizedAfter (r2 : Int) : Bool := r2 != 0

/-- `moving` after `setRate`: only the move's own call keeps it (R140). -/
def movingAfter (fromMove was : Bool) : Bool := fromMove && was

/-- `last` after `setRate`: energizing from rest anchors it at `now` (R141), any other change keeps it (R143). -/
def lastAfter (r2 : Int) (wasOn : Bool) (now last : Nat) : Nat :=
  if r2 != 0 && !wasOn then now else last

/-- `brake` after `stop` of a `DC` channel: the braking pattern where `BRAKE[c]` is true (R145). -/
def brakeAfterStop (cc : ChanCfg) : Bool := cc.brake

end Sys2Proof.Machine
end

