-- ==== Sys2Proof/Machine/StepTable.lean ====
section
/-! DEFINITION. The step tables (spec/40): the read-only coil patterns and their one operation. -/

namespace Sys2Proof.Machine

/-- `TABLE_DATA[HALF]` (R131): bit k of an entry drives coil k. -/
def halfData : List (BitVec 4) := [0x1#4, 0x3#4, 0x2#4, 0x6#4, 0x4#4, 0xC#4, 0x8#4, 0x9#4]

/-- `TABLE_DATA[FULL]` (R132). -/
def fullData : List (BitVec 4) := [0x1#4, 0x2#4, 0x4#4, 0x8#4]

/-- `TABLE_DATA[t]`. -/
def tableData : Table → List (BitVec 4)
  | .full => fullData
  | .half => halfData

/-- `patternAt(t, p)` (R130): `none` outside `0 .. N(t)-1`, where the model must fault (R71). -/
def patternAt (t : Table) (p : Nat) : Option (BitVec 4) := (tableData t)[p]?

end Sys2Proof.Machine
end

