-- ==== Sys2Proof/Machine/Channel.lean ====
section
/-! DEFINITION. The actuator channel's operations (spec/41), each on one channel's register bank: `setRate`, `stop`, `tick`
with its phase advance, moves, and the servo's operations. `now` is the pass timestamp. -/

namespace Sys2Proof.Machine

/-- `setRate(c, r, from_move)` on the bank (R140 to R143). -/
def setRateRegs (now : Nat) (r : Int) (fromMove : Bool) (cc : ChanCfg) (x : ChanRegs) : ChanRegs :=
  { x with
    rate := BitVec.ofInt 16 (clampRate cc.minRate cc.maxRate r)
    brake := false
    moving := movingAfter fromMove x.moving
    energized := energizedAfter (clampRate cc.minRate cc.maxRate r)
    last := lastAfter (clampRate cc.minRate cc.maxRate r) x.energized now x.last }

/-- `servoStop(c)` (R172). -/
def servoStopRegs (cc : ChanCfg) (x : ChanRegs) : ChanRegs :=
  match cc.servoStop with
  | .hold => x
  | .home => { x with angle := cc.servoHome }
  | .release => { x with energized := false }

/-- `stop(c)` (R145). -/
def stopRegs (now : Nat) (cc : ChanCfg) (x : ChanRegs) : ChanRegs :=
  match cc.kind with
  | .stepper => setRateRegs now 0 false cc x
  | .dc =>
    { setRateRegs now 0 false cc x with
      brake := if brakeAfterStop cc then true else (setRateRegs now 0 false cc x).brake }
  | .servo => servoStopRegs cc x

/-- The interval `TIME_UNIT div abs(rate)` (R151). -/
def interval (timeUnit : Nat) (x : ChanRegs) : Nat := timeUnit / x.rate.toInt.natAbs

/-- `advance(c)`: phase, position and timestamp in one update (R150, R154). -/
def advanceRegs (now : Nat) (cc : ChanCfg) (x : ChanRegs) : ChanRegs :=
  { x with
    phase := BitVec.ofInt 3 (((x.phase.toNat : Int) + sgn x.rate.toInt) % (cc.phases : Int))
    pos := if cc.trackPos then wrap32 (x.pos.toInt + sgn x.rate.toInt) else x.pos
    last := now }

/-- `tick(c)` (R149, R152, R155, R162): nothing for a channel that is no `STEPPER` or stands still, nothing before the
step is due; at a due time a finished move ends, and any other channel advances one phase. -/
def tickRegs (timeUnit tsW now : Nat) (cc : ChanCfg) (x : ChanRegs) : ChanRegs :=
  if cc.kind ≠ .stepper then x
  else if x.rate.toInt = 0 then x
  else if wsub tsW now x.last < interval timeUnit x then x
  else if x.moving = true ∧ x.pos = x.target then setRateRegs now 0 false cc x
  else advanceRegs now cc x

/-- The run of a move cut to `MAX_RUN[c]` steps (R160, R163). -/
def boundRun (maxRun : Nat) (delta : Int) : Int := if maxRun < delta.natAbs then sgn delta * maxRun else delta

/-- `startMove(c, delta)` after the cut (R160, R161). -/
def startMoveRegs (now : Nat) (delta : Int) (cc : ChanCfg) (x : ChanRegs) : ChanRegs :=
  if boundRun cc.maxRun delta = 0 then setRateRegs now 0 false cc x
  else
    { setRateRegs now (sgn (boundRun cc.maxRun delta) * cc.moveRate) true cc
        { x with target := wrap32 (x.pos.toInt + boundRun cc.maxRun delta) } with
      moving := true }

/-- `moveToAbsolute(c, tgt)` (R160): the exact integer difference. -/
def moveToRegs (now : Nat) (tgt : Int) (cc : ChanCfg) (x : ChanRegs) : ChanRegs :=
  startMoveRegs now (tgt - x.pos.toInt) cc x

/-- `stepRelative(c, n)` (R165). -/
def stepRelativeRegs (now : Nat) (n : Int) (cc : ChanCfg) (x : ChanRegs) : ChanRegs := startMoveRegs now n cc x

/-- `servoSetTarget(c, v)` (R170). -/
def servoSetTargetRegs (v : Int) (x : ChanRegs) : ChanRegs :=
  { x with angle := BitVec.ofInt 16 (clamp v 0 65535), energized := true }

end Sys2Proof.Machine
end

