-- ==== Sys2Proof/Machine/Mux.lean ====
section
/-! DEFINITION. The output mux (spec/42): a channel's local lines from its register bank, and the commit of all physical lines
at once. A 1 is asserted (R197). -/

namespace Sys2Proof.Machine

/-- `stepperLines(c)` as four local digital lines, line k being bit k (R192). `none` where the phase is outside the
table. -/
def stepperLines (cc : ChanCfg) (x : ChanRegs) : Option (List Bool) :=
  if x.energized then
    (patternAt cc.table x.phase.toNat).map fun v => [v.getLsbD 0, v.getLsbD 1, v.getLsbD 2, v.getLsbD 3]
  else some [false, false, false, false]

/-- `BRAKE_PWM_LEVEL[c]`, or its free value where the parameter is OPEN (R193; log 11). -/
def brakeLevel (c : Nat) (cc : ChanCfg) : Level := cc.brakePwm.getD (Config.freeBrakePwm c)

/-- `dcLines(c)`: direction A, direction B and the PWM level (R193). -/
def dcLines (c : Nat) (cc : ChanCfg) (x : ChanRegs) : Bool × Bool × Level :=
  if x.energized = true ∧ 0 < x.rate.toInt then (true, false, BitVec.ofNat 16 x.rate.toInt.natAbs)
  else if x.energized = true ∧ x.rate.toInt < 0 then (false, true, BitVec.ofNat 16 x.rate.toInt.natAbs)
  else if x.brake then (true, true, brakeLevel c cc)
  else (false, false, 0#16)

/-- `servoLines(c)`: pulse enable and angle (R194). -/
def servoLines (x : ChanRegs) : Bool × Level := (x.energized, x.angle)

/-- The local digital lines and local level outputs of a channel, each in the order of R190. -/
def localLines (c : Nat) (cc : ChanCfg) (x : ChanRegs) : Option (List Bool × List Level) :=
  match cc.kind with
  | .stepper => (stepperLines cc x).map fun d => (d, [])
  | .dc => some ([(dcLines c cc x).1, (dcLines c cc x).2.1], [(dcLines c cc x).2.2])
  | .servo => some ([(servoLines x).1], [(servoLines x).2])

/-- Put local values on the physical lines the map names (R191). -/
def placeLines {α : Type} (lines : List α) : List Nat → List α → List α
  | i :: is, v :: vs => placeLines (lines.set i v) is vs
  | _, _ => lines

/-- The digital lines and levels after the channels from number c on have been placed (R195). -/
def muxFrom (s : State) : Nat → List ChanCfg → List Bool × List Level → Option (List Bool × List Level)
  | _, [], dl => some dl
  | c, cc :: ccs, dl =>
    match localLines c cc (s.chan c) with
    | none => none
    | some v => muxFrom s (c + 1) ccs (placeLines dl.1 cc.digMap v.1, placeLines dl.2 cc.lvlMap v.2)

/-- The values of all physical lines from the channel registers: a line no channel maps to is 0 (R191, R195, R196). -/
def muxOutputs (s : State) : Option (List Bool × List Level) :=
  muxFrom s 0 s.cfg.chans (List.replicate s.cfg.ndig false, List.replicate s.cfg.nlvl 0#16)

/-- `commitOutputs`: one atomic write of every physical line (R195). -/
def commitOutputs (s : State) : Result :=
  match muxOutputs s with
  | none => .fault .tableIndex
  | some dl => .next { s with out := { dig := dl.1, lvl := dl.2 } }

end Sys2Proof.Machine
end

