-- ==== Sys2Proof/Machine/Events.lean ====
section
/-! DEFINITION. The diagnostic events and the save requests (spec/30 R104, spec/60 R320 to R325, spec/45 R294, R301): the
operations that raise them, and the meaning of each F-EV row, which is its emission (log 27). -/

namespace Sys2Proof.Machine

/-- One channel's part of the snapshot, read through the bank (R294). -/
def chanStatus (cc : ChanCfg) (x : ChanRegs) : ChanStatus :=
  { kind := cc.kind, phase := x.phase, rate := x.rate, energized := x.energized, brake := x.brake, pos := x.pos,
    moving := x.moving, angle := x.angle }

/-- The channels' parts of the snapshot, from channel c on. -/
def statusFrom (s : State) : Nat → List ChanCfg → List ChanStatus
  | _, [] => []
  | c, cc :: ccs => chanStatus cc (s.chan c) :: statusFrom s (c + 1) ccs

/-- `snapshot()` (R294). -/
def snapshot (s : State) : Snapshot :=
  { chans := statusFrom s 0 s.cfg.chans, armed := s.wd.armed, forced := s.wd.forced, presetIdx := s.sq.presetIdx,
    framing := s.ps.framing }

/-- Emit `PARSE_ERROR(r)` (R321). -/
def raiseParseError (r : Arg32) (s : State) : State := emit { word := mkWord 0x1#4 0xF#4 r, snapshot := none } s

/-- Emit `OVERFLOW` (R322). -/
def raiseOverflow (s : State) : State := emit { word := mkWord 0x2#4 0xF#4 0#32, snapshot := none } s

/-- Emit `WD_TIMEOUT` (R323). -/
def raiseWdTimeout (s : State) : State := emit { word := mkWord 0x3#4 0xF#4 0#32, snapshot := none } s

/-- Emit `STATUS` with the snapshot attached (R294, R104). -/
def raiseStatus (s : State) : State := emit { word := mkWord 0x4#4 0xF#4 0#32, snapshot := some (snapshot s) } s

/-- Run an event if its word is well formed (R104). -/
def emitValid (ok : Bool) (f : State → State) (s : State) : Result :=
  if ok then .next (f s) else .refused .illFormedEvent

/-- `EV_PARSE_ERROR` (R321). -/
def execEvParseError (r : Arg32) (s : State) : Result :=
  emitValid (Instr.evWf (.evParseError r)) (raiseParseError r) s

/-- `EV_OVERFLOW` (R322). -/
def execEvOverflow (s : State) : Result := emitValid (Instr.evWf .evOverflow) raiseOverflow s

/-- `EV_WD_TIMEOUT` (R323). -/
def execEvWdTimeout (s : State) : Result := emitValid (Instr.evWf .evWdTimeout) raiseWdTimeout s

/-- `EV_STATUS` (R294). -/
def execEvStatus (s : State) : Result := emitValid (Instr.evWf .evStatus) raiseStatus s

/-- `EV_SAVE_POS`, which goes to the persistence port (R301, R104). -/
def execEvSavePos (c : BitVec 4) (p : Arg32) (s : State) : Result :=
  emitValid (Instr.evWf (.evSavePos c p)) (save c p) s

/-- `saveRequests(en_start)`: a `PERSIST` channel that was energized when the pass began and is not any more has its
position saved, in channel order (R301). -/
def saveFrom (en : List Bool) : Nat → List ChanCfg → State → State
  | _, [], s => s
  | c, cc :: ccs, s =>
    saveFrom en (c + 1) ccs
      (if cc.persist = true ∧ en[c]? = some true ∧ (s.chan c).energized = false then
        save (BitVec.ofNat 4 c) (s.chan c).pos s
      else s)

/-- `saveRequests(en_start)` over all channels (R301). -/
def saveRequests (en : List Bool) (s : State) : State := saveFrom en 0 s.cfg.chans s

end Sys2Proof.Machine
end

