-- ==== Sys2Proof/Machine/Watchdog.lean ====
section
/-! DEFINITION. The watchdog's check (spec/44); its refresh is `wdRefresh` of Machine/Ops.lean. -/

namespace Sys2Proof.Machine

/-- `stop(c)` of one channel of the state (R145). -/
def stopChan (c : Nat) (s : State) : State := updChan c (stopRegs s.sq.now) s

/-- `stop(k)` for every channel, in index order (R262, R293). -/
def stopEvery (s : State) : State := forChans stopChan s

/-- The watchdog is due: armed, not yet tripped, and more than `TIMEOUT` ticks since the last valid directive
(R262, R263). -/
def wdDue (s : State) : Bool :=
  s.wd.armed && !s.wd.forced && decide (s.cfg.timeout < wsub s.cfg.tsW s.sq.now s.wd.lastValid)

/-- `wdCheck()` (R262): a trip sets `wd.forced`, stops every channel and emits `WD_TIMEOUT`, in that order. -/
def wdCheck (s : State) : State :=
  if wdDue s then raiseWdTimeout (stopEvery { s with wd := { s.wd with forced := true } }) else s

end Sys2Proof.Machine
end

