-- ==== Sys2Proof/Machine/Directives.lean ====
section
/-! DEFINITION. The directives (spec/45 R287 to R297): the validity prologue and the effect of each F-DIR row. -/

namespace Sys2Proof.Machine

/-- `apply`'s prologue for a valid directive: an ill-formed word is refused; a well-formed one refreshes the watchdog
and then has its effect (R287, R288). -/
def applyValid (ok : Bool) (effect : State → State) (s : State) : Result :=
  if ok then .next (effect (wdRefresh s)) else .refused .illFormedDirective

/-- `applySetRate(c, r)` (R290): a `SERVO` and a missing channel take no rate (R289). -/
def applySetRate (c : Nat) (r : Int) (s : State) : State :=
  updChan c (fun cc x => if cc.kind = .servo then x else setRateRegs s.sq.now r false cc x) s

/-- `applySetTarget(c, p)` (R291). -/
def applySetTarget (c : Nat) (p : Int) (s : State) : State :=
  updChan c (fun cc x =>
    if cc.kind = .servo then servoSetTargetRegs p x
    else if cc.trackPos then moveToRegs s.sq.now p cc x
    else x) s

/-- `applyStepRelative(c, n)` (R292). -/
def applyStepRelative (c : Nat) (n : Int) (s : State) : State :=
  updChan c (fun cc x => if cc.trackPos then stepRelativeRegs s.sq.now n cc x else x) s

/-- `applyPreset(k)` (R296). -/
def applyPreset (k : Arg32) (s : State) : State :=
  { s with sq := { s.sq with presetIdx := BitVec.ofNat 4 k.toNat } }

/-- `SetRate` (R290). -/
def execSetRate (c : BitVec 4) (a : Arg32) (s : State) : Result :=
  applyValid (Instr.dirWf s.cfg.npreset (.setRate c a)) (applySetRate c.toNat a.toInt) s

/-- `SetAbsoluteTarget` (R291). -/
def execSetAbsoluteTarget (c : BitVec 4) (a : Arg32) (s : State) : Result :=
  applyValid (Instr.dirWf s.cfg.npreset (.setAbsoluteTarget c a)) (applySetTarget c.toNat a.toInt) s

/-- `StepRelative` (R292). -/
def execStepRelative (c : BitVec 4) (a : Arg32) (s : State) : Result :=
  applyValid (Instr.dirWf s.cfg.npreset (.stepRelative c a)) (applyStepRelative c.toNat a.toInt) s

/-- `Stop(c)` of one channel (R293); a channel at or above `NCH` takes none (R289). -/
def execStop (c : BitVec 4) (s : State) : Result :=
  applyValid (Instr.dirWf s.cfg.npreset (.stop c)) (stopChan c.toNat) s

/-- `StopAll` (R293). -/
def execStopAll (s : State) : Result := applyValid (Instr.dirWf s.cfg.npreset .stopAll) stopEvery s

/-- `QueryStatus` (R294). -/
def execQueryStatus (s : State) : Result := applyValid (Instr.dirWf s.cfg.npreset .queryStatus) raiseStatus s

/-- `AdjustRatePreset(k)` (R296). -/
def execAdjustRatePreset (k : Arg32) (s : State) : Result :=
  applyValid (Instr.dirWf s.cfg.npreset (.adjustRatePreset k)) (applyPreset k) s

/-- `ParseError(r)` (R297): the one directive that does not refresh the watchdog. -/
def execParseError (r : Arg32) (s : State) : Result :=
  if Instr.dirWf s.cfg.npreset (.parseError r) then .next (raiseParseError r s) else .refused .illFormedDirective

/-- `apply(d)`, the dispatcher over the directives (R288); anything else is no directive and is refused. -/
def applyDirective (d : Instr) (s : State) : Result :=
  match d with
  | .setRate c a => execSetRate c a s
  | .setAbsoluteTarget c a => execSetAbsoluteTarget c a s
  | .stepRelative c a => execStepRelative c a s
  | .stop c => execStop c s
  | .stopAll => execStopAll s
  | .queryStatus => execQueryStatus s
  | .adjustRatePreset k => execAdjustRatePreset k s
  | .parseError r => execParseError r s
  | .fwd | .rev | .left | .right | .stopKey | .stopSpace | .preset0 | .preset1 | .preset2 | .preset3 | .preset4
  | .preset5 | .preset6 | .preset7 | .preset8 | .query | .jogFwd | .jogRev | .home | .charUnmapped _
  | .frameStart | .frameEnd | .frameBody _ | .frameOverflow _ | .frameIgnored _ | .frame _
  | .evParseError _ | .evOverflow | .evWdTimeout | .evStatus | .evSavePos _ _ =>
    .refused .illFormedDirective

/-- Apply the directives of one byte or one frame in their order (R79, R211, R220). -/
def applyAll : List Instr → State → Result
  | [], s => .next s
  | d :: ds, s => andThen (applyDirective d s) (applyAll ds)

end Sys2Proof.Machine
end

