-- ==== Sys2Proof/Machine/CharCommands.lean ====
section
/-! DEFINITION. The single-byte commands of `CHAR` mode with the default map (spec/30 R95; spec/43 R211, R212): each row's
directive list, applied in order. -/

namespace Sys2Proof.Machine

/-- The drive commands: `P` is read once, then the pair of `SetRate`s is applied (R95, R211). A preset index outside
the presets is a fault of the model (log 18). -/
def drive (left right : Nat → Arg32) (s : State) : Result :=
  match s.preset with
  | none => .fault .presetIndex
  | some p => applyAll [.setRate 0#4 (left p), .setRate 1#4 (right p)] s

/-- `PRESET` k: mapped only if `k < NPRESET`, and dropped otherwise (R95, R212). -/
def presetKey (k : Nat) (s : State) : Result :=
  if k < s.cfg.npreset then applyAll [.adjustRatePreset (BitVec.ofNat 32 k)] s else .next s

/-- `FWD`: `SetRate(0, +P)`, `SetRate(1, +P)`. -/
def execFwd (s : State) : Result := drive plusArg plusArg s

/-- `REV`: `SetRate(0, -P)`, `SetRate(1, -P)`. -/
def execRev (s : State) : Result := drive minusArg minusArg s

/-- `LEFT`: `SetRate(0, -P)`, `SetRate(1, +P)`. -/
def execLeft (s : State) : Result := drive minusArg plusArg s

/-- `RIGHT`: `SetRate(0, +P)`, `SetRate(1, -P)`. -/
def execRight (s : State) : Result := drive plusArg minusArg s

/-- `STOP`: `StopAll`. -/
def execStopKey (s : State) : Result := applyAll [.stopAll] s

/-- `STOP_SPACE`: `StopAll`. -/
def execStopSpace (s : State) : Result := applyAll [.stopAll] s

/-- `PRESET_0`: `AdjustRatePreset(0)`. -/
def execPreset0 (s : State) : Result := presetKey 0 s

/-- `PRESET_1`: `AdjustRatePreset(1)`. -/
def execPreset1 (s : State) : Result := presetKey 1 s

/-- `PRESET_2`: `AdjustRatePreset(2)`. -/
def execPreset2 (s : State) : Result := presetKey 2 s

/-- `PRESET_3`: `AdjustRatePreset(3)`. -/
def execPreset3 (s : State) : Result := presetKey 3 s

/-- `PRESET_4`: `AdjustRatePreset(4)`. -/
def execPreset4 (s : State) : Result := presetKey 4 s

/-- `PRESET_5`: `AdjustRatePreset(5)`. -/
def execPreset5 (s : State) : Result := presetKey 5 s

/-- `PRESET_6`: `AdjustRatePreset(6)`. -/
def execPreset6 (s : State) : Result := presetKey 6 s

/-- `PRESET_7`: `AdjustRatePreset(7)`. -/
def execPreset7 (s : State) : Result := presetKey 7 s

/-- `PRESET_8`: `AdjustRatePreset(8)`. -/
def execPreset8 (s : State) : Result := presetKey 8 s

/-- `QUERY`: `QueryStatus`. -/
def execQuery (s : State) : Result := applyAll [.queryStatus] s

/-- `JOG_FWD`: `StepRelative(0, +JOG_STEPS)`. -/
def execJogFwd (s : State) : Result := applyAll [.stepRelative 0#4 (plusArg s.cfg.jogSteps)] s

/-- `JOG_REV`: `StepRelative(0, -JOG_STEPS)`. -/
def execJogRev (s : State) : Result := applyAll [.stepRelative 0#4 (minusArg s.cfg.jogSteps)] s

/-- `HOME`: `SetAbsoluteTarget(0, 0)`. -/
def execHome (s : State) : Result := applyAll [.setAbsoluteTarget 0#4 0#32] s

/-- `CHAR_UNMAPPED`: the byte is dropped, with no directive and no event (R105, R212). -/
def execCharUnmapped (_b : Byte) (s : State) : Result := .next s

end Sys2Proof.Machine
end

