-- ==== Sys2Proof/Decode.lean ====
section
/-! DEFINITION. The decoder: input bytes by `PROTOCOL` and the parser's state (spec/43 R210 to R227), directive words
(spec/30 R97 to R101), event words (R104); the encoder beside it; and the host's view of the opcode table. -/

namespace Sys2Proof

open Sys2Proof.Machine

/-- Why an input is no instruction. -/
inductive DecodeError where
  /-- Directive kinds 0x7 to 0xF (R101). -/
  | reservedKind
  /-- A directive word that breaks R100. -/
  | illFormedDirective
  /-- Event codes 0x0 and 0x6 to 0xF (R104). -/
  | reservedEvent
  /-- An event word that breaks R104. -/
  | illFormedEvent
  /-- A `CHAR_MAP` entry needs `RATE_PRESET[sq.preset_idx]` and there is none (log 18). -/
  | presetMissing
  /-- Several bytes that are no `START body END` of the grammar of R93. -/
  | notAFrame
deriving DecidableEq, Repr

/-- An encoded instruction: input bytes (F-CHAR, F-FRAME), a directive word (F-DIR) or an event word (F-EV), R90. -/
inductive Encoded where
  | bytes (bs : List Byte)
  | dir (w : Word40)
  | ev (w : Word40)
deriving DecidableEq, Repr

/-! ## Directive and event words -/

/-- The directive with these fields, where the kind is one of R99 and the fields are well formed. -/
def dirOfFields (kind ch : BitVec 4) (arg : Arg32) : Except DecodeError Instr :=
  match kind.toNat with
  | 0x0 => .ok (.setRate ch arg)
  | 0x1 => .ok (.setAbsoluteTarget ch arg)
  | 0x2 => .ok (.stepRelative ch arg)
  | 0x3 => .ok (if ch = 0xF#4 then .stopAll else .stop ch)
  | 0x4 => .ok .queryStatus
  | 0x5 => .ok (.adjustRatePreset arg)
  | 0x6 => .ok (.parseError arg)
  | _ => .error .reservedKind

/-- Decode a directive word (R97, R99); a reserved kind and an ill-formed word are refused by name (R100, R101). -/
def decodeDir (npreset : Nat) (w : Word40) : Except DecodeError Instr :=
  match dirOfFields (wordKind w) (wordCh w) (wordArg w) with
  | .error e => .error e
  | .ok i => if dirFieldsWf npreset (wordKind w) (wordCh w) (wordArg w) then .ok i else .error .illFormedDirective

/-- Decode an event word (R104). -/
def decodeEv (w : Word40) : Except DecodeError Instr :=
  match (wordKind w).toNat with
  | 0x1 =>
    if wordCh w = 0xF#4 ∧ 1 ≤ (wordArg w).toNat ∧ (wordArg w).toNat ≤ 4 then .ok (.evParseError (wordArg w))
    else .error .illFormedEvent
  | 0x2 => if wordCh w = 0xF#4 ∧ wordArg w = 0#32 then .ok .evOverflow else .error .illFormedEvent
  | 0x3 => if wordCh w = 0xF#4 ∧ wordArg w = 0#32 then .ok .evWdTimeout else .error .illFormedEvent
  | 0x4 => if wordCh w = 0xF#4 ∧ wordArg w = 0#32 then .ok .evStatus else .error .illFormedEvent
  | 0x5 => if (wordCh w).toNat ≤ 14 then .ok (.evSavePos (wordCh w) (wordArg w)) else .error .illFormedEvent
  | _ => .error .reservedEvent

/-! ## Input bytes -/

/-- What a byte is to the frame parser: the tests of `frameByte` in their order (R220, R330). -/
def decodeFrameByte (x : Ctx) (b : Byte) : Instr :=
  if b = x.cfg.startB then .frameStart
  else if x.framing = false then .frameIgnored b
  else if b = x.cfg.endB then .frameEnd
  else if x.cursor = x.cfg.cap then .frameOverflow b
  else .frameBody b

/-- What a byte is under the default `CHAR_MAP` (R95, R212). -/
def decodeCharByte (npreset : Nat) (b : Byte) : Instr := (defaultRow npreset b).getD (.charUnmapped b)

/-- The directives of a replaced `CHAR_MAP`'s entry, each template instantiated with the preset rate read once and
decoded as a directive word (R96, R211). All of them are applied, so an entry that lists `QueryStatus` more than once
emits as many events, which R325's sentence on one byte's events leaves out (log 34). -/
def decodeEntry (npreset : Nat) (p : Option Nat) : List Template → Except DecodeError (List Instr)
  | [] => .ok []
  | t :: ts =>
    match instantiate p t with
    | none => .error .presetMissing
    | some w =>
      match decodeDir npreset w with
      | .error e => .error e
      | .ok i =>
        match decodeEntry npreset p ts with
        | .error e => .error e
        | .ok is => .ok (i :: is)

/-- `decodeByte(b)`: the instructions one input byte stands for (R210). One, but for a byte of a replaced `CHAR_MAP`,
which stands for its list of directives. -/
def decodeByte (x : Ctx) (b : Byte) : Except DecodeError (List Instr) :=
  match x.cfg.protocol with
  | .frame => .ok [decodeFrameByte x b]
  | .char =>
    match x.cfg.charMap with
    | .default => .ok [decodeCharByte x.cfg.npreset b]
    | .custom entries =>
      match customEntry entries b with
      | none => .ok [.charUnmapped b]
      | some ts => decodeEntry x.cfg.npreset x.cfg.presets[x.presetIdx]? ts

/-- Split off the last byte. -/
def splitLast : List Byte → Option (List Byte × Byte)
  | [] => none
  | b :: bs =>
    match splitLast bs with
    | none => some ([], b)
    | some (front, e) => some (b :: front, e)

/-- A whole frame read at once: `START body END` with a well-formed body of at most `CAP` bytes (R93, R94). -/
def decodeWholeFrame (x : Ctx) : List Byte → Except DecodeError Instr
  | [] => .error .notAFrame
  | b :: bs =>
    match splitLast bs with
    | none => .error .notAFrame
    | some (body, e) =>
      if x.cfg.protocol = .frame ∧ b = x.cfg.startB ∧ e = x.cfg.endB ∧ bodyOk x.cfg.sepB body = true
          ∧ body.length ≤ x.cfg.cap then .ok (.frame body)
      else .error .notAFrame

/-- Decode any encoded input, in the decoder's state. -/
def decode (x : Ctx) : Encoded → Except DecodeError (List Instr)
  | .bytes [b] => decodeByte x b
  | .bytes bs => (decodeWholeFrame x bs).map fun i => [i]
  | .dir w => (decodeDir x.cfg.npreset w).map fun i => [i]
  | .ev w => (decodeEv w).map fun i => [i]

/-! ## The encoder -/

/-- The encoding of an instruction (R95, R93, R99, R104); a letter command is written in upper case, its row's
`match` byte. -/
def encode (x : Ctx) : Instr → Encoded
  | .fwd => .bytes [0x57#8]
  | .rev => .bytes [0x53#8]
  | .left => .bytes [0x41#8]
  | .right => .bytes [0x44#8]
  | .stopKey => .bytes [0x58#8]
  | .stopSpace => .bytes [0x20#8]
  | .preset0 => .bytes [0x31#8]
  | .preset1 => .bytes [0x32#8]
  | .preset2 => .bytes [0x33#8]
  | .preset3 => .bytes [0x34#8]
  | .preset4 => .bytes [0x35#8]
  | .preset5 => .bytes [0x36#8]
  | .preset6 => .bytes [0x37#8]
  | .preset7 => .bytes [0x38#8]
  | .preset8 => .bytes [0x39#8]
  | .query => .bytes [0x3F#8]
  | .jogFwd => .bytes [0x2B#8]
  | .jogRev => .bytes [0x2D#8]
  | .home => .bytes [0x48#8]
  | .charUnmapped b => .bytes [b]
  | .frameStart => .bytes [x.cfg.startB]
  | .frameEnd => .bytes [x.cfg.endB]
  | .frameBody b => .bytes [b]
  | .frameOverflow b => .bytes [b]
  | .frameIgnored b => .bytes [b]
  | .frame body => .bytes (x.cfg.startB :: (body ++ [x.cfg.endB]))
  | .setRate c a => .dir (mkWord 0x0#4 c a)
  | .setAbsoluteTarget c a => .dir (mkWord 0x1#4 c a)
  | .stepRelative c a => .dir (mkWord 0x2#4 c a)
  | .stop c => .dir (mkWord 0x3#4 c 0#32)
  | .stopAll => .dir (mkWord 0x3#4 0xF#4 0#32)
  | .queryStatus => .dir (mkWord 0x4#4 0xF#4 0#32)
  | .adjustRatePreset k => .dir (mkWord 0x5#4 0xF#4 k)
  | .parseError r => .dir (mkWord 0x6#4 0xF#4 r)
  | .evParseError r => .ev (mkWord 0x1#4 0xF#4 r)
  | .evOverflow => .ev (mkWord 0x2#4 0xF#4 0#32)
  | .evWdTimeout => .ev (mkWord 0x3#4 0xF#4 0#32)
  | .evStatus => .ev (mkWord 0x4#4 0xF#4 0#32)
  | .evSavePos c p => .ev (mkWord 0x5#4 c p)

/-! ## The opcode table's view (log 21) -/

/-- The decoder's state in which a byte of the opcode table is read: `START` and `END` are read by the frame parser
inside a frame, every other byte by the default `CHAR_MAP` with all nine presets. -/
def tableCtx (b : Byte) : Ctx :=
  { cfg := { Config.rcA with
      protocol := if b = 0x3C#8 ∨ b = 0x3E#8 then .frame else .char
      presets := List.replicate 9 1 }
    framing := true, cursor := 0, presetIdx := 0 }

/-- The instruction a table word stands for. A row of 40 bits is a directive word, or where no directive has that
word an event word; a row of fewer bits is the input byte in bits 7..0. -/
def decodeTableWord (nbits w : Nat) : Option Instr :=
  if 40 ≤ nbits then
    match decodeDir 9 (BitVec.ofNat 40 w) with
    | .ok i => some i
    | .error _ =>
      match decodeEv (BitVec.ofNat 40 w) with
      | .ok i => some i
      | .error _ => none
  else
    match decodeByte (tableCtx (BitVec.ofNat 8 w)) (BitVec.ofNat 8 w) with
    | .ok (i :: _) => some i
    | _ => none

end Sys2Proof
end

