-- ==== Sys2Proof/Machine/FrameBytes.lean ====
section
/-! DEFINITION. The bytes of `FRAME` mode (spec/43 R220 to R227): one meaning for each case of `frameByte`, and the composite
frame. -/

namespace Sys2Proof.Machine

/-- Open a new, empty frame (R221). -/
def openFrame (s : State) : State := { s with ps := { s.ps with framing := true, cursor := 0#8 } }

/-- Close the frame and empty the cursor (R222, R224). -/
def closeFrame (s : State) : State := { s with ps := { s.ps with framing := false, cursor := 0#8 } }

/-- `FRAME_START` (R221): an open frame is abandoned, with `ParseError(ABANDONED)`, and a new one starts. -/
def execFrameStart (s : State) : Result :=
  andThen (if s.ps.framing then execParseError reasonAbandoned s else .next s) fun t => .next (openFrame t)

/-- `FRAME_END` (R222, R230): the frame is closed, whatever its body, and its directives are applied in order. -/
def execFrameEnd (s : State) : Result := applyAll (parseBody s.cfg (bufBody s)) (closeFrame s)

/-- `FRAME_BODY` (R225): the byte goes to `ps.buf[ps.cursor]` unchecked and the cursor moves up. -/
def execFrameBody (b : Byte) (s : State) : Result :=
  andThen (bufWrite s.ps.cursor.toNat b s) fun t =>
    .next { t with ps := { t.ps with cursor := t.ps.cursor + 1#8 } }

/-- `FRAME_OVERFLOW` (R224, R322): the byte is not stored, the frame is abandoned, `OVERFLOW` is emitted. -/
def execFrameOverflow (_b : Byte) (s : State) : Result := .next (raiseOverflow (closeFrame s))

/-- `FRAME_IGNORED` (R226): the byte is dropped. -/
def execFrameIgnored (_b : Byte) (s : State) : Result := .next s

/-- `frameByte(b)` (R220): the case the decoder finds, by its meaning. -/
def frameByte (b : Byte) (s : State) : Result :=
  match decodeFrameByte s.ctx b with
  | .frameStart => execFrameStart s
  | .frameEnd => execFrameEnd s
  | .frameBody v => execFrameBody v s
  | .frameOverflow v => execFrameOverflow v s
  | .frameIgnored _ | .frame _
  | .fwd | .rev | .left | .right | .stopKey | .stopSpace | .preset0 | .preset1 | .preset2 | .preset3 | .preset4
  | .preset5 | .preset6 | .preset7 | .preset8 | .query | .jogFwd | .jogRev | .home | .charUnmapped _
  | .setRate _ _ | .setAbsoluteTarget _ _ | .stepRelative _ _ | .stop _ | .stopAll | .queryStatus
  | .adjustRatePreset _ | .parseError _
  | .evParseError _ | .evOverflow | .evWdTimeout | .evStatus | .evSavePos _ _ => execFrameIgnored b s

/-- The bytes of a stream through the frame parser, in order (R79). -/
def frameBytes : List Byte → State → Result
  | [], s => .next s
  | b :: bs, s => andThen (frameByte b s) (frameBytes bs)

/-- `FRAME`, the composite: `START`, the body's bytes, `END`, each by `frameByte` (R93, R227, R230; log 33). -/
def execFrame (body : List Byte) (s : State) : Result :=
  frameBytes (s.cfg.startB :: (body ++ [s.cfg.endB])) s

end Sys2Proof.Machine
end

