-- ==== Sys2Proof/Machine/Dispatch.lean ====
section
/-! DEFINITION. The dispatcher: one arm per constructor of `Instr`, each one call of the instruction's meaning. -/

namespace Sys2Proof.Machine

def exec (i : Instr) (s : State) : Host.Outcome State Fault Refusal :=
  match i with
  | .fwd => Sys2Proof.Machine.execFwd s
  | .rev => Sys2Proof.Machine.execRev s
  | .left => Sys2Proof.Machine.execLeft s
  | .right => Sys2Proof.Machine.execRight s
  | .stopKey => Sys2Proof.Machine.execStopKey s
  | .stopSpace => Sys2Proof.Machine.execStopSpace s
  | .preset0 => Sys2Proof.Machine.execPreset0 s
  | .preset1 => Sys2Proof.Machine.execPreset1 s
  | .preset2 => Sys2Proof.Machine.execPreset2 s
  | .preset3 => Sys2Proof.Machine.execPreset3 s
  | .preset4 => Sys2Proof.Machine.execPreset4 s
  | .preset5 => Sys2Proof.Machine.execPreset5 s
  | .preset6 => Sys2Proof.Machine.execPreset6 s
  | .preset7 => Sys2Proof.Machine.execPreset7 s
  | .preset8 => Sys2Proof.Machine.execPreset8 s
  | .query => Sys2Proof.Machine.execQuery s
  | .jogFwd => Sys2Proof.Machine.execJogFwd s
  | .jogRev => Sys2Proof.Machine.execJogRev s
  | .home => Sys2Proof.Machine.execHome s
  | .charUnmapped b => Sys2Proof.Machine.execCharUnmapped b s
  | .frameStart => Sys2Proof.Machine.execFrameStart s
  | .frameEnd => Sys2Proof.Machine.execFrameEnd s
  | .frameBody b => Sys2Proof.Machine.execFrameBody b s
  | .frameOverflow b => Sys2Proof.Machine.execFrameOverflow b s
  | .frameIgnored b => Sys2Proof.Machine.execFrameIgnored b s
  | .frame body => Sys2Proof.Machine.execFrame body s
  | .setRate c a => Sys2Proof.Machine.execSetRate c a s
  | .setAbsoluteTarget c a => Sys2Proof.Machine.execSetAbsoluteTarget c a s
  | .stepRelative c a => Sys2Proof.Machine.execStepRelative c a s
  | .stop c => Sys2Proof.Machine.execStop c s
  | .stopAll => Sys2Proof.Machine.execStopAll s
  | .queryStatus => Sys2Proof.Machine.execQueryStatus s
  | .adjustRatePreset k => Sys2Proof.Machine.execAdjustRatePreset k s
  | .parseError r => Sys2Proof.Machine.execParseError r s
  | .evParseError r => Sys2Proof.Machine.execEvParseError r s
  | .evOverflow => Sys2Proof.Machine.execEvOverflow s
  | .evWdTimeout => Sys2Proof.Machine.execEvWdTimeout s
  | .evStatus => Sys2Proof.Machine.execEvStatus s
  | .evSavePos c p => Sys2Proof.Machine.execEvSavePos c p s

end Sys2Proof.Machine
end

