-- ==== Sys2Proof/Machine/Pass.lean ====
section
/-! DEFINITION. The pass (spec/45 R280 to R286), the block's only step, stage by stage; and what the environment does before
it: bytes arrive, the timestamp port shows a value, or power is lost and returns (logs 2, 3, 23). -/

namespace Sys2Proof.Machine

/-- Execute a list of instructions in order. -/
def execAll : List Instr → State → Result
  | [], s => .next s
  | i :: is, s => andThen (exec i s) (execAll is)

/-- How an input that is no instruction stops the model: an ill-formed word is refused (R100, R101), a preset index
outside the presets and a reserved event code are faults (log 18; spec/93 I21). -/
def decodeFailure (e : DecodeError) : Result :=
  match e with
  | .presetMissing => .fault .presetIndex
  | .reservedEvent => .fault .reservedEvent
  | .illFormedEvent => .refused .illFormedEvent
  | .reservedKind => .refused .illFormedDirective
  | .illFormedDirective => .refused .illFormedDirective
  | .notAFrame => .refused .illFormedDirective

/-- `decodeByte(b)`: the byte's instructions, decoded in the present state and executed (R210). -/
def execByte (b : Byte) (s : State) : Result :=
  match decodeByte s.ctx b with
  | .ok is => execAll is s
  | .error e => decodeFailure e

/-- `RxPop`: the FIFO keeps the bytes after the one taken (R75). -/
def setRx (rest : List Byte) (s : State) : State := { s with port := { s.port with rx := rest } }

/-- Take the given bytes from the FIFO, oldest first, each decoded before the next is taken (R282). -/
def drainBytes : List Byte → State → Result
  | [], s => .next s
  | b :: bs, s => andThen (execByte b (setRx bs s)) (drainBytes bs)

/-- Stage `SAMPLE`: the timestamp input is sampled once, a `TS_W`-bit value (R281). -/
def stageSample (time : Nat) (s : State) : State :=
  { s with sq := { s.sq with stage := .sample, now := time % 2 ^ s.cfg.tsW } }

/-- `en_start`: the energized flags at the start of the pass (R280), from channel c on. -/
def energizedFrom (s : State) : Nat → List ChanCfg → List Bool
  | _, [] => []
  | c, _ :: ccs => (s.chan c).energized :: energizedFrom s (c + 1) ccs

/-- `en_start` of all channels (R280). -/
def energizedFlags (s : State) : List Bool := energizedFrom s 0 s.cfg.chans

/-- Stage `DRAIN`: exactly the bytes in the FIFO when the stage begins (R282). -/
def stageDrain (s : State) : Result := drainBytes s.port.rx (setStage .drain s)

/-- Stage `WDOG` (R283). -/
def stageWdog (s : State) : State := wdCheck (setStage .wdog s)

/-- `tick(c)` of one channel of the state (R149). -/
def tickChan (c : Nat) (s : State) : State := updChan c (tickRegs s.cfg.timeUnit s.cfg.tsW s.sq.now) s

/-- Stage `TICK`: every channel once, in index order (R284). -/
def stageTick (s : State) : State := forChans tickChan (setStage .tick s)

/-- Stage `COMMIT`: the outputs, then the save requests, and back to `IDLE` (R285, R280). -/
def stageCommit (en : List Bool) (s : State) : Result :=
  andThen (commitOutputs (setStage .commit s)) fun t => .next (setStage .idle (saveRequests en t))

/-- The stages after the drain stage (R280). -/
def afterDrain (en : List Bool) (s : State) : Result := stageCommit en (stageTick (stageWdog s))

/-- `pass()` at a timestamp (R280). -/
def pass (time : Nat) (s : State) : Result :=
  andThen (stageDrain (stageSample time s)) (afterDrain (energizedFlags s))

/-- Power is lost and returns: every line 0, no state kept, then the reset with the store's answers (R339, R362,
R363, R368; log 23). The configuration is the block's, and the environment goes on. -/
def powerCycle (answers : List (Option Int)) (s : State) : State :=
  State.resetOf s.cfg answers s.port.inputs s.port.draws

/-- A configuration that is not well formed is refused (R9). -/
def checked (s : State) (r : Result) : Result := if s.cfg.wf then r else .refused .illFormedConfig

/-- One step: the next input of the environment, and the pass or power cycle it brings. With no input listed a pass
happens at a free timestamp and no byte has arrived (R299, R333; logs 3, 4). -/
def runStep (s : State) : Result :=
  match s.port.inputs with
  | [] => checked s (pass (Config.freeTime s.port.draws) { s with port := { s.port with draws := s.port.draws + 1 } })
  | .pass time arrived :: rest =>
    checked s (pass time (arrive arrived { s with port := { s.port with inputs := rest } }))
  | .powerCycle answers :: rest =>
    checked s (.next (powerCycle answers { s with port := { s.port with inputs := rest } }))

end Sys2Proof.Machine
end

