-- ==== Sys2Proof/Machine/Fetch.lean ====
section
/-! DEFINITION. How one table word is placed so that the next step runs it (log 22): the receive FIFO holds the bytes that
make the block run it, the environment's next input is a pass, and the configuration and parser state are those
in which the bytes mean it. -/

namespace Sys2Proof.Machine

/-- The FIFO holds exactly these bytes, and the next input is a pass with nothing else arriving. -/
def feed (bs : List Byte) (s : State) : State :=
  { s with port := { s.port with rx := bs, inputs := .pass s.sq.now [] :: s.port.inputs } }

/-- A frame field that is well formed for channel 0 of the configuration (R9 item 8). -/
def fieldForChan0 (cfg : Config) (ff : FrameField) : FrameField :=
  if ff.wf cfg.chans then ff
  else
    match cfg.chans with
    | [] => ff
    | cc :: _ => { ff with kind := if cc.kind = .servo then .setTarget else .setRate, ch := 0 }

/-- The configuration with frame fields that meet R9 item 8, where the placing has made it one that needs them. -/
def fitFields (cfg : Config) : Config :=
  if cfg.wfFields then cfg
  else { cfg with field0 := fieldForChan0 cfg cfg.field0, field1 := fieldForChan0 cfg cfg.field1 }

/-- `CHAR` mode with this map, at least `n` presets. -/
def mapMode (map : CharMap) (n : Nat) (s : State) : State :=
  { s with cfg := fitFields { s.cfg with
      protocol := .char, charMap := map
      presets := s.cfg.presets ++ List.replicate (n - s.cfg.npreset) 1 } }

/-- `CHAR` mode with the default map, at least `n` presets. -/
def charMode (n : Nat) (s : State) : State := mapMode .default n s

/-- `CHAR` mode with a map that binds byte 0 to this one directive word (R96), at least `n` presets. -/
def wordMode (n : Nat) (w : Word40) (s : State) : State :=
  mapMode (.custom [(0#8, [{ kind := wordKind w, ch := wordCh w, arg := .lit (wordArg w) }])]) n s

/-- `FRAME` mode, the parser inside or outside a frame with this many body bytes held. -/
def frameMode (framing : Bool) (cursor : Nat) (s : State) : State :=
  { s with
    cfg := fitFields { s.cfg with protocol := .frame }
    ps := { s.ps with framing := framing, cursor := BitVec.ofNat 8 cursor } }

/-- A body that makes `END` raise this reason, where one does (R230). -/
def malformedBody (sep : Byte) (r : Arg32) : List Byte :=
  if r = reasonEmptyField then [sep] else if r = reasonNonNumeric then [0x2D#8, sep] else []

/-- Bring about `ParseError(r)`: a `START` in an open frame, or a malformed frame. -/
def feedParseError (r : Arg32) (s : State) : State :=
  if r = reasonAbandoned then feed [s.cfg.startB] (frameMode true 0 s)
  else feed (s.cfg.startB :: (malformedBody s.cfg.sepB r ++ [s.cfg.endB])) (frameMode false 0 s)

/-- An armed watchdog whose timeout has just passed at the present timestamp. -/
def overdue (s : State) : State :=
  { s with wd := { armed := true, forced := false, lastValid := wsub s.cfg.tsW s.sq.now (s.cfg.timeout + 1) } }

/-- A position-tracking, persisting stepper channel that runs at its least rate at this position. -/
def persisting (c : Nat) (p : Arg32) (s : State) : State :=
  match s.cfg.chans[c]? with
  | none => s
  | some cc =>
    if cc.kind = .stepper then
      { s with
        cfg := { s.cfg with
          chans := s.cfg.chans.set c { cc with trackPos := true, persist := true, moveRate := cc.minRate } }
        ch := s.ch.set c { zeroChan with rate := BitVec.ofNat 16 cc.minRate, energized := true, pos := p } }
    else s

/-- Place an instruction so that the next step runs it. -/
def place (i : Instr) (s : State) : State :=
  match i with
  | .fwd => feed [0x57#8] (charMode 1 s)
  | .rev => feed [0x53#8] (charMode 1 s)
  | .left => feed [0x41#8] (charMode 1 s)
  | .right => feed [0x44#8] (charMode 1 s)
  | .stopKey => feed [0x58#8] (charMode 1 s)
  | .stopSpace => feed [0x20#8] (charMode 1 s)
  | .preset0 => feed [0x31#8] (charMode 1 s)
  | .preset1 => feed [0x32#8] (charMode 2 s)
  | .preset2 => feed [0x33#8] (charMode 3 s)
  | .preset3 => feed [0x34#8] (charMode 4 s)
  | .preset4 => feed [0x35#8] (charMode 5 s)
  | .preset5 => feed [0x36#8] (charMode 6 s)
  | .preset6 => feed [0x37#8] (charMode 7 s)
  | .preset7 => feed [0x38#8] (charMode 8 s)
  | .preset8 => feed [0x39#8] (charMode 9 s)
  | .query => feed [0x3F#8] (charMode 1 s)
  | .jogFwd => feed [0x2B#8] (charMode 1 s)
  | .jogRev => feed [0x2D#8] (charMode 1 s)
  | .home => feed [0x48#8] (charMode 1 s)
  | .charUnmapped b => feed [b] (charMode 1 s)
  | .frameStart => feed [s.cfg.startB] (frameMode false 0 s)
  | .frameEnd => feed [s.cfg.endB] (frameMode true s.ps.cursor.toNat s)
  | .frameBody b => feed [b] (frameMode true 0 s)
  | .frameOverflow b => feed [b] (frameMode true s.cfg.cap s)
  | .frameIgnored b => feed [b] (frameMode false 0 s)
  | .frame body => feed (s.cfg.startB :: (body ++ [s.cfg.endB])) (frameMode false 0 s)
  | .setRate c a => feed [0#8] (wordMode 1 (mkWord 0x0#4 c a) s)
  | .setAbsoluteTarget c a => feed [0#8] (wordMode 1 (mkWord 0x1#4 c a) s)
  | .stepRelative c a => feed [0#8] (wordMode 1 (mkWord 0x2#4 c a) s)
  | .stop c => feed [0#8] (wordMode 1 (mkWord 0x3#4 c 0#32) s)
  | .stopAll => feed [0#8] (wordMode 1 (mkWord 0x3#4 0xF#4 0#32) s)
  | .queryStatus => feed [0#8] (wordMode 1 (mkWord 0x4#4 0xF#4 0#32) s)
  | .adjustRatePreset k => feed [0#8] (wordMode (min 9 (k.toNat + 1)) (mkWord 0x5#4 0xF#4 k) s)
  | .parseError r => feedParseError r s
  | .evParseError r => feedParseError r s
  | .evOverflow => feed [0#8] (frameMode true s.cfg.cap s)
  | .evWdTimeout => feed [] (overdue s)
  | .evStatus => feed [0x3F#8] (charMode 1 s)
  | .evSavePos c p => feed [0#8] (wordMode 1 (mkWord 0x3#4 c 0#32) (persisting c.toNat p s))

/-- Place a table word: the instruction it decodes to, or where it decodes to none, the word itself as a replaced
map's entry, which the next step refuses (R9, R101). -/
def placeTableWord (nbits w : Nat) (s : State) : State :=
  match decodeTableWord nbits w with
  | some i => place i s
  | none => feed [0#8] (wordMode 1 (BitVec.ofNat 40 w) s)

end Sys2Proof.Machine
end

