-- ==== Sys2Proof/Machine/Step.lean ====
section
/-! DEFINITION. The step of the machine, one pass or power cycle, and the placing of a word where the next step runs it. -/

namespace Sys2Proof.Machine

/-- One step (Machine/Pass.lean). -/
def step (s : State) : Host.Outcome State Fault Refusal := runStep s

/-- The state with this table word placed so that the very next step runs it (Machine/Fetch.lean; log 22). -/
def State.withFetchWord (s : State) (nbits w : Nat) : State := placeTableWord nbits w s

end Sys2Proof.Machine
end

