-- ==== Sys2Proof/Safety.lean ====
section
/-! DEFINITION. What a safe run is: the invariants of spec/10 R54 with the register ranges of spec/10, and the words the
statements use for what an instruction leaves alone. -/

namespace Sys2Proof.Machine

/-- The integer is the value of a 32-bit register, as a position is (R37). -/
abbrev In32 (v : Int) : Prop := -2147483648 ≤ v ∧ v ≤ 2147483647

/-- R54 item 5 word for word, for one channel: a moving channel has a rate, and it runs in the direction of the integer
difference of target and position or stands on its target. -/
def moveAsWritten (x : ChanRegs) : Bool :=
  decide (x.moving = true →
    x.rate.toInt ≠ 0 ∧ (sgn x.rate.toInt = sgn (x.target.toInt - x.pos.toInt) ∨ x.pos = x.target))

/-- R54 item 5 of a channel that follows R160: word for word where the integer difference of target and position is a
32-bit value; where it is none, R160 has wrapped the target, and the channel runs the other way round the range
(`moveSound_iff`: in both cases it runs in the direction of the 32-bit difference; log 16). -/
def moveSound (x : ChanRegs) : Bool :=
  if In32 (x.target.toInt - x.pos.toInt) then moveAsWritten x
  else decide (x.moving = true →
    x.rate.toInt ≠ 0 ∧ sgn x.rate.toInt = -sgn (x.target.toInt - x.pos.toInt))

/-- The invariants of one channel's registers: R54 items 1, 2 and 5, `energized` exactly when the rate is not 0 (R35), a
braking channel stands still and may brake (R36), `last` is a `TS_W`-bit value (R34). -/
def chanSound (tsW : Nat) (cc : ChanCfg) (x : ChanRegs) : Bool :=
  decide (x.rate.toInt = 0 ∨ (cc.minRate ≤ x.rate.toInt.natAbs ∧ x.rate.toInt.natAbs ≤ cc.maxRate))
    && decide (x.phase.toNat < cc.phases)
    && decide (cc.kind ≠ .servo → (x.energized = true ↔ x.rate.toInt ≠ 0))
    && moveSound x
    && decide (x.brake = true → cc.brake = true ∧ x.rate.toInt = 0)
    && decide (x.last < 2 ^ tsW)

/-- A property of every channel's bank, from channel c on. -/
def allChansFrom (p : ChanCfg → ChanRegs → Bool) (s : State) : Nat → List ChanCfg → Bool
  | _, [] => true
  | c, cc :: ccs => p cc (s.chan c) && allChansFrom p s (c + 1) ccs

/-- A property of every channel's bank. -/
def allChans (p : ChanCfg → ChanRegs → Bool) (s : State) : Bool := allChansFrom p s 0 s.cfg.chans

/-- R54 item 5 word for word, of every channel. `Sound` has it but of a channel whose target R160 has wrapped: a
relative move that leaves the 32-bit range alone breaks it (log 16). -/
abbrev MovesAsWritten (s : State) : Prop := allChans (fun _ x => moveAsWritten x) s = true

/-- The channel has no rate or stands still (R54 item 6). -/
def standsStill (cc : ChanCfg) (x : ChanRegs) : Bool := cc.kind == .servo || x.rate.toInt == 0

/-- The register invariants hold, at any point of a pass: a well-formed configuration with one bank per channel, each
bank sound, the parser and sequencer registers in range (R41, R46, R54 item 4), the buffer canonical and nothing
listed at or above `CAP`, the watchdog's flags as R54 item 6 says, timestamps and lines of the configured widths,
the FIFO no longer than its depth. -/
def soundCheck (s : State) : Bool :=
  s.cfg.wf && decide (s.ch.length = s.cfg.nch) && allChans (chanSound s.cfg.tsW) s
    && decide (s.ps.cursor.toNat ≤ s.cfg.cap) && s.ps.buf.wf && s.ps.buf.all (fun e => decide (e.1 < s.cfg.cap))
    && (!s.wd.forced || (s.wd.armed && allChans standsStill s)) && decide (s.wd.lastValid < 2 ^ s.cfg.tsW)
    && decide (s.sq.presetIdx.toNat < s.cfg.npreset) && decide (s.sq.now < 2 ^ s.cfg.tsW)
    && decide (s.out.dig.length = s.cfg.ndig) && decide (s.out.lvl.length = s.cfg.nlvl)
    && decide (s.port.rx.length ≤ s.cfg.rxDepth)

/-- The register invariants hold (`soundCheck`). -/
abbrev Sound (s : State) : Prop := soundCheck s = true

/-- The invariant between steps: the registers are sound and no pass is open (R47, R54). -/
abbrev Inv (s : State) : Prop := Sound s ∧ s.sq.stage = .idle

/-- The watchdog has just been refreshed at `s`'s timestamp (R260). -/
def Refreshed (s t : State) : Prop := t.wd = { armed := true, forced := false, lastValid := s.sq.now }

/-- The parser is as before: its flag, its cursor and every byte of the receive buffer. -/
def SameParser (s t : State) : Prop :=
  t.ps.framing = s.ps.framing ∧ t.ps.cursor = s.ps.cursor ∧ ∀ a, t.ps.buf.read a = s.ps.buf.read a

/-- Outside the channels named, the watchdog and the ports, everything is as before. -/
def SameButChans (touched : Nat → Prop) (s t : State) : Prop :=
  t.cfg = s.cfg ∧ SameParser s t ∧ t.sq = s.sq ∧ t.out = s.out ∧ ∀ c, ¬ touched c → t.chan c = s.chan c

/-- A safe stop of the machine has not happened: the step gave a next state that keeps the invariant. -/
def SafeStep (s : State) : Prop := ∃ t, step s = .next t ∧ Inv t

end Sys2Proof.Machine
end

