-- ==== Sys2Proof/Certificates/Slice0/Obligations.lean ====
section
/-! DEFINITION. The statements for the provers, and the words they use. -/

namespace Sys2Proof.Machine

/-! ## Words the statements use, written from the rules and not from the meanings -/

/-- The rate `setRate` stores for a request (R140): 0, or the request with its magnitude brought into
`[MIN_RATE, MAX_RATE]`. -/
def boundedRate (cc : ChanCfg) (r : Int) : Int :=
  if r = 0 then 0
  else if 0 < r then max (cc.minRate : Int) (min r cc.maxRate)
  else -(max (cc.minRate : Int) (min (-r) cc.maxRate))

/-- The channel's bank after `stop` (R145, R172). -/
def StoppedChan (cc : ChanCfg) (x y : ChanRegs) : Prop :=
  y.phase = x.phase ∧ y.pos = x.pos ∧ y.target = x.target ∧ y.last = x.last ∧
  match cc.kind with
  | .stepper => y.rate = 0#16 ∧ y.energized = false ∧ y.brake = false ∧ y.moving = false ∧ y.angle = x.angle
  | .dc => y.rate = 0#16 ∧ y.energized = false ∧ y.brake = cc.brake ∧ y.moving = false ∧ y.angle = x.angle
  | .servo =>
    y.rate = x.rate ∧ y.brake = x.brake ∧ y.moving = x.moving ∧
    (cc.servoStop = .hold → y.angle = x.angle ∧ y.energized = x.energized) ∧
    (cc.servoStop = .home → y.angle = cc.servoHome ∧ y.energized = x.energized) ∧
    (cc.servoStop = .release → y.angle = x.angle ∧ y.energized = false)

/-- The signed step count of a move cut to `MAX_RUN[c]` (R163). -/
def cutRun (maxRun : Nat) (d : Int) : Int :=
  if (maxRun : Int) < d then maxRun else if d < -(maxRun : Int) then -(maxRun : Int) else d

/-- The instruction starts a move by a count (R165, R292; the jog commands of R95). -/
def startsRelative : Instr → Bool
  | .jogFwd | .jogRev | .stepRelative _ _ => true
  | .fwd | .rev | .left | .right | .stopKey | .stopSpace | .preset0 | .preset1 | .preset2 | .preset3 | .preset4
  | .preset5 | .preset6 | .preset7 | .preset8 | .query | .home | .charUnmapped _
  | .frameStart | .frameEnd | .frameBody _ | .frameOverflow _ | .frameIgnored _ | .frame _
  | .setRate _ _ | .setAbsoluteTarget _ _ | .stop _ | .stopAll | .queryStatus | .adjustRatePreset _ | .parseError _
  | .evParseError _ | .evOverflow | .evWdTimeout | .evStatus | .evSavePos _ _ => false

/-- The bytes the next step's input brings to the FIFO. -/
def arriving (s : State) : List Byte :=
  match s.port.inputs with
  | .pass _ bs :: _ => bs
  | .powerCycle _ :: _ | [] => []

/-- The channel's bank after a move by `d` steps has been started at `now` (R160, R161). -/
def MovedChan (cc : ChanCfg) (now : Nat) (d : Int) (x y : ChanRegs) : Prop :=
  y.phase = x.phase ∧ y.pos = x.pos ∧ y.angle = x.angle ∧ y.brake = false ∧
  (d = 0 → y.rate = 0#16 ∧ y.energized = false ∧ y.moving = false ∧ y.target = x.target ∧ y.last = x.last) ∧
  (d ≠ 0 → y.rate.toInt = (if 0 < d then (cc.moveRate : Int) else -(cc.moveRate : Int)) ∧ y.energized = true ∧
    y.moving = true ∧ y.target = BitVec.ofInt 32 (x.pos.toInt + d) ∧
    y.last = (if x.energized then x.last else now))

/-- Nothing but the ports' two logs may differ: configuration, banks, parser, watchdog, sequencer, lines, FIFO. -/
def SameButLogs (s t : State) : Prop :=
  SameButChans (fun _ => False) s t ∧ t.wd = s.wd ∧ t.port.rx = s.port.rx ∧ t.port.inputs = s.port.inputs ∧
  t.port.draws = s.port.draws

/-- The diagnostic stream has grown by these entries, and the save port has not. -/
def Emitted (es : List DiagEntry) (s t : State) : Prop :=
  t.port.diag = s.port.diag ++ es ∧ t.port.saves = s.port.saves

/-- The FIFO, the inputs to come and the counter of free timestamps are as before. -/
def SameInputs (s t : State) : Prop :=
  t.port.rx = s.port.rx ∧ t.port.inputs = s.port.inputs ∧ t.port.draws = s.port.draws

/-- An event with no snapshot. -/
def plainEvent (w : Word40) : DiagEntry := { word := w, snapshot := none }

/-- The snapshot is the one R294 defines of this state. -/
def SnapshotOf (s : State) (snap : Snapshot) : Prop :=
  snap.armed = s.wd.armed ∧ snap.forced = s.wd.forced ∧ snap.presetIdx = s.sq.presetIdx ∧
  snap.framing = s.ps.framing ∧ snap.chans.length = s.cfg.nch ∧
  ∀ (c : Nat) (cc : ChanCfg), s.cfg.chans[c]? = some cc →
    snap.chans[c]? = some
      { kind := cc.kind, phase := (s.chan c).phase, rate := (s.chan c).rate, energized := (s.chan c).energized,
        brake := (s.chan c).brake, pos := (s.chan c).pos, moving := (s.chan c).moving, angle := (s.chan c).angle }

/-- What a well-formed directive leaves alone: everything but the watchdog it refreshes and the channels named. -/
def DirectiveFrame (touched : Nat → Prop) (s t : State) : Prop :=
  Refreshed s t ∧ t.port = s.port ∧ SameButChans touched s t

/-- The reason of a malformed body, in the order of R230. -/
def malformedReason (sep : Byte) (body : List Byte) : Arg32 :=
  match splitSep sep body with
  | [f0, f1] =>
    if f0 = [] then 2#32 else if fieldOk f0 = false then 3#32 else if f1 = [] then 2#32 else 3#32
  | _ => 1#32

/-- Field i of a body, as text. -/
def fieldText (sep : Byte) (body : List Byte) (i : Nat) : List Byte := (splitSep sep body).getD i []

/-- The value of a field's digits, unbounded. -/
def decimalValue (ds : List Byte) : Nat := ds.foldl (fun m g => m * 10 + (g.toNat - 0x30)) 0

/-- The value field i hands to its directive, from its text (R102): the decimal value, saturated, signed, clamped. -/
def fieldArg (sat : Nat) (ff : FrameField) (f : List Byte) : Int :=
  let m : Int := min (decimalValue (fieldDigits f)) sat
  let raw : Int := if f.head? = some 0x2D#8 then -m else m
  if raw < ff.min then ff.min else if ff.max < raw then ff.max else raw

/-- Field i's directive (R103, R233). -/
def fieldInstr (sat : Nat) (ff : FrameField) (f : List Byte) : Instr :=
  match ff.kind with
  | .setTarget => .setAbsoluteTarget (BitVec.ofNat 4 ff.ch) (BitVec.ofInt 32 (fieldArg sat ff f))
  | .setRate => .setRate (BitVec.ofNat 4 ff.ch) (BitVec.ofInt 32 (fieldArg sat ff f))

/-- The next input is not a loss of power. -/
def NoPowerCycle (s : State) : Prop := ∀ answers, s.port.inputs.head? ≠ some (.powerCycle answers)

/-- The `PRESET` rows with their index (R95). -/
def presetRows : List (Instr × Nat) :=
  [(.preset0, 0), (.preset1, 1), (.preset2, 2), (.preset3, 3), (.preset4, 4), (.preset5, 5), (.preset6, 6),
    (.preset7, 7), (.preset8, 8)]

/-- The bytes of the default `CHAR_MAP` that need no preset, with their rows; letters in either case (R95). -/
def commandRows : List (Byte × Instr) :=
  [(0x57#8, .fwd), (0x77#8, .fwd), (0x53#8, .rev), (0x73#8, .rev), (0x41#8, .left), (0x61#8, .left), (0x44#8, .right),
    (0x64#8, .right), (0x58#8, .stopKey), (0x78#8, .stopKey), (0x20#8, .stopSpace), (0x3F#8, .query),
    (0x2B#8, .jogFwd), (0x2D#8, .jogRev), (0x48#8, .home), (0x68#8, .home)]

/-- All the bytes of the default `CHAR_MAP` with `n` presets: the digit of preset k is mapped only if k is below n
(R95). -/
def byteRows (n : Nat) : List (Byte × Instr) :=
  commandRows ++ (presetRows.filter fun e => e.2 < n).map fun e => (BitVec.ofNat 8 (0x31 + e.2), e.1)

/-- The argument a template has under preset rate `p`: `+P` is `p`, `-P` its negation (R211). -/
def templateValue (p : Nat) : TemplateArg → Arg32
  | .lit a => a
  | .plusP => BitVec.ofInt 32 p
  | .minusP => BitVec.ofInt 32 (-(p : Int))

/-- The directive a well-formed template stands for under preset rate `p` (R99, R211). -/
def templateInstr (p : Nat) (t : Template) : Instr :=
  match t.kind.toNat with
  | 0x0 => .setRate t.ch (templateValue p t.arg)
  | 0x1 => .setAbsoluteTarget t.ch (templateValue p t.arg)
  | 0x2 => .stepRelative t.ch (templateValue p t.arg)
  | 0x3 => if t.ch = 0xF#4 then .stopAll else .stop t.ch
  | 0x4 => .queryStatus
  | 0x5 => .adjustRatePreset (templateValue p t.arg)
  | _ => .parseError (templateValue p t.arg)

/-- The `QueryStatus` directives a byte's entry in a replaced map lists (R96, R99). -/
def queriesOf (entries : List (Byte × List Template)) (b : Byte) : Nat :=
  ((entries.lookup b).getD []).countP fun t => t.kind == 0x4#4

/-- A drive row's two signs: channel 0, channel 1 (R95). -/
def driveRows : List (Instr × Int × Int) := [(.fwd, 1, 1), (.rev, -1, -1), (.left, -1, 1), (.right, 1, -1)]

/-- The times of successive ticks of one channel, each a whole interval after the one before (R149, R154). -/
def eachDue (tsW gap : Nat) : Nat → List Nat → Prop
  | _, [] => True
  | last, t :: ts => gap ≤ wsub tsW t last ∧ eachDue tsW gap t ts

/-- Ticks of one channel at the given times. -/
def ticksAt (timeUnit tsW : Nat) (cc : ChanCfg) (ts : List Nat) (x : ChanRegs) : ChanRegs :=
  ts.foldl (fun y t => tickRegs timeUnit tsW t cc y) x

/-- One phase advance repeated n times at the given time. -/
def advances (now : Nat) (cc : ChanCfg) : Nat → ChanRegs → ChanRegs
  | 0, x => x
  | n + 1, x => advances now cc n (advanceRegs now cc x)

/-- The directives and the rows that are dropped or only logged, none of which is a valid directive (R261). -/
def neverRefreshes : Instr → Bool
  | .charUnmapped _ | .frameStart | .frameBody _ | .frameOverflow _ | .frameIgnored _ | .parseError _ => true
  | _ => false

/-- The words `SAVE_POS(c, pos)` a commit appends, from channel c on (R301). -/
def saveWords (en : List Bool) (s : State) : Nat → List ChanCfg → List Word40
  | _, [] => []
  | c, cc :: ccs =>
    (if cc.persist = true ∧ en[c]? = some true ∧ (s.chan c).energized = false then
      [mkWord 0x5#4 (BitVec.ofNat 4 c) (s.chan c).pos] else []) ++ saveWords en s (c + 1) ccs

end Sys2Proof.Machine

open Sys2Proof Sys2Proof.Machine

/-! ## Encoding -/

/-- Decode and encode agree for every instruction, with every operand its encoding admits. -/
def Obligations.DecodeEncodeRoundTrip : Prop :=
  ∀ (x : Ctx) (i : Instr), x.cfg.wf = true → i.wf x = true → decode x (encode x i) = .ok [i]

/-- A directive word that decodes decodes to a well-formed directive, whose encoding is that word (R100, R99). -/
def Obligations.DirectiveWordsHaveOneMeaning : Prop :=
  ∀ (x : Ctx) (w : Word40) (i : Instr), decodeDir x.cfg.npreset w = .ok i →
    i.dirWf x.cfg.npreset = true ∧ encode x i = .dir w

/-- Directive kinds 0x7 to 0xF are refused as reserved, and an ill-formed word decodes to nothing (R100, R101). -/
def Obligations.ReservedAndIllFormedWordsRefused : Prop :=
  (∀ (n : Nat) (w : Word40), 7 ≤ (wordKind w).toNat → decodeDir n w = .error .reservedKind) ∧
  (∀ (n : Nat) (w : Word40) (i : Instr), dirFieldsWf n (wordKind w) (wordCh w) (wordArg w) = false →
    decodeDir n w ≠ .ok i)

/-- Words of spec/95 section 2.1 read bit by bit, and three table words. Which row a table word with several readings is
read as is the model's choice (log 21): 0x3C, `START` of R94, is read inside a frame. -/
def Obligations.WrittenOutWordsDecode : Prop :=
  decodeDir 3 0x00FFFFFCE0#40 = .ok (.setRate 0#4 (BitVec.ofInt 32 (-800))) ∧
  decodeDir 3 0x100000005A#40 = .ok (.setAbsoluteTarget 0#4 90#32) ∧
  decodeDir 3 0x20FFFFFFF6#40 = .ok (.stepRelative 0#4 (BitVec.ofInt 32 (-10))) ∧
  decodeDir 3 0x3100000000#40 = .ok (.stop 1#4) ∧
  decodeDir 3 0x5F00000002#40 = .ok (.adjustRatePreset 2#32) ∧
  decodeEv 0x500000000A#40 = .ok (.evSavePos 0#4 10#32) ∧
  decodeTableWord 8 0x77 = some .fwd ∧ decodeTableWord 8 0x41 = some .left ∧
  decodeTableWord 8 0x3C = some .frameStart

/-- The byte maps (R95, R108): the mapped bytes of the reference configurations; for any number of presets the row each
byte selects in `CHAR` mode with the default map; the frame parser's reading of every byte in RC-B. -/
def Obligations.ReferenceByteMap : Prop :=
  (∀ b : Byte, (decodeCharByte 3 b ≠ .charUnmapped b ↔ b.toNat ∈ [0x20, 0x2B, 0x2D, 0x31, 0x32, 0x33, 0x3F, 0x41,
    0x44, 0x48, 0x53, 0x57, 0x58, 0x61, 0x64, 0x68, 0x73, 0x77, 0x78])) ∧
  (∀ (x : Ctx) (b : Byte), x.cfg.protocol = .char → x.cfg.charMap = .default →
    decodeByte x b = .ok [((byteRows x.cfg.npreset).lookup b).getD (.charUnmapped b)]) ∧
  (∀ (n k : Nat) (b : Byte),
    let x : Ctx := { cfg := Config.rcB, framing := false, cursor := n, presetIdx := k }
    decodeByte x b = .ok [if b = 0x3C#8 then .frameStart else .frameIgnored b]) ∧
  (∀ (n k : Nat) (b : Byte),
    let x : Ctx := { cfg := Config.rcB, framing := true, cursor := n, presetIdx := k }
    (b = 0x3C#8 → decodeByte x b = .ok [.frameStart]) ∧ (b = 0x3E#8 → decodeByte x b = .ok [.frameEnd]) ∧
    (b ≠ 0x3C#8 → b ≠ 0x3E#8 →
      decodeByte x b = .ok [if n = Config.rcB.cap then .frameOverflow b else .frameBody b]))

/-! ## The step -/

/-- A step runs the instructions that the oldest byte of the FIFO decodes to once the input's bytes have arrived, then
the later bytes, then the stages after the drain stage; around it the step samples the timestamp and pops the byte. One
instruction is run by `exec` of it. A byte of a replaced `CHAR_MAP` decodes to its entry's directives in their order,
`+P` and `-P` being the preset rate read once and its negation; a byte with no entry is unmapped (R96, R211, R212;
logs 2, 3, 20, 28, 34). -/
def Obligations.StepRunsDecodedByte : Prop :=
  (∀ (s : State) (time : Nat) (arrived : List Byte) (rest : List Input) (b : Byte) (bs : List Byte),
    s.cfg.wf = true → s.port.inputs = .pass time arrived :: rest → (arrive arrived s).port.rx = b :: bs →
    let u : State :=
      { s with
        sq := { s.sq with stage := .drain, now := time % 2 ^ s.cfg.tsW }
        port := { s.port with inputs := rest, rx := bs } }
    (∀ is : List Instr, decodeByte s.ctx b = .ok is →
      step s = andThen (andThen (execAll is u) (drainBytes bs)) (afterDrain (energizedFlags s))) ∧
    (∀ i : Instr, decodeByte s.ctx b = .ok [i] →
      step s = andThen (andThen (exec i u) (drainBytes bs)) (afterDrain (energizedFlags s)))) ∧
  (∀ (x : Ctx) (entries : List (Byte × List Template)) (b : Byte), x.cfg.wf = true → x.cfg.protocol = .char →
    x.cfg.charMap = .custom entries →
    (entries.lookup b = none → decodeByte x b = .ok [.charUnmapped b]) ∧
    (∀ (ts : List Template) (p : Nat), entries.lookup b = some ts → x.cfg.presets[x.presetIdx]? = some p →
      decodeByte x b = .ok (ts.map (templateInstr p))))

/-- A configuration that is not well formed is refused: one that breaks a constraint of R9, item 8 aside only for
the configurations log 12 lists, or a range of R8 (log 13). Power returning is a reset of the same block (log 23). -/
def Obligations.RefusedConfigAndPowerCycle : Prop :=
  (∀ s : State, s.cfg.wf = false → step s = .refused .illFormedConfig) ∧
  (∀ (s : State) (answers : List (Option Int)) (rest : List Input), s.cfg.wf = true →
    s.port.inputs = .powerCycle answers :: rest →
    step s = .next (State.resetOf s.cfg answers rest s.port.draws))

/-- The registers right after reset of any block, where the spec gives the value (R360): the configuration registers hold
the configured values (R49). The inputs to come and the counter of free timestamps are as given (logs 3, 4). -/
def Obligations.ResetValues : Prop :=
  ∀ (cfg : Config) (answers : List (Option Int)) (inputs : List Input) (n : Nat),
    let s := State.resetOf cfg answers inputs n
    s.cfg = cfg ∧ s.port.inputs = inputs ∧ s.port.draws = n ∧
    s.ps.framing = false ∧ s.ps.cursor = 0#8 ∧ s.wd.armed = false ∧ s.wd.forced = false ∧ s.sq.presetIdx = 0#4 ∧
    s.sq.stage = .idle ∧ (∀ v ∈ s.out.dig, v = false) ∧ (∀ v ∈ s.out.lvl, v = 0#16) ∧
    s.out.dig.length = cfg.ndig ∧ s.out.lvl.length = cfg.nlvl ∧
    s.port.rx = [] ∧ s.port.diag = [] ∧ s.port.saves = [] ∧
    ∀ (c : Nat) (cc : ChanCfg), cfg.chans[c]? = some cc →
      (s.chan c).phase = 0#3 ∧ (s.chan c).rate = 0#16 ∧ (s.chan c).energized = false ∧ (s.chan c).brake = false ∧
      (s.chan c).moving = false ∧ (cc.kind = .servo → (s.chan c).angle = cc.servoHome)

/-- The position load of reset (R363). -/
def Obligations.ResetLoadsPositions : Prop :=
  ∀ (cfg : Config) (answers : List (Option Int)) (inputs : List Input) (n c : Nat) (cc : ChanCfg),
    cfg.wf = true → cfg.chans[c]? = some cc →
    ((State.resetOf cfg answers inputs n).chan c).pos =
      if cc.persist then
        match answers[c]? with
        | some (some r) => BitVec.ofInt 32 r
        | _ => 0#32
      else 0#32

/-- The invariant holds after reset. -/
def Obligations.InvariantAtReset : Prop := Inv State.reset

/-- It holds after the reset of every well-formed block, whatever the store answers. -/
def Obligations.InvariantAtEveryReset : Prop :=
  ∀ (cfg : Config) (answers : List (Option Int)) (inputs : List Input) (n : Nat), cfg.wf = true →
    Inv (State.resetOf cfg answers inputs n)

/-- Every step keeps the invariant. Its item 5 is R54's own, word for word, exactly where the integer difference of target
and position is a 32-bit value, which only R160's wrap of a target undoes; and item 5 word for word is kept by every step
whose bytes start no relative move (R54, R160; log 16). -/
def Obligations.StepKeepsInvariant : Prop :=
  (∀ s t : State, Inv s → step s = .next t → Inv t) ∧
  (∀ s : State, Inv s → ∀ (c : Nat) (cc : ChanCfg), s.cfg.chans[c]? = some cc → (s.chan c).moving = true →
    (s.chan c).rate.toInt ≠ 0 ∧
    ((s.chan c).pos ≠ (s.chan c).target →
      (sgn (s.chan c).rate.toInt = sgn ((s.chan c).target.toInt - (s.chan c).pos.toInt) ↔
        In32 ((s.chan c).target.toInt - (s.chan c).pos.toInt)))) ∧
  (∀ s t : State, Inv s → MovesAsWritten s → step s = .next t →
    (∀ b ∈ s.port.rx ++ arriving s, ∀ (x : Ctx) (is : List Instr), x.cfg = s.cfg → decodeByte x b = .ok is →
      ∀ i ∈ is, startsRelative i = false) →
    MovesAsWritten t)

/-- No state that meets the invariant is one where the block stops: every input is run (R326). -/
def Obligations.StepNeverStops : Prop := ∀ s : State, Inv s → ∃ t, step s = .next t

/-- Every instruction keeps the register invariants. R54 item 5 word for word is kept by every instruction that starts no
relative move, and by a `StepRelative` exactly when the position it runs to, cut to `MAX_RUN`, is a 32-bit value
(R54, R160, R165; log 16). -/
def Obligations.InstructionsKeepSound : Prop :=
  (∀ (i : Instr) (s t : State), Sound s → exec i s = .next t →
    Sound t ∧ (MovesAsWritten s → startsRelative i = false → MovesAsWritten t)) ∧
  ∀ (s t : State) (c : BitVec 4) (a : Arg32), Sound s → MovesAsWritten s → exec (.stepRelative c a) s = .next t →
    (MovesAsWritten t ↔ ∀ cc, s.cfg.chans[c.toNat]? = some cc → cc.trackPos = true →
      In32 ((s.chan c.toNat).pos.toInt + cutRun cc.maxRun a.toInt))

/-- No instruction changes the configuration, an output line, the stage, the timestamp, the FIFO or the inputs to
come, and the two logs only grow (R49, R51, R285); and no step, a power cycle among them, changes the configuration
(R7, R49). One byte causes at most one event, in `FRAME` mode and with the default map (R325); a byte of a replaced map
causes one for each `QueryStatus` of its entry (R211, R294; log 34). In a pass the events of the bytes come first, then
`WD_TIMEOUT` if the watchdog trips, and nothing more (R286, R325). -/
def Obligations.InstructionsLeaveConfigAndLines : Prop :=
  (∀ (i : Instr) (s t : State), exec i s = .next t →
    t.cfg = s.cfg ∧ t.out = s.out ∧ t.sq.stage = s.sq.stage ∧ t.sq.now = s.sq.now ∧ t.port.rx = s.port.rx ∧
    t.port.inputs = s.port.inputs ∧ t.port.draws = s.port.draws ∧ s.port.diag <+: t.port.diag ∧
    s.port.saves <+: t.port.saves) ∧
  (∀ s t : State, step s = .next t → t.cfg = s.cfg) ∧
  (∀ (s t : State) (b : Byte), s.cfg.wf = true → execByte b s = .next t →
    s.port.diag <+: t.port.diag ∧
    (s.cfg.protocol = .frame ∨ s.cfg.charMap = .default → t.port.diag.length ≤ s.port.diag.length + 1) ∧
    ∀ entries, s.cfg.protocol = .char → s.cfg.charMap = .custom entries →
      t.port.diag.length = s.port.diag.length + queriesOf entries b) ∧
  (∀ (s t : State) (time : Nat) (arrived : List Byte) (rest : List Input), s.port.inputs = .pass time arrived :: rest →
    step s = .next t →
    ∃ u, stageDrain (stageSample time (arrive arrived { s with port := { s.port with inputs := rest } })) = .next u ∧
      t.port.diag = u.port.diag ++
        if u.wd.armed = true ∧ u.wd.forced = false ∧
            s.cfg.timeout < wsub s.cfg.tsW (time % 2 ^ s.cfg.tsW) u.wd.lastValid
        then [plainEvent 0x3F00000000#40] else [])

/-- In `CHAR` mode a step leaves the parser registers as they are, and registers at their reset values stay there, power
cycle or not (R213). -/
def Obligations.CharModeLeavesParser : Prop :=
  ∀ s t : State, s.cfg.protocol = .char → step s = .next t →
    (NoPowerCycle s → t.ps = s.ps) ∧ (s.ps = State.reset.ps → t.ps = State.reset.ps)

/-- Nothing but a reset clears `wd.armed` (R43). -/
def Obligations.ArmedUntilReset : Prop :=
  ∀ s t : State, NoPowerCycle s → step s = .next t → s.wd.armed = true → t.wd.armed = true

/-! ## Directives -/

/-- `SetRate` on a `STEPPER` or `DC` channel. -/
def Obligations.SetRateResult : Prop :=
  ∀ (s : State) (c : BitVec 4) (a : Arg32) (cc : ChanCfg), Sound s → s.cfg.chans[c.toNat]? = some cc →
    cc.kind ≠ .servo →
    ∃ t, exec (.setRate c a) s = .next t ∧ DirectiveFrame (· = c.toNat) s t ∧
      (t.chan c.toNat).rate.toInt = boundedRate cc a.toInt ∧
      (t.chan c.toNat).energized = decide (a.toInt ≠ 0) ∧ (t.chan c.toNat).brake = false ∧
      (t.chan c.toNat).moving = false ∧ (t.chan c.toNat).phase = (s.chan c.toNat).phase ∧
      (t.chan c.toNat).pos = (s.chan c.toNat).pos ∧ (t.chan c.toNat).target = (s.chan c.toNat).target ∧
      (t.chan c.toNat).angle = (s.chan c.toNat).angle ∧
      (t.chan c.toNat).last =
        if cc.kind = .stepper ∧ a.toInt ≠ 0 ∧ (s.chan c.toNat).energized = false then s.sq.now
        else (s.chan c.toNat).last

/-- A directive whose channel cannot take it only refreshes the watchdog (R289). -/
def Obligations.UnsupportedDirectiveOnlyRefreshes : Prop :=
  ∀ (s : State) (c : BitVec 4) (a : Arg32), Sound s → c.toNat ≤ 14 →
    ((∀ cc, s.cfg.chans[c.toNat]? = some cc → cc.kind = .servo) →
      ∃ t, exec (.setRate c a) s = .next t ∧ DirectiveFrame (fun _ => False) s t) ∧
    ((∀ cc, s.cfg.chans[c.toNat]? = some cc → cc.kind ≠ .servo ∧ cc.trackPos = false) →
      ∃ t, exec (.setAbsoluteTarget c a) s = .next t ∧ DirectiveFrame (fun _ => False) s t) ∧
    ((∀ cc, s.cfg.chans[c.toNat]? = some cc → cc.trackPos = false) → a ≠ 0x80000000#32 →
      ∃ t, exec (.stepRelative c a) s = .next t ∧ DirectiveFrame (fun _ => False) s t) ∧
    (s.cfg.chans[c.toNat]? = none → ∃ t, exec (.stop c) s = .next t ∧ DirectiveFrame (fun _ => False) s t)

/-- `SetAbsoluteTarget` on a `SERVO` channel (R170, R291). -/
def Obligations.ServoTargetResult : Prop :=
  ∀ (s : State) (c : BitVec 4) (a : Arg32) (cc : ChanCfg), Sound s → s.cfg.chans[c.toNat]? = some cc →
    cc.kind = .servo →
    ∃ t, exec (.setAbsoluteTarget c a) s = .next t ∧ DirectiveFrame (· = c.toNat) s t ∧
      ((t.chan c.toNat).angle.toNat : Int) = max 0 (min a.toInt 65535) ∧
      t.chan c.toNat = { s.chan c.toNat with angle := (t.chan c.toNat).angle, energized := true }

/-- `SetAbsoluteTarget` on a position-tracking channel starts a move to the target, cut to `MAX_RUN` (R160, R291). A
difference above the reference `MAX_RUN` is cut too, as the pseudocode of R160 has it and against the last sentence of
R163 (log 17). -/
def Obligations.MoveToTargetResult : Prop :=
  ∀ (s : State) (c : BitVec 4) (a : Arg32) (cc : ChanCfg), Sound s → s.cfg.chans[c.toNat]? = some cc →
    cc.trackPos = true →
    ∃ t, exec (.setAbsoluteTarget c a) s = .next t ∧ DirectiveFrame (· = c.toNat) s t ∧
      MovedChan cc s.sq.now (cutRun cc.maxRun (a.toInt - (s.chan c.toNat).pos.toInt)) (s.chan c.toNat)
        (t.chan c.toNat)

/-- `StepRelative` on a position-tracking channel starts a move by the count (R165, R292). -/
def Obligations.StepRelativeResult : Prop :=
  ∀ (s : State) (c : BitVec 4) (a : Arg32) (cc : ChanCfg), Sound s → s.cfg.chans[c.toNat]? = some cc →
    cc.trackPos = true → a ≠ 0x80000000#32 →
    ∃ t, exec (.stepRelative c a) s = .next t ∧ DirectiveFrame (· = c.toNat) s t ∧
      MovedChan cc s.sq.now (cutRun cc.maxRun a.toInt) (s.chan c.toNat) (t.chan c.toNat)

/-- `Stop` of one channel, of any kind (R145, R293). -/
def Obligations.StopResult : Prop :=
  ∀ (s : State) (c : BitVec 4) (cc : ChanCfg), Sound s → s.cfg.chans[c.toNat]? = some cc →
    ∃ t, exec (.stop c) s = .next t ∧ DirectiveFrame (· = c.toNat) s t ∧
      StoppedChan cc (s.chan c.toNat) (t.chan c.toNat)

/-- `StopAll`, and the two `STOP` commands, stop every channel (R95, R293). -/
def Obligations.StopAllResult : Prop :=
  ∀ s : State, Sound s →
    ∃ t, exec .stopAll s = .next t ∧ exec .stopKey s = .next t ∧ exec .stopSpace s = .next t ∧
      DirectiveFrame (fun _ => True) s t ∧
      ∀ (c : Nat) (cc : ChanCfg), s.cfg.chans[c]? = some cc → StoppedChan cc (s.chan c) (t.chan c)

/-- `QueryStatus`, and the `QUERY` command, append one `STATUS` with the snapshot of R294, taken after the refresh. -/
def Obligations.QueryStatusResult : Prop :=
  ∀ s : State,
    ∃ (t : State) (snap : Snapshot), exec .queryStatus s = .next t ∧ exec .query s = .next t ∧ Refreshed s t ∧
      SameButChans (fun _ => False) s t ∧ Emitted [{ word := 0x4F00000000#40, snapshot := some snap }] s t ∧
      t.port.rx = s.port.rx ∧ t.port.inputs = s.port.inputs ∧ t.port.draws = s.port.draws ∧ SnapshotOf t snap

/-- `AdjustRatePreset` writes the index and no rate (R296). -/
def Obligations.AdjustRatePresetResult : Prop :=
  ∀ (s : State) (k : Arg32), Sound s → k.toNat < s.cfg.npreset →
    ∃ t, exec (.adjustRatePreset k) s = .next t ∧ Refreshed s t ∧ t.port = s.port ∧ t.out = s.out ∧
      t.cfg = s.cfg ∧ SameParser s t ∧ (∀ c, t.chan c = s.chan c) ∧ t.sq.presetIdx.toNat = k.toNat ∧
      t.sq.stage = s.sq.stage ∧ t.sq.now = s.sq.now

/-- `ParseError` emits its event and reads or writes nothing else; the watchdog is not refreshed (R297). -/
def Obligations.ParseErrorResult : Prop :=
  ∀ (s : State) (r : Arg32), 1 ≤ r.toNat → r.toNat ≤ 4 →
    ∃ t, exec (.parseError r) s = .next t ∧ SameButLogs s t ∧
      Emitted [plainEvent (0x1F#8 ++ r)] s t

/-- Directives that break R100 and events that break R104 are refused, each by its name. The clause on `.stop 0xF` is no
break of R100, which admits `KIND = 0x3` with `CH = 0xF` (item 3, R293): that word decodes to `stopAll`, which runs; the
refusal of the bare term `.stop 0xF` is the model's own choice, its split of `Stop` and `StopAll` into two constructors.
That `exec` runs or refuses such a term at all is the model's choice too (log 30). -/
def Obligations.IllFormedWordsRefused : Prop :=
  ∀ s : State,
    (∀ a, exec (.setRate 0xF#4 a) s = .refused .illFormedDirective) ∧
    (∀ a, exec (.setAbsoluteTarget 0xF#4 a) s = .refused .illFormedDirective) ∧
    (∀ c a, c = 0xF#4 ∨ a = 0x80000000#32 → exec (.stepRelative c a) s = .refused .illFormedDirective) ∧
    exec (.stop 0xF#4) s = .refused .illFormedDirective ∧
    (∀ k, s.cfg.npreset ≤ k.toNat → exec (.adjustRatePreset k) s = .refused .illFormedDirective) ∧
    (∀ r, r.toNat = 0 ∨ 5 ≤ r.toNat → exec (.parseError r) s = .refused .illFormedDirective) ∧
    (∀ r, r.toNat = 0 ∨ 5 ≤ r.toNat → exec (.evParseError r) s = .refused .illFormedEvent) ∧
    (∀ p, exec (.evSavePos 0xF#4 p) s = .refused .illFormedEvent)

/-- The event rows append their word to the diagnostic stream, `SAVE_POS` to the save port, and change nothing else
(R104, R320, R301). -/
def Obligations.EventRowsResult : Prop :=
  ∀ s : State,
    (∀ r : Arg32, 1 ≤ r.toNat → r.toNat ≤ 4 →
      ∃ t, exec (.evParseError r) s = .next t ∧ SameButLogs s t ∧ Emitted [plainEvent (0x1F#8 ++ r)] s t) ∧
    (∃ t, exec .evOverflow s = .next t ∧ SameButLogs s t ∧ Emitted [plainEvent 0x2F00000000#40] s t) ∧
    (∃ t, exec .evWdTimeout s = .next t ∧ SameButLogs s t ∧ Emitted [plainEvent 0x3F00000000#40] s t) ∧
    (∃ (t : State) (snap : Snapshot), exec .evStatus s = .next t ∧ SameButLogs s t ∧
      Emitted [{ word := 0x4F00000000#40, snapshot := some snap }] s t ∧ SnapshotOf s snap) ∧
    (∀ (c : BitVec 4) (p : Arg32), c.toNat ≤ 14 →
      ∃ t, exec (.evSavePos c p) s = .next t ∧ SameButLogs s t ∧ t.port.diag = s.port.diag ∧
        t.port.saves = s.port.saves ++ [0x5#4 ++ c ++ p])

/-! ## Single-byte commands -/

/-- A drive command applies its pair of `SetRate`s, the preset read once (R95, R211). Where the index has no preset,
which R46 rules out, the model faults (log 18). -/
def Obligations.DriveCommandsApplyTheirPair : Prop :=
  ∀ s : State, ∀ e ∈ driveRows,
    (Sound s →
      ∃ (p : Nat) (t u : State), s.cfg.presets[s.sq.presetIdx.toNat]? = some p ∧
        exec (.setRate 0#4 (BitVec.ofInt 32 (e.2.1 * p))) s = .next t ∧
        exec (.setRate 1#4 (BitVec.ofInt 32 (e.2.2 * p))) t = .next u ∧ exec e.1 s = .next u) ∧
    (s.cfg.npreset ≤ s.sq.presetIdx.toNat → exec e.1 s = .fault .presetIndex)

/-- A `PRESET` row selects its preset where there is one (R95, R296). That `exec` of the row changes nothing where there
is none is the model's choice (log 26): for the spec such a byte is `CHAR_UNMAPPED`. -/
def Obligations.PresetCommandsSelect : Prop :=
  ∀ s : State, Sound s → ∀ e ∈ presetRows,
    (e.2 < s.cfg.npreset →
      ∃ t, exec e.1 s = .next t ∧ exec (.adjustRatePreset (BitVec.ofNat 32 e.2)) s = .next t ∧
        t.sq.presetIdx.toNat = e.2 ∧ Refreshed s t ∧ ∀ c, t.chan c = s.chan c) ∧
    (s.cfg.npreset ≤ e.2 → exec e.1 s = .next s)

/-- `JOG_FWD`, `JOG_REV` and `HOME` apply their one directive on channel 0 (R95). -/
def Obligations.JogAndHomeApplyTheirDirective : Prop :=
  ∀ s : State, Sound s →
    (∃ t, exec (.stepRelative 0#4 (BitVec.ofInt 32 s.cfg.jogSteps)) s = .next t ∧ exec .jogFwd s = .next t) ∧
    (∃ t, exec (.stepRelative 0#4 (BitVec.ofInt 32 (-(s.cfg.jogSteps : Int)))) s = .next t ∧
      exec .jogRev s = .next t) ∧
    (∃ t, exec (.setAbsoluteTarget 0#4 0#32) s = .next t ∧ exec .home s = .next t)

/-- Dropped bytes change nothing at all: a byte with no `CHAR_MAP` entry, which carriage return and line feed are in the
default map, and outside a frame every byte but `START` (R212, R226). -/
def Obligations.DroppedBytesChangeNothing : Prop :=
  (∀ (s : State) (b : Byte), exec (.charUnmapped b) s = .next s ∧ exec (.frameIgnored b) s = .next s) ∧
  (∀ (s : State) (b : Byte), s.cfg.protocol = .char → s.ctx.unmapped b = true →
    decodeByte s.ctx b = .ok [.charUnmapped b] ∧ execByte b s = .next s) ∧
  (∀ n : Nat, defaultRow n 0x0D#8 = none ∧ defaultRow n 0x0A#8 = none) ∧
  (∀ (s : State) (b : Byte), s.cfg.protocol = .frame → s.ps.framing = false → b ≠ s.cfg.startB →
    decodeByte s.ctx b = .ok [.frameIgnored b] ∧ execByte b s = .next s)

/-- What is no valid directive never refreshes the watchdog: a `ParseError`, an overflowing byte, a dropped byte of
either protocol, a stored byte, and the `END` of a malformed frame (R261). -/
def Obligations.OnlyValidDirectivesRefresh : Prop :=
  (∀ (i : Instr) (s t : State), neverRefreshes i = true → exec i s = .next t → t.wd = s.wd) ∧
  (∀ s t : State, bodyOk s.cfg.sepB (bufBody s) = false → exec .frameEnd s = .next t → t.wd = s.wd)

/-! ## Frames -/

/-- `START` opens a new empty frame, whatever was open (R221). -/
def Obligations.FrameStartOpensEmptyFrame : Prop :=
  ∀ s : State,
    ∃ t, exec .frameStart s = .next t ∧ t.ps.framing = true ∧ t.ps.cursor = 0#8 ∧
      (∀ a, t.ps.buf.read a = s.ps.buf.read a) ∧ t.cfg = s.cfg ∧ t.wd = s.wd ∧ t.sq = s.sq ∧ t.out = s.out ∧
      (∀ c, t.chan c = s.chan c) ∧ SameInputs s t ∧
      Emitted (if s.ps.framing then [plainEvent 0x1F00000004#40] else []) s t

/-- A body byte goes to `ps.buf[ps.cursor]`, whatever it is, no other byte changes, and the cursor moves up by one
(R225). At or above `CAP`, where R72 allows no write, the model faults (log 19). -/
def Obligations.FrameBodyStoresAtCursor : Prop :=
  ∀ (s : State) (b : Byte), Sound s →
    (s.ps.cursor.toNat < s.cfg.cap →
      ∃ t, exec (.frameBody b) s = .next t ∧ t.ps.buf.read s.ps.cursor.toNat = b ∧
        (∀ a, a ≠ s.ps.cursor.toNat → t.ps.buf.read a = s.ps.buf.read a) ∧ t.ps.buf.wf = true ∧
        t.ps.cursor.toNat = s.ps.cursor.toNat + 1 ∧ t.ps.framing = s.ps.framing ∧ t.cfg = s.cfg ∧ t.wd = s.wd ∧
        t.sq = s.sq ∧ t.out = s.out ∧ t.port = s.port ∧ ∀ c, t.chan c = s.chan c) ∧
    (s.cfg.cap ≤ s.ps.cursor.toNat → exec (.frameBody b) s = .fault .bufferIndex)

/-- An overflowing byte closes the frame, is not stored, and emits `OVERFLOW` (R224, R322). -/
def Obligations.FrameOverflowAbandons : Prop :=
  ∀ (s : State) (b : Byte),
    ∃ t, exec (.frameOverflow b) s = .next t ∧ t.ps.framing = false ∧ t.ps.cursor = 0#8 ∧
      (∀ a, t.ps.buf.read a = s.ps.buf.read a) ∧ t.cfg = s.cfg ∧ t.wd = s.wd ∧ t.sq = s.sq ∧ t.out = s.out ∧
      (∀ c, t.chan c = s.chan c) ∧ SameInputs s t ∧ Emitted [plainEvent 0x2F00000000#40] s t

/-- A malformed frame gives one `PARSE_ERROR` with the first failing reason, closes the frame and moves nothing
(R222, R230, R234). -/
def Obligations.MalformedFrameOnlyReports : Prop :=
  ∀ s : State, bodyOk s.cfg.sepB (bufBody s) = false →
    ∃ t, exec .frameEnd s = .next t ∧ t.ps.framing = false ∧ t.ps.cursor = 0#8 ∧
      (∀ a, t.ps.buf.read a = s.ps.buf.read a) ∧ t.cfg = s.cfg ∧ t.wd = s.wd ∧ t.sq = s.sq ∧ t.out = s.out ∧
      (∀ c, t.chan c = s.chan c) ∧ SameInputs s t ∧
      Emitted [plainEvent (0x1F#8 ++ malformedReason s.cfg.sepB (bufBody s))] s t

/-- A well-formed frame is closed and both its directives are applied, field 0 first (R103, R222, R230). A clamped value
beyond 32 bits, which only a field range beyond 32 bits admits, wraps into `ARG` (log 25). -/
def Obligations.WellFormedFrameAppliesBoth : Prop :=
  ∀ s : State, Sound s → s.cfg.protocol = .frame → bodyOk s.cfg.sepB (bufBody s) = true →
    ∃ t u : State,
      exec (fieldInstr s.cfg.fieldSat s.cfg.field0 (fieldText s.cfg.sepB (bufBody s) 0))
        { s with ps := { s.ps with framing := false, cursor := 0#8 } } = .next t ∧
      exec (fieldInstr s.cfg.fieldSat s.cfg.field1 (fieldText s.cfg.sepB (bufBody s) 1)) t = .next u ∧
      exec .frameEnd s = .next u

/-- Resynchronisation: whatever came before, `START body END` with a well-formed body of at most `CAP` bytes leaves
the parser closed and applies exactly the directives of that body (R227). A clamped value beyond 32 bits wraps into
`ARG` (log 25). -/
def Obligations.FrameResynchronises : Prop :=
  ∀ (s : State) (body : List Byte), Sound s → s.cfg.protocol = .frame → bodyOk s.cfg.sepB body = true →
    body.length ≤ s.cfg.cap →
    ∃ (m : Memory) (t u : State), (∀ a, m.read a = (body[a]?).getD (s.ps.buf.read a)) ∧
      exec (fieldInstr s.cfg.fieldSat s.cfg.field0 (fieldText s.cfg.sepB body 0))
        { s with
          ps := { framing := false, cursor := 0#8, buf := m }
          port := { s.port with
            diag := s.port.diag ++ if s.ps.framing then [plainEvent 0x1F00000004#40] else [] } } = .next t ∧
      exec (fieldInstr s.cfg.fieldSat s.cfg.field1 (fieldText s.cfg.sepB body 1)) t = .next u ∧
      exec (.frame body) s = .next u

/-- A whole frame waiting in the FIFO runs as the composite `FRAME` (R93, R220, R282). -/
def Obligations.FrameInFifoRunsComposite : Prop :=
  ∀ (s : State) (body : List Byte), s.cfg.protocol = .frame →
    drainBytes (s.cfg.startB :: (body ++ [s.cfg.endB])) s =
      andThen (exec (.frame body) s) fun t => .next { t with port := { t.port with rx := [] } }

/-- Bytes outside a frame with no `START` among them change nothing (R226). -/
def Obligations.GarbageOutsideFrameIgnored : Prop :=
  ∀ (s : State) (bs : List Byte), s.cfg.protocol = .frame → s.ps.framing = false → (∀ b ∈ bs, b ≠ s.cfg.startB) →
    frameBytes bs s = .next s

/-- The value of a field is its decimal value, saturated and signed (R102, R231). -/
def Obligations.FieldValueIsSaturatedDecimal : Prop :=
  ∀ (sat : Nat) (f : List Byte),
    fieldValue sat f =
      if f.head? = some 0x2D#8 then -(((min (decimalValue (fieldDigits f)) sat : Nat)) : Int)
      else ((min (decimalValue (fieldDigits f)) sat : Nat) : Int)

/-! ## Step tables, ticks and moves -/

/-- The transition invariant of the step tables (R133). -/
def Obligations.StepTableTransitions : Prop :=
  (∀ p < 8, ∃ v w k : BitVec 4, patternAt .half p = some v ∧ patternAt .half ((p + 1) % 8) = some w ∧
    v ^^^ w = k ∧ k ∈ [1#4, 2#4, 4#4, 8#4]) ∧
  (∀ p < 4, ∃ v w : BitVec 4, patternAt .full p = some v ∧ patternAt .full ((p + 1) % 4) = some w ∧
    w = v.rotateLeft 1)

/-- `N` advances in one direction return the phase to its start, and the same pattern (R134). -/
def Obligations.FullCycleReturnsPhase : Prop :=
  ∀ (now : Nat) (cc : ChanCfg) (x : ChanRegs), x.phase.toNat < cc.phases → x.rate.toInt ≠ 0 →
    (advances now cc cc.phases x).phase = x.phase ∧
    patternAt cc.table (advances now cc cc.phases x).phase.toNat = patternAt cc.table x.phase.toNat

/-- The wrapping difference is the true elapsed time while that is below `2^TS_W` (R152). -/
def Obligations.ElapsedTimeSurvivesWrap : Prop :=
  ∀ tsW start elapsed : Nat, elapsed < 2 ^ tsW →
    wsub tsW ((start + elapsed) % 2 ^ tsW) (start % 2 ^ tsW) = elapsed

/-- What a tick does to a channel: nothing unless it is a `STEPPER` that runs and a step is due; at a due time a
finished move ends, and anything else advances one phase (R149, R150, R155, R162). -/
def Obligations.TickOfOneChannel : Prop :=
  ∀ (timeUnit tsW now : Nat) (cc : ChanCfg) (x : ChanRegs),
    (cc.kind ≠ .stepper ∨ x.rate.toInt = 0 → tickRegs timeUnit tsW now cc x = x) ∧
    (cc.kind = .stepper → x.rate.toInt ≠ 0 → x.phase.toNat < cc.phases →
      (wsub tsW now x.last < timeUnit / x.rate.toInt.natAbs → tickRegs timeUnit tsW now cc x = x) ∧
      (timeUnit / x.rate.toInt.natAbs ≤ wsub tsW now x.last → ¬ (x.moving = true ∧ x.pos = x.target) →
        ∃ d : Int, (0 < x.rate.toInt → d = 1) ∧ (x.rate.toInt < 0 → d = -1) ∧
          ((tickRegs timeUnit tsW now cc x).phase.toNat : Int) = ((x.phase.toNat : Int) + d) % cc.phases ∧
          tickRegs timeUnit tsW now cc x =
            { x with
              phase := (tickRegs timeUnit tsW now cc x).phase
              pos := if cc.trackPos then x.pos + BitVec.ofInt 32 d else x.pos
              last := now }) ∧
      (timeUnit / x.rate.toInt.natAbs ≤ wsub tsW now x.last → x.moving = true → x.pos = x.target →
        tickRegs timeUnit tsW now cc x =
          { x with rate := 0#16, energized := false, brake := false, moving := false }))

/-- The tick stage is, for every channel, the tick of that channel's own bank (R177, R284). And a step whose pass takes
no byte and trips no watchdog gives every channel exactly one such tick, at the timestamp the pass samples, and changes
neither the watchdog nor the parser (R153, R262, R280, R283; the pass as one step fed by a list of inputs: logs 2, 3). -/
def Obligations.TicksAreIndependent : Prop :=
  (∀ (s : State) (c : Nat) (cc : ChanCfg), Sound s → s.cfg.chans[c]? = some cc →
    (stageTick s).chan c = tickRegs s.cfg.timeUnit s.cfg.tsW s.sq.now cc (s.chan c)) ∧
  ∀ (s : State) (time : Nat) (rest : List Input), Inv s → s.port.inputs = .pass time [] :: rest → s.port.rx = [] →
    (s.wd.armed = false ∨ s.wd.forced = true ∨
      wsub s.cfg.tsW (time % 2 ^ s.cfg.tsW) s.wd.lastValid ≤ s.cfg.timeout) →
    ∃ t, step s = .next t ∧ t.wd = s.wd ∧ t.ps = s.ps ∧
      ∀ (c : Nat) (cc : ChanCfg), s.cfg.chans[c]? = some cc →
        t.chan c = tickRegs s.cfg.timeUnit s.cfg.tsW (time % 2 ^ s.cfg.tsW) cc (s.chan c)

/-- A move takes exactly its number of steps and then ends at the next due time: rate 0 and position at the target
(R160, R162). -/
def Obligations.MoveEndsOnTarget : Prop :=
  ∀ (timeUnit tsW now t : Nat) (cc : ChanCfg) (x : ChanRegs) (d : Int) (ts : List Nat),
    cc.kind = .stepper → cc.trackPos = true → cc.wfRates = true → d ≠ 0 → d.natAbs ≤ cc.maxRun →
    ts.length = d.natAbs →
    eachDue tsW (timeUnit / cc.moveRate) (startMoveRegs now d cc x).last (ts ++ [t]) →
    let y := ticksAt timeUnit tsW cc ts (startMoveRegs now d cc x)
    let z := ticksAt timeUnit tsW cc (ts ++ [t]) (startMoveRegs now d cc x)
    y.pos = x.pos + BitVec.ofInt 32 d ∧ y.pos = y.target ∧ y.moving = true ∧
    z.pos = y.pos ∧ z.rate = 0#16 ∧ z.moving = false ∧ z.energized = false

/-! ## Watchdog -/

/-- The comparison is strict: no trip at `TIMEOUT`, a trip at `TIMEOUT + 1` (R263). -/
def Obligations.WatchdogComparisonIsStrict : Prop :=
  ∀ s : State,
    (wsub s.cfg.tsW s.sq.now s.wd.lastValid = s.cfg.timeout → wdCheck s = s) ∧
    (wsub s.cfg.tsW s.sq.now s.wd.lastValid = s.cfg.timeout + 1 → s.wd.armed = true → s.wd.forced = false →
      (wdCheck s).wd.forced = true)

/-- A trip sets `wd.forced`, stops every channel, emits one `WD_TIMEOUT` and changes nothing else; an unarmed and a
tripped watchdog do nothing, nor does one with `TIMEOUT` or less elapsed (R262, R263, R264, R267). -/
def Obligations.WatchdogTripStopsEveryChannel : Prop :=
  ∀ s : State, Sound s →
    (s.wd.armed = false ∨ s.wd.forced = true ∨ wsub s.cfg.tsW s.sq.now s.wd.lastValid ≤ s.cfg.timeout →
      wdCheck s = s) ∧
    (s.wd.armed = true → s.wd.forced = false → s.cfg.timeout < wsub s.cfg.tsW s.sq.now s.wd.lastValid →
      (wdCheck s).wd = { s.wd with forced := true } ∧ Emitted [plainEvent 0x3F00000000#40] s (wdCheck s) ∧
      SameButChans (fun _ => True) s (wdCheck s) ∧ SameInputs s (wdCheck s) ∧
      ∀ (c : Nat) (cc : ChanCfg), s.cfg.chans[c]? = some cc → StoppedChan cc (s.chan c) ((wdCheck s).chan c))

/-- A trip prevents the advances of its pass: the tick stage leaves every channel as the trip left it (R265). -/
def Obligations.TripPreventsAdvance : Prop :=
  ∀ s : State, Sound s → wdDue s = true →
    ∀ c, (stageTick (stageWdog s)).chan c = (stageWdog s).chan c ∧
      ((stageTick (stageWdog s)).chan c).phase = (s.chan c).phase ∧
      ((stageTick (stageWdog s)).chan c).pos = (s.chan c).pos

/-- A host that has fallen silent for more than `TIMEOUT` finds every `STEPPER` and `DC` channel at rate 0 after the
pass, and the watchdog tripped; and no channel has advanced in that pass: the watchdog stage runs before the tick stage
(R262, R265, R268, R280, R283). -/
def Obligations.SilentHostStopsTheBlock : Prop :=
  ∀ (s : State) (time : Nat) (rest : List Input), Inv s → s.port.inputs = .pass time [] :: rest → s.port.rx = [] →
    s.wd.armed = true → s.cfg.timeout < wsub s.cfg.tsW (time % 2 ^ s.cfg.tsW) s.wd.lastValid →
    ∃ t, step s = .next t ∧ t.wd.forced = true ∧ t.wd.lastValid = s.wd.lastValid ∧
      (∀ (c : Nat) (cc : ChanCfg), s.cfg.chans[c]? = some cc → cc.kind ≠ .servo → (t.chan c).rate.toInt = 0) ∧
      ∀ c, (t.chan c).phase = (s.chan c).phase ∧ (t.chan c).pos = (s.chan c).pos

/-! ## Outputs, FIFO, saves -/

/-- Channels equal in phase, rate, energized bit, brake bit and angle drive equal lines, whatever else differs: `last`,
the move registers, the parser, the watchdog (R196). -/
def Obligations.LinesDependOnChannelsOnly : Prop :=
  ∀ s t : State, s.cfg = t.cfg →
    (∀ c, c < s.cfg.nch → (s.chan c).phase = (t.chan c).phase ∧ (s.chan c).rate = (t.chan c).rate ∧
      (s.chan c).energized = (t.chan c).energized ∧ (s.chan c).brake = (t.chan c).brake ∧
      (s.chan c).angle = (t.chan c).angle) →
    muxOutputs s = muxOutputs t

/-- After a pass every mapped line carries its channel's local value, and every other line is 0 (R191 to R195). -/
def Obligations.CommitDrivesEveryLine : Prop :=
  ∀ s t : State, Inv s → NoPowerCycle s → step s = .next t →
    (∀ (c : Nat) (cc : ChanCfg) (k l : Nat), t.cfg.chans[c]? = some cc → cc.digMap[k]? = some l →
      t.out.dig[l]? = some
        (match cc.kind with
        | .stepper => (t.chan c).energized && ((patternAt cc.table (t.chan c).phase.toNat).getD 0#4).getLsbD k
        | .dc =>
          if (t.chan c).rate.toInt = 0 then (t.chan c).brake
          else if k = 0 then decide (0 < (t.chan c).rate.toInt) else decide ((t.chan c).rate.toInt < 0)
        | .servo => (t.chan c).energized)) ∧
    (∀ (c : Nat) (cc : ChanCfg) (l : Nat), t.cfg.chans[c]? = some cc → cc.lvlMap[0]? = some l →
      t.out.lvl[l]? = some
        (match cc.kind with
        | .stepper => 0#16
        | .dc =>
          if (t.chan c).rate.toInt = 0 then
            (if (t.chan c).brake then cc.brakePwm.getD (Config.freeBrakePwm c) else 0#16)
          else BitVec.ofNat 16 (t.chan c).rate.toInt.natAbs
        | .servo => (t.chan c).angle)) ∧
    (∀ l, l < t.cfg.ndig → (∀ cc ∈ t.cfg.chans, l ∉ cc.digMap) → t.out.dig[l]? = some false) ∧
    (∀ l, l < t.cfg.nlvl → (∀ cc ∈ t.cfg.chans, l ∉ cc.lvlMap) → t.out.lvl[l]? = some 0#16)

/-- At the end of every pass a `STEPPER` or `DC` channel at rate 0 has every line de-asserted, but for the braking
pattern (R54 item 3). -/
def Obligations.RateZeroReleasesLines : Prop :=
  ∀ s t : State, Inv s → step s = .next t →
    ∀ (c : Nat) (cc : ChanCfg), t.cfg.chans[c]? = some cc → cc.kind ≠ .servo → (t.chan c).rate.toInt = 0 →
      (∀ k l : Nat, cc.digMap[k]? = some l → t.out.dig[l]? = some (t.chan c).brake) ∧
      ((t.chan c).brake = false → ∀ k l : Nat, cc.lvlMap[k]? = some l → t.out.lvl[l]? = some 0#16)

/-- A byte that meets a full FIFO is lost; the others enter in order (R75). -/
def Obligations.FullFifoLosesBytes : Prop :=
  ∀ (bs : List Byte) (s : State), s.port.rx.length ≤ s.cfg.rxDepth →
    arrive bs s = { s with port := { s.port with rx := (s.port.rx ++ bs).take s.cfg.rxDepth } }

/-- The commit appends one `SAVE_POS` for each persisting channel that went from energized to de-energized, in
channel order, and changes nothing else; and over a whole pass the save port grows by exactly those, the flags taken
before the pass and the positions after it (R301, R280; log 31). -/
def Obligations.SavesFollowStops : Prop :=
  (∀ (en : List Bool) (s : State),
    saveRequests en s =
      { s with port := { s.port with saves := s.port.saves ++ saveWords en s 0 s.cfg.chans } }) ∧
  (∀ s t : State, Inv s → NoPowerCycle s → step s = .next t →
    t.port.saves = s.port.saves ++ saveWords (energizedFlags s) t 0 t.cfg.chans)

/-! ## Two sentences of the spec that its own pseudocode does not keep (logs 16, 17) -/

/-- R54 item 5 with the difference of the two positions as integers: false where the target has wrapped, and there alone
(`StepKeepsInvariant`, `InstructionsKeepSound`). -/
def Obligations.MoveDirectionWithoutWrap : Prop :=
  ∀ s t : State, Inv s → step s = .next t →
    ∀ (c : Nat) (cc : ChanCfg), t.cfg.chans[c]? = some cc → (t.chan c).moving = true →
      sgn (t.chan c).rate.toInt = sgn ((t.chan c).target.toInt - (t.chan c).pos.toInt) ∨
      (t.chan c).pos = (t.chan c).target

/-- R163's last sentence: with `MAX_RUN = 2^31 - 1` no move between 32-bit values is cut. -/
def Obligations.ReferenceRunIsNeverCut : Prop :=
  ∀ pos tgt : BitVec 32, boundRun 2147483647 (tgt.toInt - pos.toInt) = tgt.toInt - pos.toInt
end

