-- ==== Sys2Proof/Laws/State.lean ====
section
/-! SUPPORT. One lemma per field per update of the state: what each named update reads back as. -/

namespace Sys2Proof.Machine

section Emit
variable (e : DiagEntry) (s : State) (c : Nat)
@[simp] theorem emit_cfg : (emit e s).cfg = s.cfg := rfl
@[simp] theorem emit_ch : (emit e s).ch = s.ch := rfl
@[simp] theorem emit_ps : (emit e s).ps = s.ps := rfl
@[simp] theorem emit_wd : (emit e s).wd = s.wd := rfl
@[simp] theorem emit_sq : (emit e s).sq = s.sq := rfl
@[simp] theorem emit_out : (emit e s).out = s.out := rfl
@[simp] theorem emit_chan : (emit e s).chan c = s.chan c := rfl
@[simp] theorem emit_rx : (emit e s).port.rx = s.port.rx := rfl
@[simp] theorem emit_diag : (emit e s).port.diag = s.port.diag ++ [e] := rfl
@[simp] theorem emit_saves : (emit e s).port.saves = s.port.saves := rfl
@[simp] theorem emit_inputs : (emit e s).port.inputs = s.port.inputs := rfl
@[simp] theorem emit_draws : (emit e s).port.draws = s.port.draws := rfl
end Emit

section Save
variable (k : BitVec 4) (p : BitVec 32) (s : State) (c : Nat)
@[simp] theorem save_cfg : (save k p s).cfg = s.cfg := rfl
@[simp] theorem save_ch : (save k p s).ch = s.ch := rfl
@[simp] theorem save_ps : (save k p s).ps = s.ps := rfl
@[simp] theorem save_wd : (save k p s).wd = s.wd := rfl
@[simp] theorem save_sq : (save k p s).sq = s.sq := rfl
@[simp] theorem save_out : (save k p s).out = s.out := rfl
@[simp] theorem save_chan : (save k p s).chan c = s.chan c := rfl
@[simp] theorem save_rx : (save k p s).port.rx = s.port.rx := rfl
@[simp] theorem save_diag : (save k p s).port.diag = s.port.diag := rfl
@[simp] theorem save_saves : (save k p s).port.saves = s.port.saves ++ [mkWord 0x5#4 k p] := rfl
@[simp] theorem save_inputs : (save k p s).port.inputs = s.port.inputs := rfl
@[simp] theorem save_draws : (save k p s).port.draws = s.port.draws := rfl
end Save

section Refresh
variable (s : State) (c : Nat)
@[simp] theorem wdRefresh_cfg : (wdRefresh s).cfg = s.cfg := rfl
@[simp] theorem wdRefresh_ch : (wdRefresh s).ch = s.ch := rfl
@[simp] theorem wdRefresh_ps : (wdRefresh s).ps = s.ps := rfl
@[simp] theorem wdRefresh_wd :
    (wdRefresh s).wd = { armed := true, forced := false, lastValid := s.sq.now } := rfl
@[simp] theorem wdRefresh_sq : (wdRefresh s).sq = s.sq := rfl
@[simp] theorem wdRefresh_out : (wdRefresh s).out = s.out := rfl
@[simp] theorem wdRefresh_port : (wdRefresh s).port = s.port := rfl
@[simp] theorem wdRefresh_chan : (wdRefresh s).chan c = s.chan c := rfl
end Refresh

section Parser
variable (s : State) (c : Nat)
@[simp] theorem openFrame_cfg : (openFrame s).cfg = s.cfg := rfl
@[simp] theorem openFrame_ch : (openFrame s).ch = s.ch := rfl
@[simp] theorem openFrame_wd : (openFrame s).wd = s.wd := rfl
@[simp] theorem openFrame_sq : (openFrame s).sq = s.sq := rfl
@[simp] theorem openFrame_out : (openFrame s).out = s.out := rfl
@[simp] theorem openFrame_port : (openFrame s).port = s.port := rfl
@[simp] theorem openFrame_chan : (openFrame s).chan c = s.chan c := rfl
@[simp] theorem openFrame_framing : (openFrame s).ps.framing = true := rfl
@[simp] theorem openFrame_cursor : (openFrame s).ps.cursor = 0#8 := rfl
@[simp] theorem openFrame_buf : (openFrame s).ps.buf = s.ps.buf := rfl
@[simp] theorem closeFrame_cfg : (closeFrame s).cfg = s.cfg := rfl
@[simp] theorem closeFrame_ch : (closeFrame s).ch = s.ch := rfl
@[simp] theorem closeFrame_wd : (closeFrame s).wd = s.wd := rfl
@[simp] theorem closeFrame_sq : (closeFrame s).sq = s.sq := rfl
@[simp] theorem closeFrame_out : (closeFrame s).out = s.out := rfl
@[simp] theorem closeFrame_port : (closeFrame s).port = s.port := rfl
@[simp] theorem closeFrame_chan : (closeFrame s).chan c = s.chan c := rfl
@[simp] theorem closeFrame_framing : (closeFrame s).ps.framing = false := rfl
@[simp] theorem closeFrame_cursor : (closeFrame s).ps.cursor = 0#8 := rfl
@[simp] theorem closeFrame_buf : (closeFrame s).ps.buf = s.ps.buf := rfl
end Parser

section Sequencer
variable (g : Stage) (time : Nat) (rest : List Byte) (s : State) (c : Nat)
@[simp] theorem setStage_cfg : (setStage g s).cfg = s.cfg := rfl
@[simp] theorem setStage_ch : (setStage g s).ch = s.ch := rfl
@[simp] theorem setStage_ps : (setStage g s).ps = s.ps := rfl
@[simp] theorem setStage_wd : (setStage g s).wd = s.wd := rfl
@[simp] theorem setStage_out : (setStage g s).out = s.out := rfl
@[simp] theorem setStage_port : (setStage g s).port = s.port := rfl
@[simp] theorem setStage_chan : (setStage g s).chan c = s.chan c := rfl
@[simp] theorem setStage_stage : (setStage g s).sq.stage = g := rfl
@[simp] theorem setStage_now : (setStage g s).sq.now = s.sq.now := rfl
@[simp] theorem setStage_presetIdx : (setStage g s).sq.presetIdx = s.sq.presetIdx := rfl
@[simp] theorem stageSample_cfg : (stageSample time s).cfg = s.cfg := rfl
@[simp] theorem stageSample_ch : (stageSample time s).ch = s.ch := rfl
@[simp] theorem stageSample_ps : (stageSample time s).ps = s.ps := rfl
@[simp] theorem stageSample_wd : (stageSample time s).wd = s.wd := rfl
@[simp] theorem stageSample_out : (stageSample time s).out = s.out := rfl
@[simp] theorem stageSample_port : (stageSample time s).port = s.port := rfl
@[simp] theorem stageSample_chan : (stageSample time s).chan c = s.chan c := rfl
@[simp] theorem stageSample_now : (stageSample time s).sq.now = time % 2 ^ s.cfg.tsW := rfl
@[simp] theorem stageSample_presetIdx : (stageSample time s).sq.presetIdx = s.sq.presetIdx := rfl
@[simp] theorem setRx_cfg : (setRx rest s).cfg = s.cfg := rfl
@[simp] theorem setRx_ch : (setRx rest s).ch = s.ch := rfl
@[simp] theorem setRx_ps : (setRx rest s).ps = s.ps := rfl
@[simp] theorem setRx_wd : (setRx rest s).wd = s.wd := rfl
@[simp] theorem setRx_sq : (setRx rest s).sq = s.sq := rfl
@[simp] theorem setRx_out : (setRx rest s).out = s.out := rfl
@[simp] theorem setRx_chan : (setRx rest s).chan c = s.chan c := rfl
@[simp] theorem setRx_rx : (setRx rest s).port.rx = rest := rfl
@[simp] theorem setRx_diag : (setRx rest s).port.diag = s.port.diag := rfl
@[simp] theorem setRx_saves : (setRx rest s).port.saves = s.port.saves := rfl
@[simp] theorem setRx_inputs : (setRx rest s).port.inputs = s.port.inputs := rfl
@[simp] theorem setRx_draws : (setRx rest s).port.draws = s.port.draws := rfl
end Sequencer

section Bank
variable (f : ChanCfg → ChanRegs → ChanRegs) (s : State) (i : Nat)
@[simp] theorem updChan_cfg : (updChan i f s).cfg = s.cfg := by unfold updChan; split <;> rfl
@[simp] theorem updChan_ps : (updChan i f s).ps = s.ps := by unfold updChan; split <;> rfl
@[simp] theorem updChan_wd : (updChan i f s).wd = s.wd := by unfold updChan; split <;> rfl
@[simp] theorem updChan_sq : (updChan i f s).sq = s.sq := by unfold updChan; split <;> rfl
@[simp] theorem updChan_out : (updChan i f s).out = s.out := by unfold updChan; split <;> rfl
@[simp] theorem updChan_port : (updChan i f s).port = s.port := by unfold updChan; split <;> rfl
@[simp] theorem updChan_ch_length : (updChan i f s).ch.length = s.ch.length := by
  unfold updChan; split <;> simp
end Bank

end Sys2Proof.Machine
end

