-- ==== Sys2Proof/Laws/Ops.lean ====
section
/-! SUPPORT. What each shared operation can do, said once: outcomes, the byte memory, the channel register bank, the ports. -/

namespace Sys2Proof.Machine

/-! ## Outcomes -/

@[simp] theorem andThen_next (s : State) (k : State → Result) : andThen (.next s) k = k s := rfl
@[simp] theorem andThen_fault (f : Fault) (k : State → Result) : andThen (.fault f) k = .fault f := rfl
@[simp] theorem andThen_refused (f : Refusal) (k : State → Result) : andThen (.refused f) k = .refused f := rfl

/-- A sequence answers a next state exactly where both parts do. -/
theorem andThen_eq_next {r : Result} {k : State → Result} {t : State} :
    andThen r k = .next t ↔ ∃ s, r = .next s ∧ k s = .next t := by
  cases r <;> simp [andThen]

theorem andThen_assoc (r : Result) (k l : State → Result) :
    andThen (andThen r k) l = andThen r fun s => andThen (k s) l := by
  cases r <;> rfl

/-- A valid directive answers a next state only with a well-formed word, and then has its effect after the refresh. -/
theorem applyValid_eq_next {ok : Bool} {f : State → State} {s t : State} :
    applyValid ok f s = .next t ↔ ok = true ∧ f (wdRefresh s) = t := by
  cases ok <;> simp [applyValid]

theorem emitValid_eq_next {ok : Bool} {f : State → State} {s t : State} :
    emitValid ok f s = .next t ↔ ok = true ∧ f s = t := by
  cases ok <;> simp [emitValid]

/-! ## The byte memory -/

theorem Memory.read_below {m : Memory} {lo i : Nat} (h : m.wfFrom lo = true) (hi : i < lo) :
    m.read i = Memory.blank := by
  induction m generalizing lo with
  | nil => rfl
  | cons e m ih =>
    obtain ⟨a, v⟩ := e
    simp only [Memory.wfFrom, Bool.and_eq_true, decide_eq_true_eq] at h
    simp only [Memory.read]
    rw [if_neg (by omega)]
    exact ih h.2 (by omega)

/-- A read after a write: the byte written at its address, every other byte as before. -/
theorem Memory.read_write {m : Memory} {lo : Nat} (h : m.wfFrom lo = true) (i j : Nat) (b : Byte) :
    (m.write i b).read j = if j = i then b else m.read j := by
  induction m generalizing lo with
  | nil =>
    by_cases hb : b = Memory.blank
    · by_cases hj : j = i <;> simp [Memory.write, Memory.read, hb]
    · by_cases hj : j = i <;> simp [Memory.write, Memory.read, hb, hj]
  | cons e m ih =>
    obtain ⟨a, v⟩ := e
    simp only [Memory.wfFrom, Bool.and_eq_true, decide_eq_true_eq] at h
    have hm := ih h.2
    by_cases hlt : i < a
    · have hi : Memory.read m i = Memory.blank := Memory.read_below h.2 (by omega)
      by_cases hb : b = Memory.blank
      · simp only [Memory.write, if_pos hlt, if_pos hb, Memory.read]
        by_cases hj : j = i
        · subst hj; rw [if_neg (by omega), if_pos rfl, hi, hb]
        · rw [if_neg hj]
      · simp only [Memory.write, if_pos hlt, if_neg hb, Memory.read]
    · by_cases hia : i = a
      · subst hia
        have hi : Memory.read m i = Memory.blank := Memory.read_below h.2 (by omega)
        by_cases hb : b = Memory.blank
        · simp only [Memory.write, if_neg hlt, if_pos hb, if_true, Memory.read]
          by_cases hj : j = i
          · subst hj; rw [if_pos rfl, hi, hb]
          · simp [hj]
        · simp only [Memory.write, if_neg hlt, if_neg hb, if_true, Memory.read]
          by_cases hj : j = i <;> simp [hj]
      · simp only [Memory.write, if_neg hlt, if_neg hia, Memory.read]
        by_cases hja : j = a
        · subst hja; rw [if_pos rfl, if_pos rfl, if_neg (by omega)]
        · rw [if_neg hja, if_neg hja, hm]

theorem Memory.wfFrom_weaken {m : Memory} {lo lo' : Nat} (h : m.wfFrom lo = true) (hle : lo' ≤ lo) :
    m.wfFrom lo' = true := by
  cases m with
  | nil => rfl
  | cons e m =>
    obtain ⟨a, v⟩ := e
    simp only [Memory.wfFrom, Bool.and_eq_true, decide_eq_true_eq] at h ⊢
    exact ⟨⟨by omega, h.1.2⟩, h.2⟩

theorem Memory.wfFrom_write {m : Memory} {lo i : Nat} {b : Byte} (h : m.wfFrom lo = true) (hi : lo ≤ i) :
    (m.write i b).wfFrom lo = true := by
  induction m generalizing lo with
  | nil =>
    by_cases hb : b = Memory.blank <;> simp [Memory.write, Memory.wfFrom, hb, hi]
  | cons e m ih =>
    obtain ⟨a, v⟩ := e
    have h' := h
    simp only [Memory.wfFrom, Bool.and_eq_true, decide_eq_true_eq] at h
    by_cases hlt : i < a
    · by_cases hb : b = Memory.blank
      · simpa only [Memory.write, if_pos hlt, if_pos hb] using h'
      · simp only [Memory.write, if_pos hlt, if_neg hb, Memory.wfFrom, Bool.and_eq_true, decide_eq_true_eq]
        exact ⟨⟨hi, by simpa using hb⟩, ⟨by omega, h.1.2⟩, h.2⟩
    · by_cases hia : i = a
      · subst hia
        by_cases hb : b = Memory.blank
        · simp only [Memory.write, if_neg hlt, if_true, if_pos hb]
          exact Memory.wfFrom_weaken h.2 (by omega)
        · simp only [Memory.write, if_neg hlt, if_true, if_neg hb, Memory.wfFrom, Bool.and_eq_true,
            decide_eq_true_eq]
          exact ⟨⟨hi, by simpa using hb⟩, h.2⟩
      · simp only [Memory.write, if_neg hlt, if_neg hia, Memory.wfFrom, Bool.and_eq_true, decide_eq_true_eq]
        exact ⟨⟨h.1.1, h.1.2⟩, ih h.2 (by omega)⟩

/-- Every memory operation keeps the canonical form. -/
theorem Memory.write_wf {m : Memory} {i : Nat} {b : Byte} (h : m.wf = true) : (m.write i b).wf = true :=
  Memory.wfFrom_write h (Nat.zero_le i)

/-- The addresses of a memory after a write are those before it and the one written. -/
theorem Memory.write_addresses {m : Memory} {i n : Nat} {b : Byte}
    (h : m.all (fun e => decide (e.1 < n)) = true) (hi : i < n) :
    (m.write i b).all (fun e => decide (e.1 < n)) = true := by
  induction m with
  | nil => by_cases hb : b = Memory.blank <;> simp [Memory.write, hb, hi]
  | cons e m ih =>
    obtain ⟨a, v⟩ := e
    simp only [List.all_cons, Bool.and_eq_true, decide_eq_true_eq] at h
    have hm := ih h.2
    unfold Memory.write
    split_ifs <;>
      simp only [List.all_cons, Bool.and_eq_true, decide_eq_true_eq, h, hi, hm, and_self]

/-- The reset memory has the canonical form. -/
theorem reset_memory_wf : State.reset.ps.buf.wf = true := rfl

/-! ## The channel register bank -/

@[simp] theorem maskChan_maskChan (cc : ChanCfg) (x : ChanRegs) : maskChan cc (maskChan cc x) = maskChan cc x := by
  simp only [maskChan, ChanRegs.mk.injEq]
  refine ⟨?_, ?_, ?_, trivial, ?_, ?_, ?_, ?_, ?_⟩ <;> split <;> rfl

/-- A bank read through the one operation has its hardwired fields at 0. -/
theorem maskChan_chan {s : State} {c : Nat} {cc : ChanCfg} (h : s.cfg.chans[c]? = some cc) :
    maskChan cc (s.chan c) = s.chan c := by
  unfold State.chan; rw [h]; exact maskChan_maskChan _ _

theorem chan_of_none {s : State} {c : Nat} (h : s.cfg.chans[c]? = none) : s.chan c = zeroChan := by
  unfold State.chan; rw [h]

/-- The channel written reads back the value written, less its hardwired fields. -/
theorem chan_updChan_self {s : State} {c : Nat} {cc : ChanCfg} {f : ChanCfg → ChanRegs → ChanRegs}
    (hl : s.ch.length = s.cfg.nch) (h : s.cfg.chans[c]? = some cc) :
    (updChan c f s).chan c = maskChan cc (f cc (s.chan c)) := by
  have hc : c < s.ch.length := by
    rw [hl]; exact (List.getElem?_eq_some_iff.mp h).1
  have hu : updChan c f s = { s with ch := s.ch.set c (maskChan cc (f cc (s.chan c))) } := by
    unfold updChan; rw [h]
  rw [hu]
  show (match s.cfg.chans[c]? with
    | some cc' => maskChan cc' (((s.ch.set c (maskChan cc (f cc (s.chan c))))[c]?).getD zeroChan)
    | none => zeroChan) = _
  rw [h, List.getElem?_set_self hc]
  simp

/-- Every other channel is as before. -/
theorem chan_updChan_other {s : State} {c d : Nat} {f : ChanCfg → ChanRegs → ChanRegs} (h : d ≠ c) :
    (updChan c f s).chan d = s.chan d := by
  unfold updChan
  split
  · unfold State.chan
    show (match s.cfg.chans[d]? with
      | some cc' => maskChan cc' (((s.ch.set c _)[d]?).getD zeroChan)
      | none => zeroChan) = _
    rw [List.getElem?_set_ne (Ne.symm h)] <;> cases s.cfg.chans[d]? <;> rfl
  · rfl

/-- A channel the configuration does not have takes no write. -/
theorem updChan_of_none {s : State} {c : Nat} {f : ChanCfg → ChanRegs → ChanRegs} (h : s.cfg.chans[c]? = none) :
    updChan c f s = s := by
  unfold updChan; rw [h]

/-- An operation that keeps the bank keeps every read. -/
theorem chan_updChan_id {s : State} {c : Nat} {f : ChanCfg → ChanRegs → ChanRegs} (hl : s.ch.length = s.cfg.nch)
    (h : ∀ cc, s.cfg.chans[c]? = some cc → f cc (s.chan c) = s.chan c) (d : Nat) :
    (updChan c f s).chan d = s.chan d := by
  by_cases hd : d = c
  · subst hd
    cases hc : s.cfg.chans[d]? with
    | none => rw [updChan_of_none hc]
    | some cc => rw [chan_updChan_self hl hc, h cc hc, maskChan_chan hc]
  · exact chan_updChan_other hd

/-! ## The same operation on every channel -/

section ForChans
variable (f : State → ChanCfg → ChanRegs → ChanRegs) (hf : ∀ s t : State, s.cfg = t.cfg → s.sq = t.sq → f s = f t)

/-- A fold of `updChan` over a list of channels keeps everything but the banks. -/
theorem foldl_updChan_fields (l : List Nat) (s : State) :
    let t := l.foldl (fun u c => updChan c (f u) u) s
    t.cfg = s.cfg ∧ t.ps = s.ps ∧ t.wd = s.wd ∧ t.sq = s.sq ∧ t.out = s.out ∧ t.port = s.port ∧
      t.ch.length = s.ch.length := by
  induction l generalizing s with
  | nil => simp
  | cons c l ih =>
    have h := ih (updChan c (f s) s)
    simp only [updChan_cfg, updChan_ps, updChan_wd, updChan_sq, updChan_out, updChan_port,
      updChan_ch_length] at h
    exact h

include hf in
theorem foldl_updChan_chan (l : List Nat) (hn : l.Nodup) (s : State) (hl : s.ch.length = s.cfg.nch) (c : Nat)
    (cc : ChanCfg) (hc : s.cfg.chans[c]? = some cc) :
    (l.foldl (fun u c => updChan c (f u) u) s).chan c =
      if c ∈ l then maskChan cc (f s cc (s.chan c)) else s.chan c := by
  induction l generalizing s with
  | nil => simp
  | cons d l ih =>
    obtain ⟨hd, hn⟩ := List.nodup_cons.mp hn
    have h := ih hn (updChan d (f s) s) (by simpa using hl) (by simpa using hc)
    rw [List.foldl_cons, h]
    have hfs : f (updChan d (f s) s) = f s := hf _ _ (by simp) (by simp)
    by_cases hcd : c = d
    · subst hcd
      rw [if_neg hd, if_pos (by simp), chan_updChan_self hl hc]
    · rw [chan_updChan_other hcd, hfs]
      simp [hcd]

end ForChans

/-- What an operation on every channel does to one channel's bank, for an operation that reads of the state only the
configuration and the sequencer registers. -/
theorem forChans_chan {op : Nat → State → State} (f : State → ChanCfg → ChanRegs → ChanRegs)
    (hop : ∀ c s, op c s = updChan c (f s) s) (hf : ∀ s t : State, s.cfg = t.cfg → s.sq = t.sq → f s = f t)
    {s : State} (hl : s.ch.length = s.cfg.nch) {c : Nat} {cc : ChanCfg} (hc : s.cfg.chans[c]? = some cc) :
    (forChans op s).chan c = maskChan cc (f s cc (s.chan c)) := by
  have hlt : c < s.cfg.nch := (List.getElem?_eq_some_iff.mp hc).1
  have hfun : (fun t c => op c t) = fun u c => updChan c (f u) u := by
    funext t c; exact hop c t
  unfold forChans
  rw [hfun, foldl_updChan_chan f hf _ List.nodup_range s hl c cc hc, if_pos (List.mem_range.mpr hlt)]

theorem forChans_fields {op : Nat → State → State} (f : State → ChanCfg → ChanRegs → ChanRegs)
    (hop : ∀ c s, op c s = updChan c (f s) s) (s : State) :
    (forChans op s).cfg = s.cfg ∧ (forChans op s).ps = s.ps ∧ (forChans op s).wd = s.wd ∧
      (forChans op s).sq = s.sq ∧ (forChans op s).out = s.out ∧ (forChans op s).port = s.port ∧
      (forChans op s).ch.length = s.ch.length := by
  have hfun : (fun t c => op c t) = fun u c => updChan c (f u) u := by
    funext t c; exact hop c t
  unfold forChans
  rw [hfun]
  exact foldl_updChan_fields f _ s

/-! ## Stopping and ticking every channel -/

/-- Everything but the banks is as before after `stop` of every channel. -/
theorem stopEvery_fields (s : State) :
    (stopEvery s).cfg = s.cfg ∧ (stopEvery s).ps = s.ps ∧ (stopEvery s).wd = s.wd ∧ (stopEvery s).sq = s.sq ∧
      (stopEvery s).out = s.out ∧ (stopEvery s).port = s.port ∧ (stopEvery s).ch.length = s.ch.length :=
  forChans_fields (fun s => stopRegs s.sq.now) (fun _ _ => rfl) s

/-- Every channel is stopped by itself. -/
theorem stopEvery_chan {s : State} (hl : s.ch.length = s.cfg.nch) {c : Nat} {cc : ChanCfg}
    (hc : s.cfg.chans[c]? = some cc) : (stopEvery s).chan c = maskChan cc (stopRegs s.sq.now cc (s.chan c)) :=
  forChans_chan (fun s => stopRegs s.sq.now) (fun _ _ => rfl) (fun s t _ h => by rw [h]) hl hc

theorem stageTick_fields (s : State) :
    (stageTick s).cfg = s.cfg ∧ (stageTick s).ps = s.ps ∧ (stageTick s).wd = s.wd ∧
      (stageTick s).sq = { s.sq with stage := .tick } ∧ (stageTick s).out = s.out ∧
      (stageTick s).port = s.port ∧ (stageTick s).ch.length = s.ch.length :=
  forChans_fields (fun s => tickRegs s.cfg.timeUnit s.cfg.tsW s.sq.now) (fun _ _ => rfl) (setStage .tick s)

/-- Every channel is ticked by itself, on its own bank. -/
theorem stageTick_chan_masked {s : State} (hl : s.ch.length = s.cfg.nch) {c : Nat} {cc : ChanCfg}
    (hc : s.cfg.chans[c]? = some cc) :
    (stageTick s).chan c = maskChan cc (tickRegs s.cfg.timeUnit s.cfg.tsW s.sq.now cc (s.chan c)) :=
  forChans_chan (fun s => tickRegs s.cfg.timeUnit s.cfg.tsW s.sq.now) (fun _ _ => rfl)
    (fun s t h h' => by rw [h, h']) (s := setStage .tick s) hl hc

end Sys2Proof.Machine
end

