-- ==== Sys2Proof/Laws/Channel.lean ====
section
/-! SUPPORT. The channel operations on one bank: the clamp, the fields each operation writes, and that each keeps the channel
invariants `chanSound`. -/

namespace Sys2Proof.Machine

/-! ## Signs and clamps -/

theorem sgn_zero : sgn 0 = 0 := rfl

theorem sgn_of_pos {v : Int} (h : 0 < v) : sgn v = 1 := by unfold sgn; rw [if_neg (by omega), if_pos h]

theorem sgn_of_neg {v : Int} (h : v < 0) : sgn v = -1 := by unfold sgn; rw [if_pos h]

theorem clampRate_zero (lo hi : Nat) : clampRate lo hi 0 = 0 := rfl

/-- The clamp of a non-zero rate: its sign, and a magnitude in the bounds. -/
theorem clampRate_of_pos {lo hi : Nat} {r : Int} (h : 0 < r) :
    clampRate lo hi r = clamp r lo hi := by
  have : (r.natAbs : Int) = r := by omega
  unfold clampRate; rw [if_neg (by omega), sgn_of_pos h, this]; omega

theorem clampRate_of_neg {lo hi : Nat} {r : Int} (h : r < 0) :
    clampRate lo hi r = -clamp (-r) lo hi := by
  have : (r.natAbs : Int) = -r := by omega
  unfold clampRate; rw [if_neg (by omega), sgn_of_neg h, this]; omega

theorem clamp_bounds {v lo hi : Int} (h : lo ≤ hi) : lo ≤ clamp v lo hi ∧ clamp v lo hi ≤ hi := by
  unfold clamp; split_ifs <;> omega

/-- After the clamp a rate is 0, or its magnitude lies in the channel's bounds (R33, R140). -/
theorem clampRate_bounds {lo hi : Nat} (h : lo ≤ hi) (r : Int) :
    clampRate lo hi r = 0 ∨ (lo ≤ (clampRate lo hi r).natAbs ∧ (clampRate lo hi r).natAbs ≤ hi) := by
  rcases lt_trichotomy r 0 with hr | hr | hr
  · right; rw [clampRate_of_neg hr]
    have := @clamp_bounds (-r) lo hi (by omega); omega
  · left; rw [hr]; rfl
  · right; rw [clampRate_of_pos hr]
    have := @clamp_bounds r lo hi (by omega); omega

theorem clampRate_eq_zero {lo hi : Nat} (h1 : 1 ≤ lo) (h : lo ≤ hi) {r : Int} :
    clampRate lo hi r = 0 ↔ r = 0 := by
  rcases lt_trichotomy r 0 with hr | hr | hr
  · rw [clampRate_of_neg hr]
    have := @clamp_bounds (-r) lo hi (by omega); omega
  · rw [hr]; simp [clampRate]
  · rw [clampRate_of_pos hr]
    have := @clamp_bounds r lo hi (by omega); omega

theorem toInt_ofInt16 {v : Int} (h : v.natAbs ≤ 32767) : (BitVec.ofInt 16 v).toInt = v := by
  rw [BitVec.toInt_ofInt]
  apply Int.bmod_eq_of_le <;> omega

theorem toInt_ofInt32 {v : Int} (h : v.natAbs ≤ 2147483647) : (BitVec.ofInt 32 v).toInt = v := by
  rw [BitVec.toInt_ofInt]
  apply Int.bmod_eq_of_le <;> omega

/-- `wrap_32` as R12 writes it. -/
theorem wrap32_toInt (v : Int) : (wrap32 v).toInt = (v + 2147483648) % 4294967296 - 2147483648 := by
  unfold wrap32; rw [BitVec.toInt_ofInt]
  unfold Int.bmod; norm_num; split_ifs <;> omega

/-- `wsub` is a `TS_W`-bit value. -/
theorem wsub_lt (w a b : Nat) : wsub w a b < 2 ^ w := by
  unfold wsub
  have h : (0 : Int) < ((2 ^ w : Nat) : Int) := by positivity
  have h1 := Int.emod_lt_of_pos ((a : Int) - b) h
  have h2 := Int.emod_nonneg ((a : Int) - b) (Int.ne_of_gt h)
  omega

/-! ## A well-formed channel configuration -/

/-- What `wfRates` says, in words to reason with. -/
theorem wfRates_facts {cc : ChanCfg} (h : cc.wfRates = true) :
    1 ≤ cc.minRate ∧ cc.minRate ≤ cc.maxRate ∧ cc.maxRate ≤ 32767 ∧ (cc.trackPos = true → cc.kind = .stepper) ∧
      (cc.persist = true → cc.trackPos = true) ∧ (cc.brake = true → cc.kind = .dc) ∧
      (cc.trackPos = true → cc.minRate ≤ cc.moveRate ∧ cc.moveRate ≤ cc.maxRate) ∧ 1 ≤ cc.maxRun ∧
      cc.maxRun ≤ 2147483647 := by
  unfold ChanCfg.wfRates at h
  simp only [Bool.and_eq_true, decide_eq_true_eq, Bool.or_eq_true, Bool.not_eq_true', beq_iff_eq] at h
  obtain ⟨⟨⟨⟨⟨⟨⟨⟨h1, h2⟩, h3⟩, h4⟩, h5⟩, h6⟩, h7⟩, h8⟩, h9⟩ := h
  refine ⟨h1, h2, h3, ?_, ?_, ?_, ?_, h8, h9⟩
  · intro h; rcases h4 with h4 | h4 <;> simp_all
  · intro h; rcases h5 with h5 | h5 <;> simp_all
  · intro h; rcases h6 with h6 | h6 <;> simp_all
  · intro h; rcases h7 with h7 | h7
    · simp_all
    · exact h7

/-! ## The fields each operation writes -/

section SetRate
variable (now : Nat) (r : Int) (m : Bool) (cc : ChanCfg) (x : ChanRegs)
@[simp] theorem setRateRegs_phase : (setRateRegs now r m cc x).phase = x.phase := rfl
@[simp] theorem setRateRegs_pos : (setRateRegs now r m cc x).pos = x.pos := rfl
@[simp] theorem setRateRegs_target : (setRateRegs now r m cc x).target = x.target := rfl
@[simp] theorem setRateRegs_angle : (setRateRegs now r m cc x).angle = x.angle := rfl
@[simp] theorem setRateRegs_brake : (setRateRegs now r m cc x).brake = false := rfl
@[simp] theorem setRateRegs_moving : (setRateRegs now r m cc x).moving = (m && x.moving) := rfl
end SetRate

theorem setRateRegs_rate {now : Nat} {r : Int} {m : Bool} {cc : ChanCfg} {x : ChanRegs}
    (h : cc.wfRates = true) :
    (setRateRegs now r m cc x).rate.toInt = clampRate cc.minRate cc.maxRate r := by
  obtain ⟨-, h2, h3, -⟩ := wfRates_facts h
  refine toInt_ofInt16 ?_
  rcases clampRate_bounds h2 r with h | h <;> omega

theorem setRateRegs_energized {now : Nat} {r : Int} {m : Bool} {cc : ChanCfg} {x : ChanRegs}
    (h : cc.wfRates = true) : (setRateRegs now r m cc x).energized = decide (r ≠ 0) := by
  obtain ⟨h1, h2, -⟩ := wfRates_facts h
  show (clampRate cc.minRate cc.maxRate r != 0) = _
  have := @clampRate_eq_zero _ _ h1 h2 r
  by_cases hr : r = 0 <;> simp_all

theorem setRateRegs_last {now : Nat} {r : Int} {m : Bool} {cc : ChanCfg} {x : ChanRegs}
    (h : cc.wfRates = true) :
    (setRateRegs now r m cc x).last = if r ≠ 0 ∧ x.energized = false then now else x.last := by
  obtain ⟨h1, h2, -⟩ := wfRates_facts h
  show (if (clampRate cc.minRate cc.maxRate r != 0 && !x.energized) = true then now else x.last) = _
  have := @clampRate_eq_zero _ _ h1 h2 r
  by_cases hr : r = 0 <;> simp_all

/-- `setRate(c, 0)` in full: the rate, `energized`, `brake` and `moving` are cleared, the rest stays (R142). -/
theorem setRateRegs_zero (now : Nat) (cc : ChanCfg) (x : ChanRegs) :
    setRateRegs now 0 false cc x = { x with rate := 0#16, energized := false, brake := false, moving := false } := by
  simp [setRateRegs, clampRate, energizedAfter, movingAfter, lastAfter]

theorem boundRun_natAbs_le (n : Nat) (d : Int) : (boundRun n d).natAbs ≤ n := by
  unfold boundRun
  split_ifs with h
  · rcases lt_trichotomy d 0 with hd | hd | hd
    · rw [sgn_of_neg hd]; omega
    · omega
    · rw [sgn_of_pos hd]; omega
  · omega

/-! ## Every channel operation keeps the channel invariants -/

/-- The sign of the 32-bit difference of two positions: that of the integer difference where it is a 32-bit value, the
opposite one where it is not. -/
theorem sgn_sub_toInt (t p : BitVec 32) :
    sgn (t - p).toInt =
      if In32 (t.toInt - p.toInt) then sgn (t.toInt - p.toInt) else -sgn (t.toInt - p.toInt) := by
  have ht := t.toInt_lt; have ht' := t.le_toInt; have hp := p.toInt_lt; have hp' := p.le_toInt
  rw [BitVec.toInt_sub, Int.bmod_def]
  unfold sgn
  split_ifs <;> omega

/-- `moveSound` in words: a moving channel has a rate, and it stands on its target or runs in the direction of the 32-bit
difference of target and position. -/
theorem moveSound_iff {x : ChanRegs} :
    moveSound x = true ↔ (x.moving = true →
      x.rate.toInt ≠ 0 ∧ (x.pos = x.target ∨ sgn x.rate.toInt = sgn (x.target - x.pos).toInt)) := by
  unfold moveSound moveAsWritten
  rw [sgn_sub_toInt]
  by_cases h : In32 (x.target.toInt - x.pos.toInt)
  · simp only [if_pos h, decide_eq_true_eq, or_comm]
  · have hne : x.pos ≠ x.target := by
      intro e; rw [e] at h; exact h (by constructor <;> omega)
    simp only [if_neg h, decide_eq_true_eq, hne, false_or]

/-- Where the integer difference is a 32-bit value, `moveSound` is R54 item 5 word for word. -/
theorem moveSound_asWritten {x : ChanRegs} (h : In32 (x.target.toInt - x.pos.toInt)) :
    moveSound x = moveAsWritten x := if_pos h

/-- `chanSound` in words to reason with. -/
theorem chanSound_iff {w : Nat} {cc : ChanCfg} {x : ChanRegs} :
    chanSound w cc x = true ↔
      (x.rate.toInt = 0 ∨ (cc.minRate ≤ x.rate.toInt.natAbs ∧ x.rate.toInt.natAbs ≤ cc.maxRate)) ∧
      x.phase.toNat < cc.phases ∧ (cc.kind ≠ .servo → (x.energized = true ↔ x.rate.toInt ≠ 0)) ∧
      (x.moving = true →
        x.rate.toInt ≠ 0 ∧ (x.pos = x.target ∨ sgn x.rate.toInt = sgn (x.target - x.pos).toInt)) ∧
      (x.brake = true → cc.brake = true ∧ x.rate.toInt = 0) ∧ x.last < 2 ^ w := by
  unfold chanSound
  simp only [Bool.and_eq_true, decide_eq_true_eq, moveSound_iff]
  tauto

theorem setRateRegs_sound {w now : Nat} {r : Int} {cc : ChanCfg} {x : ChanRegs} (hcc : cc.wfRates = true)
    (hnow : now < 2 ^ w) (h : chanSound w cc x = true) :
    chanSound w cc (setRateRegs now r false cc x) = true := by
  rw [chanSound_iff] at h ⊢
  obtain ⟨h1, h2, -⟩ := wfRates_facts hcc
  refine ⟨?_, h.2.1, fun _ => ?_, ?_, ?_, ?_⟩
  · rw [setRateRegs_rate hcc]; exact clampRate_bounds h2 r
  · rw [setRateRegs_rate hcc, setRateRegs_energized hcc]
    simp [clampRate_eq_zero h1 h2]
  · simp
  · simp
  · rw [setRateRegs_last hcc]; split
    · exact hnow
    · exact h.2.2.2.2.2

theorem servoStopRegs_sound {w : Nat} {cc : ChanCfg} {x : ChanRegs} (hk : cc.kind = .servo)
    (h : chanSound w cc x = true) : chanSound w cc (servoStopRegs cc x) = true := by
  rw [chanSound_iff] at h ⊢
  unfold servoStopRegs
  cases cc.servoStop <;> simpa [hk] using h

theorem stopRegs_sound {w now : Nat} {cc : ChanCfg} {x : ChanRegs} (hcc : cc.wfRates = true)
    (hnow : now < 2 ^ w) (h : chanSound w cc x = true) : chanSound w cc (stopRegs now cc x) = true := by
  unfold stopRegs
  cases hk : cc.kind with
  | stepper => exact setRateRegs_sound hcc hnow h
  | servo => exact servoStopRegs_sound hk h
  | dc =>
    have h' := setRateRegs_sound (r := 0) hcc hnow h
    rw [chanSound_iff] at h' ⊢
    refine ⟨h'.1, h'.2.1, h'.2.2.1, h'.2.2.2.1, ?_, h'.2.2.2.2.2⟩
    show (if brakeAfterStop cc = true then true else (setRateRegs now 0 false cc x).brake) = true → _
    cases hb : cc.brake <;> simp [brakeAfterStop, hb, setRateRegs_zero]

theorem servoSetTargetRegs_sound {w : Nat} {v : Int} {cc : ChanCfg} {x : ChanRegs} (hk : cc.kind = .servo)
    (h : chanSound w cc x = true) : chanSound w cc (servoSetTargetRegs v x) = true := by
  rw [chanSound_iff] at h ⊢
  simpa [hk, servoSetTargetRegs] using h

/-- The steps a started move has still to make, as a register value. -/
theorem move_distance (p : BitVec 32) (d : Int) : wrap32 (p.toInt + d) - p = BitVec.ofInt 32 d := by
  unfold wrap32
  rw [BitVec.ofInt_add, BitVec.ofInt_toInt, add_comm, BitVec.add_sub_cancel]

theorem startMoveRegs_sound {w now : Nat} {d : Int} {cc : ChanCfg} {x : ChanRegs} (hcc : cc.wfRates = true)
    (ht : cc.trackPos = true) (hnow : now < 2 ^ w) (h : chanSound w cc x = true) :
    chanSound w cc (startMoveRegs now d cc x) = true := by
  obtain ⟨h1, h2, h3, h4, h5, h6, h7, h8, h9⟩ := wfRates_facts hcc
  obtain ⟨h7a, h7b⟩ := h7 ht
  unfold startMoveRegs
  split_ifs with hd
  · exact setRateRegs_sound hcc hnow h
  · set b := boundRun cc.maxRun d with hb
    have hbn : b.natAbs ≤ 2147483647 := le_trans (boundRun_natAbs_le _ _) h9
    rw [chanSound_iff] at h ⊢
    have hne : sgn b * (cc.moveRate : Int) ≠ 0 := by
      rcases lt_trichotomy b 0 with hs | hs | hs
      · rw [sgn_of_neg hs]; omega
      · exact absurd hs hd
      · rw [sgn_of_pos hs]; omega
    have hr : (setRateRegs now (sgn b * (cc.moveRate : Int)) true cc
        { x with target := wrap32 (x.pos.toInt + b) }).rate.toInt =
        clampRate cc.minRate cc.maxRate (sgn b * (cc.moveRate : Int)) := setRateRegs_rate hcc
    refine ⟨?_, h.2.1, fun _ => ?_, fun _ => ?_, ?_, ?_⟩
    · rw [show _ = _ from hr]; exact clampRate_bounds h2 _
    · rw [show _ = _ from hr]
      have he : (setRateRegs now (sgn b * (cc.moveRate : Int)) true cc
        { x with target := wrap32 (x.pos.toInt + b) }).energized = _ := setRateRegs_energized hcc
      rw [show _ = _ from he]
      simp [clampRate_eq_zero h1 h2]
    · rw [show _ = _ from hr]
      refine ⟨by rw [Ne, clampRate_eq_zero h1 h2]; exact hne, Or.inr ?_⟩
      show _ = sgn (wrap32 (x.pos.toInt + b) - x.pos).toInt
      rw [move_distance, toInt_ofInt32 hbn]
      rcases lt_trichotomy b 0 with hs | hs | hs
      · rw [sgn_of_neg hs, clampRate_of_neg (by omega)]
        have := @clamp_bounds (-(-1 * (cc.moveRate : Int))) cc.minRate cc.maxRate (by omega)
        rw [sgn_of_neg (by omega)]
      · exact absurd hs hd
      · rw [sgn_of_pos hs, clampRate_of_pos (by omega)]
        have := @clamp_bounds (1 * (cc.moveRate : Int)) cc.minRate cc.maxRate (by omega)
        rw [sgn_of_pos (by omega)]
    · simp
    · have hl : (setRateRegs now (sgn b * (cc.moveRate : Int)) true cc
        { x with target := wrap32 (x.pos.toInt + b) }).last = _ := setRateRegs_last hcc
      rw [show _ = _ from hl]
      split
      · exact hnow
      · exact h.2.2.2.2.2

theorem phases_le (cc : ChanCfg) : 1 ≤ cc.phases ∧ cc.phases ≤ 8 := by
  unfold ChanCfg.phases; cases cc.table <;> simp [Table.phases]

/-- The phase after an advance, as a number (R150). -/
theorem advanceRegs_phase (now : Nat) (cc : ChanCfg) (x : ChanRegs) :
    ((advanceRegs now cc x).phase.toNat : Int) = ((x.phase.toNat : Int) + sgn x.rate.toInt) % (cc.phases : Int) := by
  obtain ⟨h1, h8⟩ := phases_le cc
  have h0 := Int.emod_nonneg ((x.phase.toNat : Int) + sgn x.rate.toInt) (b := (cc.phases : Int)) (by omega)
  have h1 := Int.emod_lt_of_pos ((x.phase.toNat : Int) + sgn x.rate.toInt) (b := (cc.phases : Int)) (by omega)
  show ((BitVec.ofInt 3 _).toNat : Int) = _
  rw [BitVec.toNat_ofInt]
  omega

theorem advanceRegs_sound {w now : Nat} {cc : ChanCfg} {x : ChanRegs} (hnow : now < 2 ^ w)
    (hm : ¬ (x.moving = true ∧ x.pos = x.target)) (ht : x.moving = true → cc.trackPos = true)
    (h : chanSound w cc x = true) : chanSound w cc (advanceRegs now cc x) = true := by
  obtain ⟨p1, p8⟩ := phases_le cc
  rw [chanSound_iff] at h ⊢
  obtain ⟨h1, h2, h3, h4, h5, h6⟩ := h
  refine ⟨h1, ?_, h3, fun hmv => ?_, h5, hnow⟩
  · have := advanceRegs_phase now cc x
    have := Int.emod_lt_of_pos ((x.phase.toNat : Int) + sgn x.rate.toInt) (b := (cc.phases : Int)) (by omega)
    omega
  · have hmv' : x.moving = true := hmv
    obtain ⟨hr, hd⟩ := h4 hmv'
    refine ⟨hr, ?_⟩
    have hne : x.pos ≠ x.target := fun he => hm ⟨hmv', he⟩
    have hs := hd.resolve_left hne
    show (if cc.trackPos = true then wrap32 (x.pos.toInt + sgn x.rate.toInt) else x.pos) = x.target ∨
      sgn x.rate.toInt =
        sgn (x.target - (if cc.trackPos = true then wrap32 (x.pos.toInt + sgn x.rate.toInt) else x.pos)).toInt
    rw [if_pos (ht hmv')]
    have hpos : wrap32 (x.pos.toInt + sgn x.rate.toInt) = x.pos + BitVec.ofInt 32 (sgn x.rate.toInt) := by
      unfold wrap32; rw [BitVec.ofInt_add, BitVec.ofInt_toInt]
    rw [hpos]
    have hdist : x.target - (x.pos + BitVec.ofInt 32 (sgn x.rate.toInt)) =
        BitVec.ofInt 32 ((x.target - x.pos).toInt - sgn x.rate.toInt) := by
      rw [Int.sub_eq_add_neg, BitVec.ofInt_add, BitVec.ofInt_toInt, BitVec.ofInt_neg]
      generalize BitVec.ofInt 32 (sgn x.rate.toInt) = e
      rw [← BitVec.sub_eq_add_neg, sub_add_eq_sub_sub]
    rw [hdist]
    have hlo := BitVec.le_toInt (x.target - x.pos)
    have hhi := BitVec.toInt_lt (x := x.target - x.pos)
    have hz : (x.target - x.pos).toInt ≠ 0 := by
      intro hz
      apply hne
      have : x.target - x.pos = 0#32 := by apply BitVec.eq_of_toInt_eq; simpa using hz
      have := BitVec.sub_eq_iff_eq_add.mp this
      simpa using this.symm
    set q := (x.target - x.pos).toInt with hq
    norm_num at hlo hhi
    rcases lt_or_gt_of_ne hz with hq0 | hq0
    · rw [sgn_of_neg hq0] at hs
      rw [hs, toInt_ofInt32 (by omega)]
      by_cases h1 : q = -1
      · left
        have : x.target - x.pos = BitVec.ofInt 32 (-1) := by
          apply BitVec.eq_of_toInt_eq; rw [← hq, h1]; rfl
        rw [BitVec.sub_eq_iff_eq_add] at this
        rw [this, add_comm]
      · right; rw [sgn_of_neg (by omega)]
    · rw [sgn_of_pos hq0] at hs
      rw [hs, toInt_ofInt32 (by omega)]
      by_cases h1 : q = 1
      · left
        have : x.target - x.pos = BitVec.ofInt 32 1 := by
          apply BitVec.eq_of_toInt_eq; rw [← hq, h1]; rfl
        rw [BitVec.sub_eq_iff_eq_add] at this
        rw [this, add_comm]
      · right; rw [sgn_of_pos (by omega)]

theorem tickRegs_sound {tu w now : Nat} {cc : ChanCfg} {x : ChanRegs} (hcc : cc.wfRates = true)
    (hnow : now < 2 ^ w) (ht : x.moving = true → cc.trackPos = true) (h : chanSound w cc x = true) :
    chanSound w cc (tickRegs tu w now cc x) = true := by
  unfold tickRegs
  split_ifs with h1 h2 h3 h4
  · exact h
  · exact h
  · exact h
  · exact setRateRegs_sound hcc hnow h
  · exact advanceRegs_sound hnow h4 ht h

/-- Dropping the writes to hardwired fields keeps the invariants. -/
theorem maskChan_sound {w : Nat} {cc : ChanCfg} {x : ChanRegs} (hcc : cc.wfRates = true)
    (h : chanSound w cc x = true) : chanSound w cc (maskChan cc x) = true := by
  obtain ⟨p1, p8⟩ := phases_le cc
  obtain ⟨-, -, -, hk, -, hb, -⟩ := wfRates_facts hcc
  have hw : 0 < 2 ^ w := by positivity
  rw [chanSound_iff] at h ⊢
  obtain ⟨h1, h2, h3, h4, h5, h6⟩ := h
  refine ⟨?_, ?_, ?_, ?_, ?_, ?_⟩
  · simp only [maskChan]; split
    · left; rfl
    · exact h1
  · simp only [maskChan]; split
    · exact h2
    · simp; omega
  · intro hs; simp only [maskChan, if_neg hs]; exact h3 hs
  · simp only [maskChan]
    split
    · rename_i ht
      have hks := hk ht
      simp only [hks, reduceCtorEq, if_false]
      exact h4
    · simp
  · simp only [maskChan]
    split
    · rename_i hd
      simp only [hd, reduceCtorEq, if_false]
      exact h5
    · simp
  · simp only [maskChan]; split
    · exact h6
    · exact hw

end Sys2Proof.Machine
end

