-- ==== Sys2Proof/Laws/Safety.lean ====
section
/-! SUPPORT. `Sound` in words to reason with, and what a well-formed configuration says. -/

namespace Sys2Proof.Machine

theorem allChansFrom_iff (p : ChanCfg → ChanRegs → Bool) (s : State) (n : Nat) (l : List ChanCfg) :
    allChansFrom p s n l = true ↔ ∀ c cc, l[c]? = some cc → p cc (s.chan (n + c)) = true := by
  induction l generalizing n with
  | nil => simp [allChansFrom]
  | cons d l ih =>
    simp only [allChansFrom, Bool.and_eq_true, ih]
    constructor
    · rintro ⟨h0, h⟩ c cc hc
      cases c with
      | zero => simp only [List.getElem?_cons_zero, Option.some.injEq] at hc; subst hc; exact h0
      | succ c =>
        rw [List.getElem?_cons_succ] at hc
        have := h c cc hc
        rwa [show n + 1 + c = n + (c + 1) by omega] at this
    · intro h
      refine ⟨by simpa using h 0 d, fun c cc hc => ?_⟩
      have := h (c + 1) cc (by simpa using hc)
      rwa [show n + (c + 1) = n + 1 + c by omega] at this

/-- A property of every channel, channel by channel. -/
theorem allChans_iff {p : ChanCfg → ChanRegs → Bool} {s : State} :
    allChans p s = true ↔ ∀ c cc, s.cfg.chans[c]? = some cc → p cc (s.chan c) = true := by
  unfold allChans; rw [allChansFrom_iff]; simp

theorem standsStill_iff {cc : ChanCfg} {x : ChanRegs} :
    standsStill cc x = true ↔ (cc.kind ≠ .servo → x.rate.toInt = 0) := by
  unfold standsStill
  by_cases h : cc.kind = .servo <;> simp [h]

/-- `Sound` as a list of facts. -/
structure SoundFacts (s : State) : Prop where
  wf : s.cfg.wf = true
  banks : s.ch.length = s.cfg.nch
  chans : ∀ c cc, s.cfg.chans[c]? = some cc → chanSound s.cfg.tsW cc (s.chan c) = true
  cursor : s.ps.cursor.toNat ≤ s.cfg.cap
  buf : s.ps.buf.wf = true
  bufBelow : s.ps.buf.all (fun e => decide (e.1 < s.cfg.cap)) = true
  forcedArmed : s.wd.forced = true → s.wd.armed = true
  forcedStill : s.wd.forced = true →
    ∀ c cc, s.cfg.chans[c]? = some cc → cc.kind ≠ .servo → (s.chan c).rate.toInt = 0
  lastValid : s.wd.lastValid < 2 ^ s.cfg.tsW
  preset : s.sq.presetIdx.toNat < s.cfg.npreset
  now : s.sq.now < 2 ^ s.cfg.tsW
  dig : s.out.dig.length = s.cfg.ndig
  lvl : s.out.lvl.length = s.cfg.nlvl
  rx : s.port.rx.length ≤ s.cfg.rxDepth

theorem sound_iff {s : State} : Sound s ↔ SoundFacts s := by
  unfold Sound soundCheck
  simp only [Bool.and_eq_true, Bool.or_eq_true, Bool.not_eq_true', decide_eq_true_eq, allChans_iff,
    standsStill_iff]
  constructor
  · rintro ⟨⟨⟨⟨⟨⟨⟨⟨⟨⟨⟨⟨h1, h2⟩, h3⟩, h4⟩, h5⟩, h6⟩, h7⟩, h8⟩, h9⟩, h10⟩, h11⟩, h12⟩, h13⟩
    refine ⟨h1, h2, h3, h4, h5, h6, ?_, ?_, h8, h9, h10, h11, h12, h13⟩
    · intro h; rcases h7 with h7 | h7
      · rw [h] at h7; cases h7
      · exact h7.1
    · intro h; rcases h7 with h7 | h7
      · rw [h] at h7; cases h7
      · exact h7.2
  · rintro ⟨h1, h2, h3, h4, h5, h6, ha, hs, h8, h9, h10, h11, h12, h13⟩
    refine ⟨⟨⟨⟨⟨⟨⟨⟨⟨⟨⟨⟨h1, h2⟩, h3⟩, h4⟩, h5⟩, h6⟩, ?_⟩, h8⟩, h9⟩, h10⟩, h11⟩, h12⟩, h13⟩
    by_cases h : s.wd.forced = true
    · exact Or.inr ⟨ha h, hs h⟩
    · exact Or.inl (by simpa using h)

/-- Every channel of a well-formed configuration meets `wfRates`. -/
theorem wf_wfRates {cfg : Config} (h : cfg.wf = true) {c : Nat} {cc : ChanCfg} (hc : cfg.chans[c]? = some cc) :
    cc.wfRates = true := by
  unfold Config.wf at h
  simp only [Bool.and_eq_true, List.all_eq_true] at h
  exact h.1.1.1.1.2 cc (List.mem_of_getElem? hc)

/-- What a well-formed configuration says of the scalars (R8's ranges, R9 items 1 and 6). -/
structure ScalarFacts (cfg : Config) : Prop where
  nch : 1 ≤ cfg.nch ∧ cfg.nch ≤ 15
  timeUnit : 1 ≤ cfg.timeUnit ∧ cfg.timeUnit ≤ 4294967295
  tsW : 8 ≤ cfg.tsW ∧ cfg.tsW ≤ 64
  timeout : cfg.timeout + 2 ≤ 2 ^ cfg.tsW
  npreset : 1 ≤ cfg.npreset ∧ cfg.npreset ≤ 9
  presets : ∀ p ∈ cfg.presets, 1 ≤ p ∧ p ≤ 32767
  jogSteps : 1 ≤ cfg.jogSteps ∧ cfg.jogSteps ≤ 2147483647
  cap : 1 ≤ cfg.cap ∧ cfg.cap ≤ 255
  fieldSat : 1 ≤ cfg.fieldSat ∧ cfg.fieldSat ≤ 2147483647
  rxDepth : 1 ≤ cfg.rxDepth

theorem wf_scalars {cfg : Config} (h : cfg.wf = true) : ScalarFacts cfg := by
  unfold Config.wf at h
  simp only [Bool.and_eq_true] at h
  have hs := h.1.1.1.1.1
  unfold Config.wfScalars at hs
  simp only [Bool.and_eq_true, decide_eq_true_eq, List.all_eq_true] at hs
  obtain ⟨⟨⟨⟨⟨⟨⟨⟨⟨⟨⟨⟨⟨⟨⟨⟨⟨⟨⟨h1, h2⟩, h3⟩, h4⟩, h5⟩, h6⟩, h7⟩, h8⟩, h9⟩, hp⟩, h10⟩, h11⟩, h12⟩, h13⟩, h14⟩, h15⟩,
    -⟩, -⟩, h16⟩, -⟩ := hs
  exact ⟨⟨h1, h2⟩, ⟨h3, h4⟩, ⟨h5, h6⟩, h7, ⟨h8, h9⟩, hp, ⟨h10, h11⟩, ⟨h12, h13⟩, ⟨h14, h15⟩, h16⟩

/-- A channel index of a well-formed configuration fits the channel field and is not 0xF. -/
theorem wf_chan_le {cfg : Config} (h : cfg.wf = true) {c : Nat} {cc : ChanCfg} (hc : cfg.chans[c]? = some cc) :
    c ≤ 14 := by
  have hlt := (List.getElem?_eq_some_iff.mp hc).1
  have := (wf_scalars h).nch.2
  unfold Config.nch at this
  omega

/-- The frame bytes of a well-formed configuration are distinct (R9 item 7). -/
theorem wf_bytes {cfg : Config} (h : cfg.wf = true) :
    cfg.startB ≠ cfg.endB ∧ cfg.startB ≠ cfg.sepB ∧ cfg.endB ≠ cfg.sepB ∧
      ∀ b ∈ [cfg.startB, cfg.endB, cfg.sepB], isDigit b = false ∧ isSign b = false := by
  unfold Config.wf at h
  simp only [Bool.and_eq_true] at h
  have hs := h.1.1.2
  unfold Config.wfBytes at hs
  simp only [Bool.and_eq_true, bne_iff_ne, ne_eq, List.all_eq_true, Bool.not_eq_true'] at hs
  exact ⟨hs.1.1.1, hs.1.1.2, hs.1.2, hs.2⟩

/-- The configurations that pass without R9 item 8 are in `CHAR` mode. -/
theorem isReferenceRun_char {cfg : Config} (h : cfg.isReferenceRun = true) : cfg.protocol = .char := by
  unfold Config.isReferenceRun at h
  simp only [Bool.or_eq_true, beq_iff_eq, List.contains_iff_mem, List.mem_cons, List.not_mem_nil, or_false] at h
  rcases h with h | rfl | rfl | rfl
  · exact congrArg Config.protocol h
  all_goals rfl

/-- In `FRAME` mode both fields of a well-formed configuration meet R9 item 8. -/
theorem wf_fields {cfg : Config} (h : cfg.wf = true) (hp : cfg.protocol = .frame) :
    cfg.field0.wf cfg.chans = true ∧ cfg.field1.wf cfg.chans = true := by
  unfold Config.wf at h
  simp only [Bool.and_eq_true] at h
  have hs := h.1.2
  unfold Config.wfFields at hs
  simp only [Bool.or_eq_true, Bool.and_eq_true] at hs
  refine hs.resolve_right fun hr => ?_
  rw [isReferenceRun_char hr] at hp
  cases hp

/-- A frame field of a well-formed configuration in `FRAME` mode addresses a channel that exists (R9 item 8). -/
theorem wf_field_chan {cfg : Config} (h : cfg.wf = true) (hp : cfg.protocol = .frame) {ff : FrameField}
    (hf : ff = cfg.field0 ∨ ff = cfg.field1) : ff.ch ≤ 14 ∧ ff.min ≤ ff.max := by
  have hff : ff.wf cfg.chans = true := by rcases hf with rfl | rfl; exacts [(wf_fields h hp).1, (wf_fields h hp).2]
  unfold FrameField.wf at hff
  simp only [Bool.and_eq_true, decide_eq_true_eq] at hff
  refine ⟨?_, hff.1⟩
  cases hc : cfg.chans[ff.ch]? with
  | none => simp [hc] at hff
  | some cc => exact wf_chan_le h hc

end Sys2Proof.Machine
end

