-- ==== Sys2Proof/Laws/Sound.lean ====
section
/-! SUPPORT. Every shared operation keeps the register invariants `Sound`. -/

namespace Sys2Proof.Machine

/-- Emitting an event keeps `Sound`. -/
theorem emit_sound {s : State} (e) (h : SoundFacts s) : SoundFacts (emit e s) :=
  ⟨h.1, h.2, h.3, h.4, h.5, h.6, h.7, h.8, h.9, h.10, h.11, h.12, h.13, h.14⟩

/-- A save request keeps `Sound`. -/
theorem save_sound {s : State} (c p) (h : SoundFacts s) : SoundFacts (save c p s) :=
  ⟨h.1, h.2, h.3, h.4, h.5, h.6, h.7, h.8, h.9, h.10, h.11, h.12, h.13, h.14⟩

/-- The watchdog refresh keeps `Sound`. -/
theorem wdRefresh_sound {s : State} (h : SoundFacts s) : SoundFacts (wdRefresh s) :=
  ⟨h.1, h.2, h.3, h.4, h.5, h.6, fun _ => rfl, fun hh => (by cases hh), h.11, h.10, h.11, h.12, h.13, h.14⟩

/-- Closing the frame keeps `Sound`. -/
theorem closeFrame_sound {s : State} (h : SoundFacts s) : SoundFacts (closeFrame s) :=
  ⟨h.1, h.2, h.3, Nat.zero_le _, h.5, h.6, h.7, h.8, h.9, h.10, h.11, h.12, h.13, h.14⟩

/-- Opening a frame keeps `Sound`. -/
theorem openFrame_sound {s : State} (h : SoundFacts s) : SoundFacts (openFrame s) :=
  ⟨h.1, h.2, h.3, Nat.zero_le _, h.5, h.6, h.7, h.8, h.9, h.10, h.11, h.12, h.13, h.14⟩

/-- Moving to a stage keeps `Sound`. -/
theorem setStage_sound {s : State} (g) (h : SoundFacts s) : SoundFacts (setStage g s) :=
  ⟨h.1, h.2, h.3, h.4, h.5, h.6, h.7, h.8, h.9, h.10, h.11, h.12, h.13, h.14⟩

/-- Sampling the timestamp keeps `Sound`. -/
theorem stageSample_sound {s : State} (t) (h : SoundFacts s) : SoundFacts (stageSample t s) :=
  ⟨h.1, h.2, h.3, h.4, h.5, h.6, h.7, h.8, h.9, h.10, Nat.mod_lt _ (by positivity), h.12, h.13, h.14⟩

/-- A FIFO no longer than its depth keeps `Sound`. -/
theorem setRx_sound {s : State} {bs} (h : SoundFacts s) (hb : bs.length ≤ s.cfg.rxDepth) :
    SoundFacts (setRx bs s) :=
  ⟨h.1, h.2, h.3, h.4, h.5, h.6, h.7, h.8, h.9, h.10, h.11, h.12, h.13, hb⟩

/-- New ports with a FIFO no longer than its depth keep `Sound`. -/
theorem withPort_sound {s : State} {p : Ports} (h : SoundFacts s) (hp : p.rx.length ≤ s.cfg.rxDepth) :
    SoundFacts { s with port := p } :=
  ⟨h.1, h.2, h.3, h.4, h.5, h.6, h.7, h.8, h.9, h.10, h.11, h.12, h.13, hp⟩

/-- Writing one channel keeps `Sound` if the new bank is sound and, while the watchdog has tripped, stands still. -/
theorem updChan_sound {s : State} (c : Nat) (f : ChanCfg → ChanRegs → ChanRegs) (h : SoundFacts s)
    (hf : ∀ cc, s.cfg.chans[c]? = some cc → chanSound s.cfg.tsW cc (f cc (s.chan c)) = true)
    (hw : s.wd.forced = true → ∀ cc, s.cfg.chans[c]? = some cc → cc.kind ≠ .servo →
        (f cc (s.chan c)).rate.toInt = 0) :
    SoundFacts (updChan c f s) := by
  have hc : ∀ d cc, (updChan c f s).cfg.chans[d]? = some cc →
      (updChan c f s).chan d = s.chan d ∨
        (d = c ∧ (updChan c f s).chan d = maskChan cc (f cc (s.chan c))) := by
    intro d cc hd
    simp only [updChan_cfg] at hd
    by_cases hdc : d = c
    · subst hdc; right; exact ⟨rfl, chan_updChan_self h.banks hd⟩
    · left; exact chan_updChan_other hdc
  refine ⟨by simpa using h.1, by simpa using h.2, ?_, by simpa using h.4, by simpa using h.5, by simpa using h.6,
      by simpa using h.7, ?_, by simpa using h.9, by simpa using h.10, by simpa using h.11, by simpa using h.12,
      by simpa using h.13, by simpa using h.14⟩
  · intro d cc hd
    rcases hc d cc hd with e | ⟨rfl, e⟩ <;> rw [e] <;> simp only [updChan_cfg] at hd ⊢
    · exact h.3 d cc hd
    · exact maskChan_sound (wf_wfRates h.1 hd) (hf cc hd)
  · intro hfo d cc hd hk
    simp only [updChan_wd] at hfo
    rcases hc d cc hd with e | ⟨rfl, e⟩ <;> rw [e] <;> simp only [updChan_cfg] at hd
    · exact h.8 hfo d cc hd hk
    · simp only [maskChan, if_neg hk]; exact hw hfo cc hd hk

/-- Writing channels one after another keeps `Sound` if each write does. -/
theorem foldl_updChan_sound {s : State} (f : State → ChanCfg → ChanRegs → ChanRegs) (l : List Nat)
    (h : SoundFacts s)
    (hf : ∀ u : State, SoundFacts u → u.cfg = s.cfg → u.sq = s.sq → u.wd = s.wd →
      ∀ c, SoundFacts (updChan c (f u) u)) :
    SoundFacts (l.foldl (fun u c => updChan c (f u) u) s) := by
  induction l generalizing s with
  | nil => exact h
  | cons c l ih =>
    rw [List.foldl_cons]
    refine ih (hf s h rfl rfl rfl c) ?_
    intro u hu h1 h2 h3
    exact hf u hu (by simpa using h1) (by simpa using h2) (by simpa using h3)

/-- A stopped channel has rate 0. -/
theorem stopRegs_rate (now cc x) (hk : cc.kind ≠ .servo) : (stopRegs now cc x).rate.toInt = 0 := by
  unfold stopRegs; split
  · rw [setRateRegs_zero]; rfl
  · rw [setRateRegs_zero]; rfl
  · simp_all

/-- `stop` of one channel keeps `Sound`. -/
theorem stopChan_sound {s : State} (c : Nat) (h : SoundFacts s) : SoundFacts (stopChan c s) :=
  updChan_sound c _ h (fun cc hc => stopRegs_sound (wf_wfRates h.1 hc) h.11 (h.3 c cc hc))
      (fun _ _ _ hk => stopRegs_rate _ _ _ hk)

/-- `stop` of every channel keeps `Sound`. -/
theorem stopEvery_sound {s : State} (h : SoundFacts s) : SoundFacts (stopEvery s) :=
  foldl_updChan_sound (fun u => stopRegs u.sq.now) _ h (fun _ hu _ _ _ c => stopChan_sound c hu)

/-- A channel in a move tracks its position. -/
theorem moving_tracks {s : State} {c cc} (hc : s.cfg.chans[c]? = some cc)
    (h : (s.chan c).moving = true) : cc.trackPos = true := by
  by_contra hn
  rw [← maskChan_chan hc] at h
  simp [maskChan, hn] at h

/-- A channel at rate 0 is not ticked. -/
theorem tickRegs_of_rate_zero (tu w now cc x) (h : x.rate.toInt = 0) : tickRegs tu w now cc x = x := by
  unfold tickRegs; split_ifs <;> rfl

/-- The tick stage keeps `Sound`. -/
theorem stageTick_sound {s : State} (h : SoundFacts s) : SoundFacts (stageTick s) := by
  refine foldl_updChan_sound (fun u => tickRegs u.cfg.timeUnit u.cfg.tsW u.sq.now) _ (setStage_sound .tick h)
      (fun u hu _ _ _ c => ?_)
  refine updChan_sound c _ hu (fun cc hc => tickRegs_sound (wf_wfRates hu.1 hc) hu.11 (moving_tracks hc)
      (hu.3 c cc hc)) (fun hf cc hc hk => ?_)
  have := hu.8 hf c cc hc hk
  rw [tickRegs_of_rate_zero _ _ _ _ _ this]; exact this

/-- The watchdog check keeps `Sound`. -/
theorem wdCheck_sound {s : State} (hs : SoundFacts s) : SoundFacts (wdCheck s) := by
  unfold wdCheck; split_ifs with h
  · unfold wdDue at h; simp at h
    refine emit_sound _ ?_
    set u : State := { s with wd := { s.wd with forced := true } } with hu
    obtain ⟨f1, f2, f3, f4, f5, f6, f7⟩ := stopEvery_fields u
    have hch : ∀ c cc, s.cfg.chans[c]? = some cc →
        (stopEvery u).chan c = maskChan cc (stopRegs s.sq.now cc (s.chan c)) :=
      fun c cc hc => stopEvery_chan (s := u) hs.banks hc
    exact
      { wf := by rw [f1]; exact hs.wf
        banks := by rw [f7, f1]; exact hs.banks
        chans := fun c cc hc => by
          rw [f1] at hc ⊢
          rw [hch c cc hc]
          exact maskChan_sound (wf_wfRates hs.wf hc)
            (stopRegs_sound (wf_wfRates hs.wf hc) hs.now (hs.chans c cc hc))
        cursor := by rw [f1, f2]; exact hs.cursor
        buf := by rw [f2]; exact hs.buf
        bufBelow := by rw [f1, f2]; exact hs.bufBelow
        forcedArmed := by rw [f3]; exact fun _ => h.1.1
        forcedStill := fun _ c cc hc hk => by
          rw [f1] at hc
          rw [hch c cc hc]
          simp only [maskChan, if_neg hk]
          exact stopRegs_rate _ _ _ hk
        lastValid := by rw [f1, f3]; exact hs.lastValid
        preset := by rw [f1, f4]; exact hs.preset
        now := by rw [f1, f4]; exact hs.now
        dig := by rw [f1, f5]; exact hs.dig
        lvl := by rw [f1, f5]; exact hs.lvl
        rx := by rw [f1, f6]; exact hs.rx }
  · exact hs

end Sys2Proof.Machine
end

