-- ==== Sys2Proof/Laws/Words.lean ====
section
/-! SUPPORT. The 40-bit words: a word and its three fields are the same thing, and what the directive decoder reads from a
word built of fields. -/

namespace Sys2Proof

open Sys2Proof.Machine

/-- A word as a number, from its fields (R97). -/
theorem mkWord_toNat (k c : BitVec 4) (a : Arg32) :
    (mkWord k c a).toNat = k.toNat * 2 ^ 36 + c.toNat * 2 ^ 32 + a.toNat := by
  have h1 : (mkWord k c a).toNat = ((k.toNat <<< 4 ||| c.toNat) <<< 32 ||| a.toNat) := by
    unfold mkWord
    exact (BitVec.toNat_append (k ++ c) a).trans (by rw [BitVec.toNat_append])
  rw [h1, ← Nat.shiftLeft_add_eq_or_of_lt c.isLt, ← Nat.shiftLeft_add_eq_or_of_lt a.isLt]
  simp only [Nat.shiftLeft_eq]; ring

theorem wordKind_toNat (w : Word40) : (wordKind w).toNat = w.toNat / 2 ^ 36 := by
  have := w.isLt
  unfold wordKind; rw [BitVec.extractLsb'_toNat, Nat.shiftRight_eq_div_pow]; omega
theorem wordCh_toNat (w : Word40) : (wordCh w).toNat = w.toNat / 2 ^ 32 % 16 := by
  unfold wordCh; rw [BitVec.extractLsb'_toNat, Nat.shiftRight_eq_div_pow]
theorem wordArg_toNat (w : Word40) : (wordArg w).toNat = w.toNat % 2 ^ 32 := by
  unfold wordArg; rw [BitVec.extractLsb'_toNat, Nat.shiftRight_eq_div_pow]; simp

@[simp] theorem wordKind_mkWord (k c : BitVec 4) (a : Arg32) : wordKind (mkWord k c a) = k := by
  apply BitVec.eq_of_toNat_eq; rw [wordKind_toNat, mkWord_toNat]
  have := k.isLt; have := c.isLt; have := a.isLt; omega
@[simp] theorem wordCh_mkWord (k c : BitVec 4) (a : Arg32) : wordCh (mkWord k c a) = c := by
  apply BitVec.eq_of_toNat_eq; rw [wordCh_toNat, mkWord_toNat]
  have := k.isLt; have := c.isLt; have := a.isLt; omega
@[simp] theorem wordArg_mkWord (k c : BitVec 4) (a : Arg32) : wordArg (mkWord k c a) = a := by
  apply BitVec.eq_of_toNat_eq; rw [wordArg_toNat, mkWord_toNat]
  have := k.isLt; have := c.isLt; have := a.isLt; omega
/-- A word is its three fields. -/
theorem mkWord_fields (w : Word40) : mkWord (wordKind w) (wordCh w) (wordArg w) = w := by
  apply BitVec.eq_of_toNat_eq; rw [mkWord_toNat, wordKind_toNat, wordCh_toNat, wordArg_toNat]
  have := w.isLt; omega

/-- What the decoder reads from a word built of fields. -/
theorem decodeDir_mkWord (n : Nat) (k c : BitVec 4) (a : Arg32) :
    decodeDir n (mkWord k c a) =
      match dirOfFields k c a with
      | .error e => .error e
      | .ok i => if dirFieldsWf n k c a then .ok i else .error .illFormedDirective := by
  unfold decodeDir; rw [wordKind_mkWord, wordCh_mkWord, wordArg_mkWord] <;> rfl

/-- Well-formed fields decode (R99, R100). -/
theorem decodeDir_of_wf {n : Nat} {k c : BitVec 4} {a : Arg32} (h : dirFieldsWf n k c a = true) :
    ∃ i, dirOfFields k c a = .ok i ∧ decodeDir n (mkWord k c a) = .ok i := by
  rw [decodeDir_mkWord]
  cases hd : dirOfFields k c a with
  | ok i => exact ⟨i, rfl, by simp [h]⟩
  | error e =>
    unfold dirOfFields at hd
    unfold dirFieldsWf at h
    split at hd <;> simp_all

/-- A well-formed template stands for a directive word that decodes, whichever preset rate its `±P` takes (R96, R211). -/
theorem template_decodes {presets : List Nat} {t : Template} {p : Nat} (h : t.wf presets = true) (hp : p ∈ presets) :
    ∃ a i, instantiate (some p) t = some (mkWord t.kind t.ch a) ∧ dirOfFields t.kind t.ch a = .ok i ∧
      decodeDir presets.length (mkWord t.kind t.ch a) = .ok i := by
  unfold Template.wf at h
  rw [Bool.and_eq_true] at h
  obtain ⟨-, h⟩ := h
  have word : ∀ a, dirFieldsWf presets.length t.kind t.ch a = true →
      ∃ i, dirOfFields t.kind t.ch a = .ok i ∧ decodeDir presets.length (mkWord t.kind t.ch a) = .ok i :=
    fun a ha => decodeDir_of_wf ha
  unfold instantiate
  split at h
  · rename_i a he
    obtain ⟨i, hi⟩ := word a h
    exact ⟨a, i, by rw [he], hi⟩
  · rename_i he
    obtain ⟨i, hi⟩ := word _ (List.all_eq_true.mp h p hp)
    exact ⟨plusArg p, i, by rw [he], hi⟩
  · rename_i he
    obtain ⟨i, hi⟩ := word _ (List.all_eq_true.mp h p hp)
    exact ⟨minusArg p, i, by rw [he], hi⟩

/-- What `dirFieldsWf` asks of each kind (R100). -/
theorem dirFieldsWf_setRate (n : Nat) (c : BitVec 4) (a : Arg32) :
    dirFieldsWf n 0x0#4 c a = decide (c.toNat ≤ 14) := rfl

theorem dirFieldsWf_setTarget (n : Nat) (c : BitVec 4) (a : Arg32) :
    dirFieldsWf n 0x1#4 c a = decide (c.toNat ≤ 14) := rfl

theorem dirFieldsWf_stepRelative (n : Nat) (c : BitVec 4) (a : Arg32) :
    dirFieldsWf n 0x2#4 c a = (decide (c.toNat ≤ 14) && a != 0x80000000#32) := rfl

theorem dirFieldsWf_preset (n : Nat) (k : Arg32) : dirFieldsWf n 0x5#4 0xF#4 k = decide (k.toNat < n) := rfl

theorem dirFieldsWf_parseError (n : Nat) (r : Arg32) :
    dirFieldsWf n 0x6#4 0xF#4 r = (decide (1 ≤ r.toNat) && decide (r.toNat ≤ 4)) := rfl

/-- An entry of a replaced `CHAR_MAP` whose templates all stand for a directive decodes to those directives, in their
order. -/
theorem decodeEntry_ok {n : Nat} {p : Option Nat} {g : Template → Instr} {ts : List Template}
    (h : ∀ t ∈ ts, ∃ w, instantiate p t = some w ∧ decodeDir n w = .ok (g t)) :
    decodeEntry n p ts = .ok (ts.map g) := by
  induction ts with
  | nil => rfl
  | cons t ts ih =>
    obtain ⟨w, h1, h2⟩ := h t (by simp)
    simp [decodeEntry, h1, h2, ih fun t ht => h t (by simp [ht])]

end Sys2Proof
end

