-- ==== Sys2Proof/Laws/Directives.lean ====
section
/-! SUPPORT. The directives: the hardwired fields of a bank, a bank written after the refresh, the snapshot, and that a
well-formed directive answers a next state. -/

namespace Sys2Proof.Machine

/-- What the hardwired fields of a bank read as (the table of spec/10 section 2). -/
theorem chan_hardwired {s : State} {c : Nat} {cc : ChanCfg} (h : s.cfg.chans[c]? = some cc) :
    (cc.kind ≠ .stepper → (s.chan c).phase = 0#3 ∧ (s.chan c).last = 0) ∧
    (cc.kind = .servo → (s.chan c).rate = 0#16) ∧
    (cc.kind ≠ .dc → (s.chan c).brake = false) ∧
    (cc.trackPos = false → (s.chan c).pos = 0#32 ∧ (s.chan c).moving = false ∧ (s.chan c).target = 0#32) ∧
    (cc.kind ≠ .servo → (s.chan c).angle = 0#16) := by
  have := maskChan_chan h
  rw [← this]
  refine ⟨?_, ?_, ?_, ?_, ?_⟩ <;> intro h <;> simp [maskChan, h]

/-- The bank written after a refresh. -/
theorem chan_updChan_wdRefresh (s : State) (c : Nat) (cc : ChanCfg) (f) (hs : SoundFacts s)
    (h : s.cfg.chans[c]? = some cc) :
    (updChan c f (wdRefresh s)).chan c = maskChan cc (f cc (s.chan c)) := by
  rw [chan_updChan_self (s := wdRefresh s) hs.banks h]; rfl

/-- A ticked bank keeps its hardwired fields. -/
theorem maskChan_tickRegs {s : State} {c cc} (hc : s.cfg.chans[c]? = some cc) (tu w now) :
    maskChan cc (tickRegs tu w now cc (s.chan c)) = tickRegs tu w now cc (s.chan c) := by
  by_cases hk : cc.kind = .stepper
  · obtain ⟨x1, x2, x3, x4, x5⟩ := chan_hardwired hc
    have hbr := x3 (by simp [hk]); have ha := x5 (by simp [hk])
    unfold tickRegs
    rw [if_neg (by simp [hk])]
    split_ifs
    · exact maskChan_chan hc
    · exact maskChan_chan hc
    · rw [setRateRegs_zero]
      cases ht : cc.trackPos
      · simp_all
      · simp_all [maskChan]
    · unfold advanceRegs
      cases ht : cc.trackPos
      · have := x4 ht; simp_all [maskChan]
      · simp_all [maskChan]
  · have : tickRegs tu w now cc (s.chan c) = s.chan c := by unfold tickRegs; rw [if_pos hk]
    rw [this]; exact maskChan_chan hc

/-- The snapshot has one part per channel. -/
theorem statusFrom_length (s : State) (n : Nat) (l) : (statusFrom s n l).length = l.length := by
  induction l generalizing n with
  | nil => rfl
  | cons a l ih => simp [statusFrom, ih]

/-- The part of channel c in the snapshot. -/
theorem statusFrom_get (s : State) (n : Nat) (l : List ChanCfg) (c : Nat) (cc : ChanCfg) (h : l[c]? = some cc) :
    (statusFrom s n l)[c]? = some (chanStatus cc (s.chan (n + c))) := by
  induction l generalizing n c with
  | nil => simp at h
  | cons a l ih =>
    cases c with
    | zero => simp at h; simp [statusFrom, h]
    | succ c =>
      simp only [List.getElem?_cons_succ] at h
      simp only [statusFrom, List.getElem?_cons_succ]
      rw [ih _ _ h, show n + 1 + c = n + (c + 1) by omega]

/-- A list of one directive. -/
theorem applyAll_one (d : Instr) (s : State) : applyAll [d] s = applyDirective d s := by
  simp only [applyAll]; cases applyDirective d s <;> rfl

/-- A well-formed directive answers a next state. -/
theorem applyDirective_next {d : Instr} {s : State} (h : d.dirWf s.cfg.npreset = true) :
    ∃ t, applyDirective d s = .next t := by
  cases d <;> first
    | exact ⟨_, by
        simp only [applyDirective, execSetRate, execSetAbsoluteTarget, execStepRelative, execStop, execStopAll,
          execQueryStatus, execAdjustRatePreset, execParseError, applyValid, h, if_true]
        rfl⟩
    | simp [Instr.dirWf] at h

/-- A directive row runs as its directive. -/
theorem exec_directive {d : Instr} {s : State} {n} (h : d.dirWf n = true) : exec d s = applyDirective d s := by
  cases d <;> first | rfl | simp [Instr.dirWf] at h

end Sys2Proof.Machine
end

