-- ==== Sys2Proof/Laws/Frame.lean ====
section
/-! SUPPORT. The frame parser: what a well-formed body holds, what a byte does, and the directives the parser
makes. -/

namespace Sys2Proof.Machine

/-- Every byte of a body is a separator or stands in a field. -/
theorem splitSep_covers (sep : Byte) (body) : ∀ b ∈ body, b = sep ∨ ∃ f ∈ splitSep sep body, b ∈ f := by
  induction body with
  | nil => simp
  | cons c bs ih =>
    intro b hb
    unfold splitSep
    split_ifs with h
    · simp at hb; rcases hb with rfl | hb
      · left; exact h
      · rcases ih b hb with h | ⟨f, h1, h2⟩
        · left; exact h
        · right; exact ⟨f, by simp [h1], h2⟩
    · split
      · rename_i hf
        simp at hb; rcases hb with rfl | hb
        · right; exact ⟨[b], by simp, by simp⟩
        · rcases ih b hb with h | ⟨f, h1, h2⟩
          · left; exact h
          · rw [hf] at h1; simp at h1
      · rename_i f fs hf
        simp at hb; rcases hb with rfl | hb
        · right; exact ⟨b :: f, by simp, by simp⟩
        · rcases ih b hb with h | ⟨g, h1, h2⟩
          · left; exact h
          · rw [hf] at h1; simp at h1
            rcases h1 with rfl | h1
            · right; exact ⟨c :: g, by simp, by simp [h2]⟩
            · right; exact ⟨g, by simp [h1], h2⟩

/-- A well-formed field holds digits and signs only. -/
theorem fieldOk_mem {f : List Byte} (h : fieldOk f = true) : ∀ b ∈ f, isDigit b = true ∨ isSign b = true := by
  intro b hb
  cases f with
  | nil => cases hb
  | cons c cs =>
    simp only [fieldOk, fieldDigits, Bool.and_eq_true] at h
    split_ifs at h with hs
    · simp at hb; rcases hb with rfl | hb
      · right; exact hs
      · left; exact List.all_eq_true.mp h.2 b hb
    · left; exact List.all_eq_true.mp h.2 b hb

/-- A well-formed body holds neither `START` nor `END`. -/
theorem bodyOk_no_delimiters {cfg : Config} (hw : cfg.wf = true) {body} (h : bodyOk cfg.sepB body = true) :
    ∀ b ∈ body, b ≠ cfg.startB ∧ b ≠ cfg.endB := by
  obtain ⟨w1, w2, w3, w4⟩ := wf_bytes hw
  intro b hb
  unfold bodyOk at h
  rcases splitSep_covers cfg.sepB body b hb with rfl | ⟨f, hf, hbf⟩
  · exact ⟨w2.symm, w3.symm⟩
  · have hok : fieldOk f = true := by
      split at h
      · rename_i f0 f1 hs
        rw [hs] at hf; simp at hf h
        rcases hf with rfl | rfl
        · exact h.1
        · exact h.2
      · cases h
    have := fieldOk_mem hok b hbf
    constructor <;> rintro rfl
    · have := w4 cfg.startB (by simp); simp_all
    · have := w4 cfg.endB (by simp); simp_all

/-- The last byte split off. -/
theorem splitLast_append (bs : List Byte) (e : Byte) : splitLast (bs ++ [e]) = some (bs, e) := by
  induction bs with
  | nil => rfl
  | cons b bs ih => simp [splitLast, ih]

/-- The instruction a byte is in `FRAME` mode runs as `frameByte`. -/
theorem exec_decodeFrameByte (s : State) (b) : exec (decodeFrameByte s.ctx b) s = frameByte b s := by
  unfold frameByte decodeFrameByte; split_ifs <;> rfl

/-- A body byte that fits is stored and the cursor moves up. -/
theorem frameByte_body {s : State} {b} (hf : s.ps.framing = true) (h1 : b ≠ s.cfg.startB) (h2 : b ≠ s.cfg.endB)
    (h3 : s.ps.cursor.toNat < s.cfg.cap) :
    frameByte b s = .next { s with
      ps := { s.ps with buf := s.ps.buf.write s.ps.cursor.toNat b, cursor := s.ps.cursor + 1#8 } } := by
  have : decodeFrameByte s.ctx b = .frameBody b := by
    unfold decodeFrameByte
    rw [if_neg (show b ≠ s.ctx.cfg.startB from h1),
      if_neg (show ¬ s.ctx.framing = false from by simp [State.ctx, hf]),
      if_neg (show b ≠ s.ctx.cfg.endB from h2),
      if_neg (show ¬ s.ctx.cursor = s.ctx.cfg.cap from show ¬ s.ps.cursor.toNat = s.cfg.cap by omega)]
  unfold frameByte; rw [this]
  simp [execFrameBody, bufWrite, h3]

/-- The parser makes well-formed directives only. -/
theorem parseBody_dirWf {cfg : Config} (h : cfg.wf = true) (hp : cfg.protocol = .frame) (body) :
    ∀ d ∈ parseBody cfg body, d.dirWf cfg.npreset = true := by
  have hfd : ∀ ff, ff = cfg.field0 ∨ ff = cfg.field1 →
      ∀ f, (fieldDirective cfg.fieldSat ff f).dirWf cfg.npreset = true := by
    intro ff hff f
    have := (wf_field_chan h hp hff).1
    unfold fieldDirective mkDirective
    split <;> simp [Instr.dirWf, dirFieldsWf_setRate, dirFieldsWf_setTarget] <;> omega
  have herr : ∀ f r, fieldError f = some r → (Instr.parseError r).dirWf cfg.npreset = true := by
    intro f r hr; unfold fieldError at hr; split_ifs at hr <;> (injection hr with hr; subst hr; rfl)
  unfold parseBody
  split
  · split
    · rename_i r hr; intro d hd; simp at hd; subst hd; exact herr _ _ hr
    · split
      · rename_i r hr; intro d hd; simp at hd; subst hd; exact herr _ _ hr
      · intro d hd; simp at hd; rcases hd with rfl | rfl
        · exact hfd _ (Or.inl rfl) _
        · exact hfd _ (Or.inr rfl) _
  · intro d hd; simp at hd; subst hd; rfl

end Sys2Proof.Machine
end

