-- ==== Sys2Proof/Laws/Pass.lean ====
section
/-! SUPPORT. The pass: what its parts read and write, and what a channel holds after reset. -/

namespace Sys2Proof.Machine

/-- Save requests append to the save port and change nothing else. -/
theorem saveFrom_saves (en) (n l) (s : State) :
    ∃ ws, saveFrom en n l s = { s with port := { s.port with saves := s.port.saves ++ ws } } := by
  induction l generalizing n s with
  | nil => exact ⟨[], by simp [saveFrom]⟩
  | cons cc l ih =>
    unfold saveFrom
    split_ifs
    · obtain ⟨ws, h⟩ := ih (n+1) (save (BitVec.ofNat 4 n) (s.chan n).pos s)
      rw [h]; exact ⟨_, by simp [save, List.append_assoc]; rfl⟩
    · exact ih _ _

/-- `en_start` depends on the channel registers only. -/
theorem energizedFrom_congr {s t : State} (h : ∀ c, s.chan c = t.chan c) (n l) :
    energizedFrom s n l = energizedFrom t n l := by
  induction l generalizing n with
  | nil => rfl
  | cons a l ih => simp [energizedFrom, h, ih]

/-- Arriving bytes change the FIFO only. -/
theorem arrive_fields (bs s) :
    (arrive bs s).ps = s.ps ∧ (arrive bs s).wd = s.wd ∧ (arrive bs s).cfg = s.cfg ∧ (arrive bs s).sq = s.sq := by
  induction bs generalizing s with
  | nil => exact ⟨rfl, rfl, rfl, rfl⟩
  | cons b bs ih => unfold arrive; split_ifs <;> exact ih _

/-- Reset makes one bank per channel. -/
theorem resetChans_length (l : List ChanCfg) (as : List (Option Int)) : (resetChans l as).length = l.length := by
  induction l generalizing as with
  | nil => cases as <;> rfl
  | cons d l ih => cases as <;> simp [resetChans, ih]

/-- The bank of channel c after reset. -/
theorem resetChans_get (l : List ChanCfg) (as : List (Option Int)) (c : Nat) (cc : ChanCfg) (h : l[c]? = some cc) :
    (resetChans l as)[c]? = some (resetChan cc (as[c]?.join)) := by
  induction l generalizing as c with
  | nil => simp at h
  | cons d l ih =>
    cases as with
    | nil => cases c with
      | zero => simp at h; simp [resetChans, h]
      | succ c => simp at h; simp [resetChans, ih [] c h]
    | cons a as => cases c with
      | zero => simp at h; simp [resetChans, h]
      | succ c => simp at h; simp [resetChans, ih as c h]

/-- What channel c reads after reset. -/
theorem chan_resetOf (cfg : Config) (as inputs n) (c : Nat) (cc : ChanCfg) (h : cfg.chans[c]? = some cc) :
    (State.resetOf cfg as inputs n).chan c = maskChan cc (resetChan cc (as[c]?.join)) := by
  unfold State.chan
  show (match cfg.chans[c]? with
    | some cc => maskChan cc (((resetChans cfg.chans as)[c]?).getD zeroChan)
    | none => zeroChan) = _
  rw [h, resetChans_get _ _ _ _ h]; rfl

/-- What a step can do, the configuration's check first. -/
theorem runStep_eq (s : State) :
    runStep s =
      if s.cfg.wf then
        match s.port.inputs with
        | [] => pass (Config.freeTime s.port.draws) { s with port := { s.port with draws := s.port.draws + 1 } }
        | .pass time arrived :: rest => pass time (arrive arrived { s with port := { s.port with inputs := rest } })
        | .powerCycle answers :: rest => .next (powerCycle answers { s with port := { s.port with inputs := rest } })
      else .refused .illFormedConfig := by
  unfold runStep checked
  cases s.port.inputs with
  | nil => rfl
  | cons i rest => cases i <;> rfl

end Sys2Proof.Machine
end

