-- ==== Sys2Proof/Laws/Bytes.lean ====
section
/-! SUPPORT. What no input byte changes: the configuration (R49) and the save port, which only the commit stage writes
(R301). -/

namespace Sys2Proof.Machine

/-- The configuration and the save port are as before. -/
def KeepsSaves (s t : State) : Prop := t.cfg = s.cfg ∧ t.port.saves = s.port.saves

theorem KeepsSaves.refl (s : State) : KeepsSaves s s := ⟨rfl, rfl⟩

theorem KeepsSaves.trans {s t u : State} (h : KeepsSaves s t) (k : KeepsSaves t u) : KeepsSaves s u :=
  ⟨k.1.trans h.1, k.2.trans h.2⟩

/-- A channel write keeps both. -/
theorem updChan_keepsSaves (c f) (s : State) : KeepsSaves s (updChan c f s) := ⟨by simp, by simp⟩

/-- A stop of every channel keeps both. -/
theorem stopEvery_keepsSaves (s : State) : KeepsSaves s (stopEvery s) := by
  obtain ⟨f1, -, -, -, -, f6, -⟩ := stopEvery_fields s
  exact ⟨f1, by rw [f6]⟩

/-- The prologue keeps both if the effect does. -/
theorem applyValid_keepsSaves {ok f} {s t : State} (h : applyValid ok f s = .next t) (hf : ∀ u, KeepsSaves u (f u)) :
    KeepsSaves s t := by
  rw [applyValid_eq_next] at h
  obtain ⟨-, rfl⟩ := h
  exact hf (wdRefresh s)

/-- A directive keeps both. -/
theorem applyDirective_keepsSaves {d : Instr} {s t : State} (h : applyDirective d s = .next t) : KeepsSaves s t := by
  cases d <;> simp only [applyDirective, reduceCtorEq] at h
  case setRate c a => exact applyValid_keepsSaves h fun u => updChan_keepsSaves _ _ _
  case setAbsoluteTarget c a => exact applyValid_keepsSaves h fun u => updChan_keepsSaves _ _ _
  case stepRelative c a => exact applyValid_keepsSaves h fun u => updChan_keepsSaves _ _ _
  case stop c => exact applyValid_keepsSaves h fun u => updChan_keepsSaves _ _ _
  case stopAll => exact applyValid_keepsSaves h fun u => stopEvery_keepsSaves _
  case queryStatus => exact applyValid_keepsSaves h fun u => ⟨rfl, rfl⟩
  case adjustRatePreset k => exact applyValid_keepsSaves h fun u => ⟨rfl, rfl⟩
  case parseError r =>
    unfold execParseError at h
    split_ifs at h
    cases h
    exact ⟨rfl, rfl⟩

/-- So do the directives of a byte or a frame. -/
theorem applyAll_keepsSaves {l : List Instr} {s t : State} (h : applyAll l s = .next t) : KeepsSaves s t := by
  induction l generalizing s with
  | nil => cases h; exact .refl _
  | cons d l ih =>
    unfold applyAll at h
    rw [andThen_eq_next] at h
    obtain ⟨u, h1, h2⟩ := h
    exact (applyDirective_keepsSaves h1).trans (ih h2)

/-- A byte of the default map keeps both. -/
theorem exec_decodeCharByte_keepsSaves {n b} {s t : State} (h : exec (decodeCharByte n b) s = .next t) :
    KeepsSaves s t := by
  have drive_keeps : ∀ f g, drive f g s = .next t → KeepsSaves s t := by
    intro f g h
    unfold drive at h
    split at h
    · cases h
    · exact applyAll_keepsSaves h
  have preset_keeps : ∀ k, presetKey k s = .next t → KeepsSaves s t := by
    intro k h
    unfold presetKey at h
    split_ifs at h
    · exact applyAll_keepsSaves h
    · cases h; exact .refl _
  unfold decodeCharByte defaultRow at h
  split at h <;> (try split_ifs at h) <;> simp only [Option.getD] at h <;> first
    | exact drive_keeps _ _ h
    | exact preset_keeps _ h
    | exact applyAll_keepsSaves h
    | (cases h; exact .refl _)

/-- A byte of the frame parser keeps both. -/
theorem frameByte_keepsSaves {b} {s t : State} (h : frameByte b s = .next t) : KeepsSaves s t := by
  unfold frameByte at h
  split at h
  · unfold execFrameStart at h
    rw [andThen_eq_next] at h
    obtain ⟨u, h1, h2⟩ := h
    cases h2
    refine KeepsSaves.trans (t := u) ?_ ⟨rfl, rfl⟩
    split_ifs at h1
    · exact applyDirective_keepsSaves (d := .parseError _) h1
    · cases h1; exact .refl _
  · exact KeepsSaves.trans (t := closeFrame s) ⟨rfl, rfl⟩ (applyAll_keepsSaves h)
  · unfold execFrameBody bufWrite at h
    rw [andThen_eq_next] at h
    obtain ⟨u, h1, h2⟩ := h
    split_ifs at h1
    cases h1; cases h2
    exact ⟨rfl, rfl⟩
  · cases h; exact ⟨rfl, rfl⟩
  all_goals cases h; exact .refl _

/-- A directive word decodes to a directive. -/
theorem decodeDir_applies {n w i} (h : decodeDir n w = .ok i) (s : State) : exec i s = applyDirective i s := by
  unfold decodeDir at h
  split at h
  · cases h
  · rename_i j hj
    split_ifs at h
    cases h
    unfold dirOfFields at hj
    split at hj <;> (try cases hj) <;> (try split_ifs) <;> rfl

/-- An entry of a replaced map runs as a list of directives. -/
theorem decodeEntry_applies {n p ts is} (h : decodeEntry n p ts = .ok is) (s : State) : execAll is s = applyAll is s := by
  induction ts generalizing is s with
  | nil => cases h; rfl
  | cons t ts ih =>
    unfold decodeEntry at h
    split at h
    · cases h
    · split at h
      · cases h
      · rename_i i hi
        split at h
        · cases h
        · rename_i js hj
          cases h
          unfold execAll applyAll
          rw [decodeDir_applies hi s]
          cases applyDirective i s with
          | next u => exact ih hj u
          | fault f => rfl
          | refused f => rfl

/-- One instruction as a list. -/
theorem execAll_one {i : Instr} {s t : State} (h : execAll [i] s = .next t) : exec i s = .next t := by
  unfold execAll at h
  rw [andThen_eq_next] at h
  obtain ⟨u, h1, h2⟩ := h
  cases h2
  exact h1

/-- No input byte writes the configuration or the save port. -/
theorem execByte_keepsSaves {b} {s t : State} (h : execByte b s = .next t) : KeepsSaves s t := by
  unfold execByte at h
  split at h
  · rename_i is hd
    unfold decodeByte at hd
    split at hd
    · cases hd
      have := execAll_one h
      rw [exec_decodeFrameByte] at this
      exact frameByte_keepsSaves this
    · split at hd
      · cases hd
        exact exec_decodeCharByte_keepsSaves (execAll_one h)
      · split at hd
        · cases hd
          have := execAll_one h
          cases this
          exact .refl _
        · rw [decodeEntry_applies hd] at h
          exact applyAll_keepsSaves h
  · rename_i e _
    cases e <;> cases h

/-- Nor does the drain stage. -/
theorem drainBytes_keepsSaves {bs} {s t : State} (h : drainBytes bs s = .next t) : KeepsSaves s t := by
  induction bs generalizing s with
  | nil => cases h; exact .refl _
  | cons b bs ih =>
    unfold drainBytes at h
    rw [andThen_eq_next] at h
    obtain ⟨u, h1, h2⟩ := h
    exact (execByte_keepsSaves (s := setRx bs s) h1).trans (ih h2)

end Sys2Proof.Machine
end

