-- ==== Sys2Proof/Laws/Events.lean ====
section
/-! SUPPORT. The diagnostic stream: how many events a directive appends, and a list of them in order (R294, R297, R320,
R325). -/

namespace Sys2Proof.Machine

/-- The number of events a directive causes: one for `QueryStatus` and for `ParseError`, none for the others. -/
def eventsOf : Instr → Nat
  | .queryStatus | .parseError _ => 1
  | _ => 0

/-- The diagnostic stream has grown by n entries. -/
def GrowsBy (n : Nat) (s t : State) : Prop := ∃ es, t.port.diag = s.port.diag ++ es ∧ es.length = n

theorem GrowsBy.refl {s t : State} (h : t.port.diag = s.port.diag) : GrowsBy 0 s t := ⟨[], by simp [h], rfl⟩

theorem GrowsBy.trans {m n : Nat} {s t u : State} (h : GrowsBy m s t) (k : GrowsBy n t u) : GrowsBy (m + n) s u := by
  obtain ⟨es, h1, h2⟩ := h
  obtain ⟨fs, k1, k2⟩ := k
  exact ⟨es ++ fs, by rw [k1, h1, List.append_assoc], by simp [h2, k2]⟩

/-- An emission appends one entry. -/
theorem emit_growsBy (e) (s : State) : GrowsBy 1 s (emit e s) := ⟨[e], rfl, rfl⟩

/-- The prologue appends nothing of its own. -/
theorem applyValid_growsBy {ok f n} {s t : State} (h : applyValid ok f s = .next t) (hf : ∀ u, GrowsBy n u (f u)) :
    GrowsBy n s t := by
  rw [applyValid_eq_next] at h
  obtain ⟨-, rfl⟩ := h
  exact hf (wdRefresh s)

/-- A directive appends the events it causes. -/
theorem applyDirective_growsBy {d : Instr} {s t : State} (h : applyDirective d s = .next t) :
    GrowsBy (eventsOf d) s t := by
  cases d <;> simp only [applyDirective, reduceCtorEq] at h
  case setRate c a => exact applyValid_growsBy h fun u => .refl (by simp [applySetRate])
  case setAbsoluteTarget c a => exact applyValid_growsBy h fun u => .refl (by simp [applySetTarget])
  case stepRelative c a => exact applyValid_growsBy h fun u => .refl (by simp [applyStepRelative])
  case stop c => exact applyValid_growsBy h fun u => .refl (by simp [stopChan])
  case stopAll =>
    refine applyValid_growsBy h fun u => .refl ?_
    obtain ⟨-, -, -, -, -, f6, -⟩ := stopEvery_fields u
    rw [f6]
  case queryStatus => exact applyValid_growsBy h fun u => emit_growsBy _ u
  case adjustRatePreset k => exact applyValid_growsBy h fun u => .refl rfl
  case parseError r =>
    unfold execParseError at h
    split_ifs at h
    cases h
    exact emit_growsBy _ s

/-- The directives of a byte or a frame append theirs, in order. -/
theorem applyAll_growsBy {l : List Instr} {s t : State} (h : applyAll l s = .next t) :
    GrowsBy (l.map eventsOf).sum s t := by
  induction l generalizing s with
  | nil => cases h; exact .refl rfl
  | cons d l ih =>
    unfold applyAll at h
    rw [andThen_eq_next] at h
    obtain ⟨u, h1, h2⟩ := h
    exact (applyDirective_growsBy h1).trans (ih h2)

/-- The parser makes at most one directive that causes an event (R230, R234). -/
theorem parseBody_events (cfg : Config) (body : List Byte) : ((parseBody cfg body).map eventsOf).sum ≤ 1 := by
  have none_of_field : ∀ sat ff f, eventsOf (fieldDirective sat ff f) = 0 := by
    intro sat ff f
    unfold fieldDirective mkDirective
    split <;> rfl
  unfold parseBody
  split
  · split
    · exact le_refl 1
    · split
      · exact le_refl 1
      · simp [none_of_field]
  · exact le_refl 1

end Sys2Proof.Machine
end

