-- ==== Sys2Proof/Laws/Mux.lean ====
section
/-! SUPPORT. The output mux: what stands on every physical line after a commit, and that a sound state has a value for
each. -/

namespace Sys2Proof.Machine

/-- A line the map does not name is unchanged. -/
theorem placeLines_other {α} (L : List α) (is vs) (j : Nat) (h : j ∉ is) : (placeLines L is vs)[j]? = L[j]? := by
  induction is generalizing L vs with
  | nil => simp [placeLines]
  | cons i is ih =>
    simp at h
    cases vs with
    | nil => simp [placeLines]
    | cons v vs => simp only [placeLines]; rw [ih _ _ h.2, List.getElem?_set_ne (fun e => h.1 e.symm)]

/-- Placing values keeps the count of lines. -/
theorem placeLines_length {α} (L : List α) (is vs) : (placeLines L is vs).length = L.length := by
  induction is generalizing L vs with
  | nil => simp [placeLines]
  | cons i is ih => cases vs <;> simp [placeLines, ih]

/-- A line the map names carries its local value. -/
theorem placeLines_self {α} (L : List α) (is vs) (k j : Nat) (v : α) (hn : is.Nodup) (hk : is[k]? = some j)
    (hv : vs[k]? = some v) (hj : j < L.length) : (placeLines L is vs)[j]? = some v := by
  induction is generalizing L vs k with
  | nil => simp at hk
  | cons i is ih =>
    cases vs with
    | nil => simp at hv
    | cons w vs =>
      simp only [placeLines]
      cases k with
      | zero =>
        simp at hk hv; subst hk; subst hv
        rw [placeLines_other _ _ _ _ (List.nodup_cons.mp hn).1]; simp [hj]
      | succ k =>
        exact ih _ _ k (List.nodup_cons.mp hn).2 (by simpa using hk) (by simpa using hv) (by simpa using hj)

/-- `noRepeats` is `Nodup`. -/
theorem noRepeats_iff (l) : noRepeats l = true ↔ l.Nodup := by
  induction l with
  | nil => simp [noRepeats]
  | cons a l ih => simp [noRepeats, ih]

/-- The maps of a well-formed configuration (R9 item 5). -/
theorem wf_mapFacts {cfg : Config} (h : cfg.wf = true) :
    (cfg.chans.flatMap ChanCfg.digMap).Nodup ∧ (cfg.chans.flatMap ChanCfg.lvlMap).Nodup ∧
    ∀ cc ∈ cfg.chans, cc.digMap.length = cc.kind.digLines ∧ cc.lvlMap.length = cc.kind.lvlLines ∧
      (∀ j ∈ cc.digMap, j < cfg.ndig) ∧ ∀ j ∈ cc.lvlMap, j < cfg.nlvl := by
  unfold Config.wf at h
  simp only [Bool.and_eq_true] at h
  have := h.1.1.1.2
  unfold Config.wfMaps at this
  simp only [Bool.and_eq_true, noRepeats_iff, List.all_eq_true] at this
  refine ⟨this.1.2, this.2, fun cc hc => ?_⟩
  have := this.1.1 cc hc
  unfold ChanCfg.wfMap at this
  simpa [and_assoc] using this

/-- What the mux drives on every line: a mapped line its local value, every other line what it had. -/
theorem muxFrom_spec {s : State} (n : Nat) (l : List ChanCfg) (dl r : List Bool × List Level)
    (h : muxFrom s n l dl = some r) (hn : (l.flatMap ChanCfg.digMap).Nodup)
    (hn2 : (l.flatMap ChanCfg.lvlMap).Nodup)
    (hr : ∀ cc ∈ l, (∀ j ∈ cc.digMap, j < dl.1.length) ∧ (∀ j ∈ cc.lvlMap, j < dl.2.length)) :
    (∀ j, (∀ cc ∈ l, j ∉ cc.digMap) → r.1[j]? = dl.1[j]?) ∧
    (∀ j, (∀ cc ∈ l, j ∉ cc.lvlMap) → r.2[j]? = dl.2[j]?) ∧
    (∀ c cc, l[c]? = some cc →
      ∃ v : List Bool × List Level, localLines (n + c) cc (s.chan (n + c)) = some v ∧
        (∀ (k j : Nat) (b : Bool), cc.digMap[k]? = some j → v.1[k]? = some b → r.1[j]? = some b) ∧
        (∀ (k j : Nat) (b : Level), cc.lvlMap[k]? = some j → v.2[k]? = some b → r.2[j]? = some b)) := by
  induction l generalizing n dl with
  | nil => simp [muxFrom] at h; subst h; simp
  | cons cc l ih =>
    unfold muxFrom at h
    split at h
    · cases h
    · rename_i v hv
      simp only [List.flatMap_cons] at hn hn2
      rw [List.nodup_append] at hn hn2
      obtain ⟨i1, i2, i3⟩ := ih (n+1) _ h hn.2.1 hn2.2.1 (by
        intro c hc; have := hr c (by simp [hc]); simpa [placeLines_length] using this)
      have hcc := hr cc (by simp)
      refine ⟨?_, ?_, ?_⟩
      · intro j hj; rw [i1 j (fun c hc => hj c (by simp [hc])), placeLines_other _ _ _ _ (hj cc (by simp))]
      · intro j hj; rw [i2 j (fun c hc => hj c (by simp [hc])), placeLines_other _ _ _ _ (hj cc (by simp))]
      · intro c d hc
        cases c with
        | zero =>
          simp at hc; subst hc
          refine ⟨v, hv, ?_, ?_⟩
          · intro k j b hk hb
            have hm := List.mem_of_getElem? hk
            rw [i1 j (fun c hc hj => hn.2.2 j hm j (List.mem_flatMap.mpr ⟨c, hc, hj⟩) rfl)]
            exact placeLines_self _ _ _ k j b hn.1 hk hb (hcc.1 j hm)
          · intro k j b hk hb
            have hm := List.mem_of_getElem? hk
            rw [i2 j (fun c hc hj => hn2.2.2 j hm j (List.mem_flatMap.mpr ⟨c, hc, hj⟩) rfl)]
            exact placeLines_self _ _ _ k j b hn2.1 hk hb (hcc.2 j hm)
        | succ c =>
          have := i3 c d (by simpa using hc)
          rwa [show n + 1 + c = n + (c+1) by omega] at this

/-- The mux has a value for every line while every phase is in its table. -/
theorem muxFrom_some {s : State} (hs : SoundFacts s) (n l dl)
    (hl : ∀ c cc, l[c]? = some cc → s.cfg.chans[n + c]? = some cc) :
    ∃ r, muxFrom s n l dl = some r ∧ r.1.length = dl.1.length ∧ r.2.length = dl.2.length := by
  induction l generalizing n dl with
  | nil => exact ⟨dl, rfl, rfl, rfl⟩
  | cons cc l ih =>
    have hc := hl 0 cc rfl
    have h2 := (chanSound_iff.mp (hs.3 _ cc hc)).2.1
    have : ∃ v, localLines n cc (s.chan n) = some v := by
      unfold localLines
      cases hk : cc.kind
      · simp only [stepperLines]
        have : ∃ v, patternAt cc.table (s.chan n).phase.toNat = some v := by
          unfold patternAt
          simp only [Nat.add_zero] at h2
          refine ⟨_, List.getElem?_eq_getElem ?_⟩
          unfold ChanCfg.phases at h2
          cases ht : cc.table <;> rw [ht] at h2 <;> exact h2
        obtain ⟨v, hv⟩ := this
        rw [hv]; split_ifs <;> simp
      · simp
      · simp
    obtain ⟨v, hv⟩ := this
    obtain ⟨r, a, b, c⟩ := ih (n + 1) (placeLines dl.1 cc.digMap v.1, placeLines dl.2 cc.lvlMap v.2)
      (fun c d h => by
        have := hl (c + 1) d (by simpa using h)
        rwa [show n + 1 + c = n + (c + 1) by omega])
    exact ⟨r, by simp [muxFrom, hv, a], by rw [b, placeLines_length], by rw [c, placeLines_length]⟩

end Sys2Proof.Machine
end

