-- ==== Sys2Proof/Laws/PerInstr.lean ====
section
/-! SUPPORT. The family `Form`: every instruction's encoding has the format of its row of spec/opcode_table.json
(spec/30 R90): one input byte, a frame two bytes longer than its body, or a 40-bit word with the row's kind or code in
bits 39..36. One lemma per constructor. -/

namespace Sys2Proof.Laws.Form

open Sys2Proof Sys2Proof.Machine

/-- The encoding's format (R90). -/
inductive Shape where
  | bytes (length : Nat)
  | dir (kind : BitVec 4)
  | ev (code : BitVec 4)
deriving DecidableEq, Repr

/-- The format of an encoding. -/
def shapeOf : Encoded → Shape
  | .bytes bs => .bytes bs.length
  | .dir w => .dir (wordKind w)
  | .ev w => .ev (wordKind w)

/-- The format the opcode table gives an instruction's row. -/
def rowShape : Instr → Shape
  | .fwd => .bytes 1
  | .rev => .bytes 1
  | .left => .bytes 1
  | .right => .bytes 1
  | .stopKey => .bytes 1
  | .stopSpace => .bytes 1
  | .preset0 => .bytes 1
  | .preset1 => .bytes 1
  | .preset2 => .bytes 1
  | .preset3 => .bytes 1
  | .preset4 => .bytes 1
  | .preset5 => .bytes 1
  | .preset6 => .bytes 1
  | .preset7 => .bytes 1
  | .preset8 => .bytes 1
  | .query => .bytes 1
  | .jogFwd => .bytes 1
  | .jogRev => .bytes 1
  | .home => .bytes 1
  | .charUnmapped _ => .bytes 1
  | .frameStart => .bytes 1
  | .frameEnd => .bytes 1
  | .frameBody _ => .bytes 1
  | .frameOverflow _ => .bytes 1
  | .frameIgnored _ => .bytes 1
  | .frame body => .bytes (body.length + 2)
  | .setRate _ _ => .dir 0x0#4
  | .setAbsoluteTarget _ _ => .dir 0x1#4
  | .stepRelative _ _ => .dir 0x2#4
  | .stop _ => .dir 0x3#4
  | .stopAll => .dir 0x3#4
  | .queryStatus => .dir 0x4#4
  | .adjustRatePreset _ => .dir 0x5#4
  | .parseError _ => .dir 0x6#4
  | .evParseError _ => .ev 0x1#4
  | .evOverflow => .ev 0x2#4
  | .evWdTimeout => .ev 0x3#4
  | .evStatus => .ev 0x4#4
  | .evSavePos _ _ => .ev 0x5#4

/-- The instruction's encoding, in any state of the decoder, has its row's format. -/
def Statement (i : Instr) : Prop := ∀ x : Ctx, shapeOf (encode x i) = rowShape i

theorem fwd : Statement .fwd := fun _ => rfl

theorem rev : Statement .rev := fun _ => rfl

theorem left : Statement .left := fun _ => rfl

theorem right : Statement .right := fun _ => rfl

theorem stopKey : Statement .stopKey := fun _ => rfl

theorem stopSpace : Statement .stopSpace := fun _ => rfl

theorem preset0 : Statement .preset0 := fun _ => rfl

theorem preset1 : Statement .preset1 := fun _ => rfl

theorem preset2 : Statement .preset2 := fun _ => rfl

theorem preset3 : Statement .preset3 := fun _ => rfl

theorem preset4 : Statement .preset4 := fun _ => rfl

theorem preset5 : Statement .preset5 := fun _ => rfl

theorem preset6 : Statement .preset6 := fun _ => rfl

theorem preset7 : Statement .preset7 := fun _ => rfl

theorem preset8 : Statement .preset8 := fun _ => rfl

theorem query : Statement .query := fun _ => rfl

theorem jogFwd : Statement .jogFwd := fun _ => rfl

theorem jogRev : Statement .jogRev := fun _ => rfl

theorem home : Statement .home := fun _ => rfl

theorem charUnmapped (b : Byte) : Statement (.charUnmapped b) := fun _ => rfl

theorem frameStart : Statement .frameStart := fun _ => rfl

theorem frameEnd : Statement .frameEnd := fun _ => rfl

theorem frameBody (b : Byte) : Statement (.frameBody b) := fun _ => rfl

theorem frameOverflow (b : Byte) : Statement (.frameOverflow b) := fun _ => rfl

theorem frameIgnored (b : Byte) : Statement (.frameIgnored b) := fun _ => rfl

theorem frame (body : List Byte) : Statement (.frame body) := fun _ => by simp [shapeOf, encode, rowShape]

theorem setRate (c : BitVec 4) (a : Arg32) : Statement (.setRate c a) :=
  fun _ => congrArg Shape.dir (wordKind_mkWord _ _ _)

theorem setAbsoluteTarget (c : BitVec 4) (a : Arg32) : Statement (.setAbsoluteTarget c a) :=
  fun _ => congrArg Shape.dir (wordKind_mkWord _ _ _)

theorem stepRelative (c : BitVec 4) (a : Arg32) : Statement (.stepRelative c a) :=
  fun _ => congrArg Shape.dir (wordKind_mkWord _ _ _)

theorem stop (c : BitVec 4) : Statement (.stop c) :=
  fun _ => congrArg Shape.dir (wordKind_mkWord _ _ _)

theorem stopAll : Statement .stopAll :=
  fun _ => rfl

theorem queryStatus : Statement .queryStatus :=
  fun _ => rfl

theorem adjustRatePreset (k : Arg32) : Statement (.adjustRatePreset k) :=
  fun _ => congrArg Shape.dir (wordKind_mkWord _ _ _)

theorem parseError (r : Arg32) : Statement (.parseError r) :=
  fun _ => congrArg Shape.dir (wordKind_mkWord _ _ _)

theorem evParseError (r : Arg32) : Statement (.evParseError r) :=
  fun _ => congrArg Shape.ev (wordKind_mkWord _ _ _)

theorem evOverflow : Statement .evOverflow :=
  fun _ => rfl

theorem evWdTimeout : Statement .evWdTimeout :=
  fun _ => rfl

theorem evStatus : Statement .evStatus :=
  fun _ => rfl

theorem evSavePos (c : BitVec 4) (p : Arg32) : Statement (.evSavePos c p) :=
  fun _ => congrArg Shape.ev (wordKind_mkWord _ _ _)

end Sys2Proof.Laws.Form
end

