-- ==== Sys2Proof/Tests/Slice0.lean ====
section
/-! SUPPORT. Tests of the model: the checks of well-formedness refuse, words written out from the spec decode, instructions
do what the vectors of spec/95 say, and every statement's hypotheses are met by a concrete state. -/

namespace Sys2Proof.Tests

open Sys2Proof Sys2Proof.Machine

set_option maxRecDepth 8000

/-! ## Helpers -/

/-- The next state of an outcome, if it has one. -/
def nextOf : Result → Option State
  | .next s => some s
  | _ => none

/-- An outcome with a next state is one. -/
theorem next_of_isSome {r : Result} (h : (nextOf r).isSome = true) : ∃ t, r = .next t := by
  cases r with
  | next s => exact ⟨s, rfl⟩
  | fault f => cases h
  | refused f => cases h

/-- A property of the next state of an instruction. -/
def ex {α : Type} (i : Instr) (s : State) (f : State → α) : Option α := (nextOf (exec i s)).map f

/-- A property of the state after the first pass from reset, with these bytes. -/
def firstPass {α : Type} (cfg : Config) (t : Nat) (bs : List Byte) (f : State → α) : Option α :=
  (nextOf (step (State.resetOf cfg [] [.pass t bs] 0))).map f

/-- The reset states of R10's configurations. -/
def sA : State := State.resetOf Config.rcA [] [] 0
def sB : State := State.resetOf Config.rcB [] [] 0
def sK : State := State.resetOf Config.rcBBrk [] [] 0
def sC : State := State.resetOf Config.rcC [] [] 0

/-- The three fields the rate vectors of spec/95 section 2.3 give. -/
def rateOf (c : Nat) (t : State) : Int × Bool × Bool := ((t.chan c).rate.toInt, (t.chan c).energized, (t.chan c).brake)

/-- A state with other register banks, or at another time. -/
def withCh (s : State) (ch : List ChanRegs) : State := { s with ch := ch }
def atTime (s : State) (now : Nat) : State := { s with sq := { s.sq with now := now } }

/-- A running stepper bank. -/
def running (rate : Int) (phase : Nat) (last : Nat) : ChanRegs :=
  { zeroChan with rate := BitVec.ofInt 16 rate, phase := BitVec.ofNat 3 phase, last := last, energized := true }

/-- RC-C in the middle of a move from 4 to 10 (spec/95 section 2.5). -/
def movingBank : ChanRegs := { running 500 0 7 with pos := 4#32, target := 10#32, moving := true }
def sCm : State := withCh sC [movingBank]

/-- RC-C at the end of program P4's move: at the target, the next step due in the coming pass. -/
def sCdone : State :=
  { sC with
    ch := [{ running 500 2 20000 with pos := 10#32, target := 10#32, moving := true }]
    port := { sC.port with inputs := [.pass 22000 []] } }

/-- `FRAME` mode with this body in the buffer, the frame open. -/
def sBody (body : List Byte) : State :=
  { sB with ps := { framing := true, cursor := BitVec.ofNat 8 body.length, buf := (List.range body.length).zip body } }

/-- An ASCII digit string as bytes. -/
def t90c200 : List Byte := [0x39#8, 0x30#8, 0x2C#8, 0x32#8, 0x30#8, 0x30#8]

/-- A run of equal bytes. -/
def many (n : Nat) (b : Byte) : List Byte := List.replicate n b

/-- The words of the diagnostic stream. -/
def events (t : State) : List Word40 := t.port.diag.map (·.word)

/-! ## Well-formedness refuses what it should (R9, R100, R104) -/

theorem test_reference_configs_wf :
    Config.rcA.wf && Config.rcB.wf && Config.rcBBrk.wf && Config.rcC.wf = true := by decide

theorem test_wf_refuses_no_channel : Config.wf { Config.rcA with chans := [] } = false := by decide
theorem test_wf_refuses_zero_min_rate :
    ChanCfg.wfRates { refStepper .half [0, 1, 2, 3] with minRate := 0 } = false := by decide
theorem test_wf_refuses_min_above_max :
    ChanCfg.wfRates { refStepper .half [0, 1, 2, 3] with minRate := 1001 } = false := by decide
theorem test_wf_refuses_rate_beyond_width :
    ChanCfg.wfRates { refStepper .half [0, 1, 2, 3] with maxRate := 32768 } = false := by decide
theorem test_wf_refuses_tracking_dc : ChanCfg.wfRates { refDc [1, 2] [1] with trackPos := true } = false := by decide
theorem test_wf_refuses_persist_without_track :
    ChanCfg.wfRates { refStepper .half [0, 1, 2, 3] with persist := true } = false := by decide
theorem test_wf_refuses_braking_stepper :
    ChanCfg.wfRates { refStepper .half [0, 1, 2, 3] with brake := true } = false := by decide
theorem test_wf_refuses_move_rate_above_max :
    ChanCfg.wfRates { refStepper .half [0, 1, 2, 3] with trackPos := true, moveRate := 1001 } = false := by decide
theorem test_wf_refuses_zero_run :
    ChanCfg.wfRates { refStepper .half [0, 1, 2, 3] with maxRun := 0 } = false := by decide
theorem test_wf_refuses_short_map : ChanCfg.wfMap 8 0 (refStepper .half [0, 1, 2]) = false := by decide
theorem test_wf_refuses_line_beyond_ndig : ChanCfg.wfMap 8 0 (refStepper .half [0, 1, 2, 8]) = false := by decide
theorem test_wf_refuses_shared_line :
    Config.wfMaps { Config.rcA with chans := [refStepper .half [0, 1, 2, 3], refStepper .half [3, 4, 5, 6]] } = false := by
  decide
theorem test_wf_refuses_timeout_beyond_clock :
    Config.wfScalars { Config.rcA with timeout := 2 ^ 32 - 1 } = false := by decide
theorem test_wf_refuses_preset_zero : Config.wfScalars { Config.rcA with presets := [0] } = false := by decide
theorem test_wf_refuses_ten_presets :
    Config.wfScalars { Config.rcA with presets := List.replicate 10 1 } = false := by decide
theorem test_wf_refuses_equal_frame_bytes : Config.wfBytes { Config.rcB with endB := 0x3C#8 } = false := by decide
theorem test_wf_refuses_digit_separator : Config.wfBytes { Config.rcB with sepB := 0x30#8 } = false := by decide
theorem test_wf_refuses_sign_separator : Config.wfBytes { Config.rcB with sepB := 0x2D#8 } = false := by decide
theorem test_wf_refuses_empty_range :
    FrameField.wf Config.rcB.chans { kind := .setTarget, ch := 0, min := 1, max := 0 } = false := by decide
theorem test_wf_refuses_rate_field_on_servo :
    FrameField.wf Config.rcB.chans { kind := .setRate, ch := 0, min := 0, max := 1 } = false := by decide
theorem test_wf_refuses_target_field_on_dc :
    FrameField.wf Config.rcB.chans { kind := .setTarget, ch := 1, min := 0, max := 1 } = false := by decide
theorem test_wf_refuses_field_on_missing_channel :
    FrameField.wf Config.rcB.chans { kind := .setRate, ch := 2, min := 0, max := 1 } = false := by decide
/-- R9 item 8 in `CHAR` mode: an empty range, a missing channel, a wrong kind (log 12). -/
theorem test_wf_refuses_char_fields :
    [{ refField0 with min := 136 }, { refField0 with ch := 2 }, { refField0 with max := 134 }].all
      (fun f => !Config.wf { Config.rcA with field0 := f }) &&
    [{ refField1 with min := 256 }, { refField1 with ch := 2 }, { refField1 with kind := .setTarget }].all
      (fun f => !Config.wf { Config.rcA with field1 := f }) = true := by decide
/-- With the reference fields: a DC channel 0, a servo channel 1, a third channel, and one channel that is a servo or
keeps no position (spec/93 I23). -/
theorem test_wf_refuses_reference_fields_elsewhere :
    [{ Config.rcA with chans := [refDc [0, 1] [0], refStepper .half [4, 5, 6, 7]], nlvl := 1 },
      { Config.rcA with chans := [refStepper .half [0, 1, 2, 3], refServo [4] [0]], nlvl := 1 },
      { Config.rcA with chans := Config.rcA.chans ++ [refStepper .half [8, 9, 10, 11]], ndig := 12 },
      { Config.rcA with chans := [refServo [0] [0]], nlvl := 1 },
      { Config.rcA with chans := [refStepper .half [0, 1, 2, 3]] }].all
      (fun cfg => !cfg.wf && Config.wf { cfg with
        field0 := { kind := if cfg.chans.any (·.kind == .servo) && cfg.nch == 1 then .setTarget else .setRate, ch := 0,
                    min := 0, max := 1 }
        field1 := { kind := if cfg.chans.any (·.kind == .servo) && cfg.nch == 1 then .setTarget else .setRate, ch := 0,
                    min := 0, max := 1 } }) = true := by decide
/-- The reference values are no excuse in `FRAME` mode. -/
theorem test_wf_refuses_reference_fields_in_frame_mode :
    Config.wf { Config.rcA with protocol := .frame } = false := by decide
/-- What log 12 does not let pass: RC-A with another `TRACK_POS`, table, rate or preset list, RC-C with another map,
persistence or table; each passes with fields that meet R9 item 8. -/
theorem test_wf_refuses_fields_beyond_references :
    [{ Config.rcA with chans := [refStepper .half [0, 1, 2, 3], { refStepper .half [4, 5, 6, 7] with trackPos := true }] },
      { Config.rcA with chans := [refStepper .half [0, 1, 2, 3], refStepper .full [4, 5, 6, 7]] },
      { Config.rcA with chans := [{ refStepper .half [0, 1, 2, 3] with minRate := 2 }, refStepper .half [4, 5, 6, 7]] },
      { Config.rcA with presets := [200] }, { Config.rcC with charMap := .custom [] },
      { Config.rcAMin50 with charMap := .custom [] }, { Config.rcCRun5 with charMap := .custom [] },
      { Config.rcC with chans := [{ refStepper .full [0, 1, 2, 3] with trackPos := true }] },
      { Config.rcC with chans := [{ refStepper .half [0, 1, 2, 3] with trackPos := true, persist := true }] }].all
      (fun cfg => !cfg.wf && Config.wf { cfg with field0 := { refField0 with kind := .setRate },
                                                  field1 := { refField1 with ch := 0 } }) = true := by decide
/-- The variants that the vectors of spec/95 run. -/
theorem test_wf_reference_variants :
    Config.rcAMin50.wf && Config.rcCRun5.wf && Config.wf { Config.rcA with charMap := .custom [] }
      && !Config.wf { Config.rcAMin50 with protocol := .frame } = true := by decide
theorem test_wf_refuses_parse_error_template :
    Template.wf [200, 500, 800] { kind := 0x6#4, ch := 0xF#4, arg := .lit 1#32 } = false ∧
    Template.wf [1, 2, 1] { kind := 0x6#4, ch := 0xF#4, arg := .plusP } = false := by decide
theorem test_wf_refuses_signed_stop_template :
    Template.wf [200, 500, 800] { kind := 0x3#4, ch := 0x0#4, arg := .plusP } = false ∧
    Template.wf [200, 500, 800] { kind := 0x4#4, ch := 0xF#4, arg := .minusP } = false := by decide
/-- `AdjustRatePreset(+P)`: well formed exactly where every preset rate is below `NPRESET` (R100 item 5, R96, R211). -/
theorem test_wf_preset_template :
    [([1, 2, 1], TemplateArg.plusP), ([1], .plusP), ([1, 3, 1], .plusP), ([1, 2, 1], .minusP)].map
      (fun e => Template.wf e.1 { kind := 0x5#4, ch := 0xF#4, arg := e.2 }) = [true, false, false, false] := by decide

theorem test_dir_wf_refuses :
    [Instr.setRate 15#4 0#32, .setAbsoluteTarget 15#4 0#32, .stepRelative 15#4 0#32,
      .stepRelative 0#4 0x80000000#32, .stop 15#4, .adjustRatePreset 3#32, .parseError 0#32,
      .parseError 5#32, .fwd, .evOverflow].all (fun i => !i.dirWf 3) = true := by decide
theorem test_ev_wf_refuses :
    [Instr.evParseError 0#32, .evParseError 5#32, .evSavePos 15#4 0#32, .stopAll].all (fun i => !i.evWf) = true := by
  decide

/-- The decoder's states of the next two tests: outside a frame, in an empty one, in a full one. -/
def ctxOf (cfg : Config) (framing : Bool) (cursor : Nat) : Ctx := { cfg, framing, cursor, presetIdx := 0 }

theorem test_char_row_wf_refuses :
    [Instr.fwd, .rev, .left, .right, .stopKey, .stopSpace, .preset0, .preset1, .preset2, .query, .jogFwd, .jogRev,
      .home, .charUnmapped 0#8].all (fun i => !i.wf (ctxOf Config.rcB false 0)) &&
    [Instr.preset3, .preset4, .preset5, .preset6, .preset7, .preset8, .charUnmapped 0x77#8].all
      (fun i => !i.wf (ctxOf Config.rcA false 0)) = true := by decide
theorem test_frame_row_wf_refuses :
    [Instr.frameStart, .frameEnd, .frameBody 0x39#8, .frameOverflow 0x39#8, .frameIgnored 0x39#8,
      .frame t90c200].all (fun i => !i.wf (ctxOf Config.rcA true 0)) &&
    [Instr.frameEnd, .frameBody 0x39#8, .frameOverflow 0x39#8, .frameIgnored 0x3C#8, .frame [0x39#8],
      .frame (many 40 0x39#8)].all (fun i => !i.wf (ctxOf Config.rcB false 0)) &&
    [Instr.frameBody 0x3C#8, .frameBody 0x3E#8, .frameOverflow 0x39#8, .frameIgnored 0x39#8].all
      (fun i => !i.wf (ctxOf Config.rcB true 0)) &&
    !Instr.wf (ctxOf Config.rcB true 32) (.frameBody 0x39#8) = true := by decide

/-! ## Decoding of words written out from the spec (R95, R94, R97 to R104; spec/95 section 2.1) -/

theorem test_decode_char_rows :
    [0x57#8, 0x77#8, 0x53#8, 0x73#8, 0x41#8, 0x61#8, 0x44#8, 0x64#8, 0x58#8, 0x78#8, 0x20#8, 0x3F#8, 0x2B#8, 0x2D#8,
      0x48#8, 0x68#8].map (decodeByte (ctxOf Config.rcA false 0)) =
    [Instr.fwd, .fwd, .rev, .rev, .left, .left, .right, .right, .stopKey, .stopKey, .stopSpace, .query, .jogFwd,
      .jogRev, .home, .home].map (fun i => .ok [i]) := by decide
theorem test_decode_preset_rows :
    [0x31#8, 0x32#8, 0x33#8, 0x34#8, 0x35#8, 0x36#8, 0x37#8, 0x38#8, 0x39#8].map (decodeCharByte 9) =
    [Instr.preset0, .preset1, .preset2, .preset3, .preset4, .preset5, .preset6, .preset7, .preset8] := by decide
theorem test_decode_unmapped :
    [0x0D#8, 0x0A#8, 0x00#8, 0xFF#8, 0x3C#8, 0x34#8, 0x39#8].all
      (fun b => decodeByte (ctxOf Config.rcA false 0) b == .ok [.charUnmapped b]) = true := by decide
theorem test_decode_frame_rows :
    decodeFrameByte (ctxOf Config.rcB false 0) 0x3C#8 = .frameStart ∧
    decodeFrameByte (ctxOf Config.rcB false 0) 0x3E#8 = .frameIgnored 0x3E#8 ∧
    decodeFrameByte (ctxOf Config.rcB true 31) 0x39#8 = .frameBody 0x39#8 ∧
    decodeFrameByte (ctxOf Config.rcB true 32) 0x39#8 = .frameOverflow 0x39#8 ∧
    decodeFrameByte (ctxOf Config.rcB true 32) 0x3C#8 = .frameStart ∧
    decodeFrameByte (ctxOf Config.rcB true 32) 0x3E#8 = .frameEnd := by decide
theorem test_decode_whole_frame :
    decode (ctxOf Config.rcB false 0) (.bytes [0x3C#8, 0x39#8, 0x30#8, 0x2C#8, 0x32#8, 0x30#8, 0x30#8, 0x3E#8]) =
      .ok [.frame t90c200] := by decide
theorem test_decode_directive_words :
    [0x01000000C8#40, 0x100000005A#40, 0x20FFFFFFF6#40, 0x3100000000#40, 0x3F00000000#40, 0x4F00000000#40,
      0x5F00000002#40, 0x6F00000003#40].map (decodeDir 3) =
    [Instr.setRate 1#4 200#32, .setAbsoluteTarget 0#4 90#32, .stepRelative 0#4 (BitVec.ofInt 32 (-10)), .stop 1#4,
      .stopAll, .queryStatus, .adjustRatePreset 2#32, .parseError 3#32].map .ok := by decide
theorem test_decode_event_words :
    [0x1F00000001#40, 0x2F00000000#40, 0x3F00000000#40, 0x4F00000000#40, 0x500000000A#40].map decodeEv =
    [Instr.evParseError 1#32, .evOverflow, .evWdTimeout, .evStatus, .evSavePos 0#4 10#32].map .ok := by decide
theorem test_decode_refuses :
    decodeDir 3 0x7F00000000#40 = .error .reservedKind ∧ decodeDir 3 0x0F00000000#40 = .error .illFormedDirective ∧
    decodeDir 3 0x3100000001#40 = .error .illFormedDirective ∧ decodeEv 0x0F00000000#40 = .error .reservedEvent ∧
    decodeEv 0x6F00000001#40 = .error .reservedEvent ∧ decodeEv 0x1F00000005#40 = .error .illFormedEvent := by decide

/-- A deployment's own map (R96), for the two vectors of spec/95 that need one. -/
def rcMap : Config :=
  { Config.rcA with charMap := .custom [(0x71#8, [{ kind := 0x0#4, ch := 5#4, arg := .lit 100#32 }]),
      (0x77#8, [{ kind := 0x5#4, ch := 15#4, arg := .lit 2#32 }, { kind := 0x0#4, ch := 0#4, arg := .minusP }])] }

theorem test_decode_custom_entry :
    rcMap.wf = true ∧
    decodeByte (ctxOf rcMap false 0) 0x77#8 = .ok [.adjustRatePreset 2#32, .setRate 0#4 (BitVec.ofInt 32 (-200))] ∧
    decodeByte (ctxOf rcMap false 0) 0x20#8 = .ok [.charUnmapped 0x20#8] := by decide

/-- A map whose entry for `q` lists `QueryStatus` twice, and whose entry for `w` lists none. -/
def rcTwice : Config :=
  { Config.rcA with charMap := .custom [(0x71#8, List.replicate 2 { kind := 0x4#4, ch := 0xF#4, arg := .lit 0#32 }),
      (0x77#8, [{ kind := 0x0#4, ch := 0#4, arg := .plusP }])] }
/-- A map that selects presets by the present preset's rate. -/
def rcHop : Config :=
  { Config.rcA with
    presets := [1, 2, 1], field0 := { refField0 with kind := .setRate }
    charMap := .custom [(0x71#8, [{ kind := 0x5#4, ch := 0xF#4, arg := .plusP }])] }

theorem test_table_words :
    decodeTableWord 8 0x57 = some .fwd ∧ decodeTableWord 8 0x3E = some .frameEnd ∧
    decodeTableWord 40 0x01000000C8 = some (.setRate 1#4 200#32) ∧
    decodeTableWord 40 0x500000000A = some (.evSavePos 0#4 10#32) ∧
    decodeTableWord 40 0x2F00000000 = some .evOverflow := by decide

/-! ## Instructions (spec/95 part 2) -/

theorem test_fwd : ex .fwd sA (fun t => (rateOf 0 t, rateOf 1 t)) = some ((200, true, false), (200, true, false)) := by
  decide
theorem test_rev : ex .rev sA (fun t => (rateOf 0 t, rateOf 1 t)) = some ((-200, true, false), (-200, true, false)) := by
  decide
theorem test_left : ex .left sA (fun t => (rateOf 0 t, rateOf 1 t)) = some ((-200, true, false), (200, true, false)) := by
  decide
theorem test_right : ex .right sA (fun t => (rateOf 0 t, rateOf 1 t)) = some ((200, true, false), (-200, true, false)) := by
  decide
/-- In RC-B channel 0 is a servo and takes no rate (R289). -/
theorem test_fwd_on_servo : ex .fwd sB (fun t => (rateOf 0 t, rateOf 1 t, t.wd.armed)) =
    some ((0, false, false), (200, true, false), true) := by decide
theorem test_stopKey : ex .stopKey (withCh sK [resetChan (refServo [0] [0]) none, running 200 0 0]) (rateOf 1) =
    some (0, false, true) := by decide
theorem test_stopSpace : ex .stopSpace (withCh sA [running 200 3 0, running (-200) 5 0])
    (fun t => (rateOf 0 t, rateOf 1 t, (t.chan 0).phase, (t.chan 1).phase)) =
    some ((0, false, false), (0, false, false), 3#3, 5#3) := by decide
theorem test_preset0 : ex .preset0 (atTime sA 9) (fun t => (t.sq.presetIdx, t.wd)) =
    some (0#4, { armed := true, forced := false, lastValid := 9 }) := by decide
theorem test_preset1 : ex .preset1 sA (fun t => (t.sq.presetIdx, t.wd.armed)) = some (1#4, true) := by decide
theorem test_preset2 : ex .preset2 sA (fun t => (t.sq.presetIdx, t.wd.armed)) = some (2#4, true) := by decide
/-- Presets 3 to 8 are unmapped in RC-A. -/
theorem test_preset3_to_8 : [Instr.preset3, .preset4, .preset5, .preset6, .preset7, .preset8].map
    (fun i => ex i sA (fun t => (t.sq.presetIdx, t.wd.armed))) = List.replicate 6 (some (0#4, false)) := by decide
theorem test_preset8_with_nine : ex .preset8 { sA with cfg := { Config.rcA with presets := List.replicate 9 7 } }
    (fun t => (t.sq.presetIdx, t.wd.armed)) = some (8#4, true) := by decide
theorem test_query : ex .query sA (fun t => (events t, t.port.diag.map (·.snapshot))) = some ([0x4F00000000#40],
    [some { chans := [{ kind := .stepper, phase := 0#3, rate := 0#16, energized := false, brake := false, pos := 0#32,
                        moving := false, angle := 0#16 },
                      { kind := .stepper, phase := 0#3, rate := 0#16, energized := false, brake := false, pos := 0#32,
                        moving := false, angle := 0#16 }],
            armed := true, forced := false, presetIdx := 0#4, framing := false }]) := by decide
theorem test_jogFwd : ex .jogFwd sC (fun t => ((t.chan 0).target.toInt, (t.chan 0).moving, rateOf 0 t)) =
    some (10, true, 500, true, false) := by decide
theorem test_jogRev : ex .jogRev (withCh sC [{ zeroChan with pos := 5#32 }])
    (fun t => ((t.chan 0).target.toInt, (t.chan 0).moving, rateOf 0 t)) = some (-5, true, -500, true, false) := by decide
/-- A jog while moving keeps the anchor (spec/95 section 2.5). -/
theorem test_jogRev_while_moving : ex .jogRev (atTime sCm 900)
    (fun t => ((t.chan 0).target.toInt, (t.chan 0).rate.toInt, (t.chan 0).last)) = some (-6, -500, 7) := by decide
theorem test_home : ex .home (withCh sC [{ zeroChan with pos := 25#32 }])
    (fun t => ((t.chan 0).target.toInt, (t.chan 0).moving, rateOf 0 t)) = some (0, true, -500, true, false) := by decide
theorem test_home_at_zero : ex .home sC (fun t => ((t.chan 0).moving, rateOf 0 t, t.wd.armed)) =
    some (false, (0, false, false), true) := by decide
theorem test_charUnmapped : exec (.charUnmapped 0x3C#8) sA = .next sA := by rfl

theorem test_frameStart : ex .frameStart (sBody [0x39#8]) (fun t => (t.ps.framing, t.ps.cursor, events t)) =
    some (true, 0#8, [0x1F00000004#40]) := by decide
theorem test_frameStart_closed : ex .frameStart sB (fun t => (t.ps.framing, t.ps.cursor, events t)) =
    some (true, 0#8, []) := by decide
theorem test_frameEnd : ex .frameEnd (sBody t90c200)
    (fun t => (t.ps.framing, t.ps.cursor, (t.chan 0).angle, rateOf 1 t)) =
    some (false, 0#8, 90#16, 200, true, false) := by decide
/-- `<9a,1>` (spec/95 section 2.8). -/
theorem test_frameEnd_malformed : ex .frameEnd (sBody [0x39#8, 0x61#8, 0x2C#8, 0x31#8])
    (fun t => (events t, t.wd.armed, t.ps.framing)) = some ([0x1F00000003#40], false, false) := by decide
theorem test_frameBody : ex (.frameBody 0x2C#8) (sBody [0x39#8, 0x30#8]) (fun t => (t.ps.buf, t.ps.cursor)) =
    some ([(0, 0x39#8), (1, 0x30#8), (2, 0x2C#8)], 3#8) := by decide
theorem test_frameBody_full : exec (.frameBody 0x2C#8) (sBody (many 32 0x39#8)) = .fault .bufferIndex := by rfl
theorem test_frameOverflow : ex (.frameOverflow 0x39#8) (sBody (many 32 0x39#8))
    (fun t => (t.ps.framing, t.ps.cursor, events t, t.wd.armed)) = some (false, 0#8, [0x2F00000000#40], false) := by
  decide
theorem test_frameIgnored : exec (.frameIgnored 0x3E#8) sB = .next sB := by rfl
/-- `<200,500>` (W7). -/
theorem test_frame : ex (.frame [0x32#8, 0x30#8, 0x30#8, 0x2C#8, 0x35#8, 0x30#8, 0x30#8]) sB
    (fun t => ((t.chan 0).angle, rateOf 1 t, events t)) = some (135#16, (255, true, false), []) := by decide
/-- `<-300,-300>`. -/
theorem test_frame_negative :
    ex (.frame [0x2D#8, 0x33#8, 0x30#8, 0x30#8, 0x2C#8, 0x2D#8, 0x33#8, 0x30#8, 0x30#8]) sB
      (fun t => ((t.chan 0).angle, rateOf 1 t)) = some (45#16, -255, true, false) := by decide

theorem test_setRate : ex (.setRate 0#4 1500#32) (atTime sA 7) (fun t => (rateOf 0 t, (t.chan 0).last)) =
    some ((1000, true, false), 7) := by decide
/-- A change of a running channel's rate keeps the anchor. -/
theorem test_setRate_running : ex (.setRate 0#4 (BitVec.ofInt 32 (-800)))
    (atTime (withCh sA [running 200 0 100, zeroChan]) 4000) (fun t => (rateOf 0 t, (t.chan 0).last)) =
    some ((-800, true, false), 100) := by decide
theorem test_setAbsoluteTarget : ex (.setAbsoluteTarget 0#4 70000#32) sB
    (fun t => ((t.chan 0).angle, (t.chan 0).energized)) = some (65535#16, true) := by decide
theorem test_setAbsoluteTarget_same_place : ex (.setAbsoluteTarget 0#4 4#32) sCm
    (fun t => ((t.chan 0).moving, (t.chan 0).target, rateOf 0 t)) = some (false, 10#32, 0, false, false) := by decide
/-- `MAX_RUN = 5` (spec/95 section 2.5). -/
theorem test_stepRelative_cut :
    ex (.stepRelative 0#4 10#32) { sC with cfg := Config.rcCRun5 } (fun t => (t.chan 0).target) = some 5#32 := by decide
theorem test_stepRelative_wraps : ex (.stepRelative 0#4 1#32) (withCh sC [{ zeroChan with pos := 0x7FFFFFFF#32 }])
    (fun t => ((t.chan 0).target, (t.chan 0).rate.toInt)) = some (0x80000000#32, 500) := by decide
theorem test_stop : ex (.stop 1#4) (withCh sK [resetChan (refServo [0] [0]) none, running 200 0 0]) (rateOf 1) =
    some (0, false, true) := by decide
theorem test_stop_one_only : ex (.stop 1#4) (withCh sA [running 200 3 0, running (-200) 5 0])
    (fun t => (rateOf 0 t, rateOf 1 t)) = some ((200, true, false), 0, false, false) := by decide
theorem test_stopAll_releases_servo :
    ex .stopAll { sB with
        cfg := { Config.rcB with chans := [{ refServo [0] [0] with servoStop := .release }, refDc [1, 2] [1]] }
        ch := [{ zeroChan with angle := 100#16, energized := true }, running 200 0 0] }
      (fun t => ((t.chan 0).angle, (t.chan 0).energized, rateOf 1 t)) = some (100#16, false, 0, false, false) := by decide
theorem test_queryStatus : ex .queryStatus (atTime sA 12) (fun t => (events t, t.wd.lastValid)) =
    some ([0x4F00000000#40], 12) := by decide
theorem test_adjustRatePreset : ex (.adjustRatePreset 2#32) (withCh sA [running 200 0 0, running 200 0 0])
    (fun t => (t.sq.presetIdx, rateOf 0 t)) = some (2#4, 200, true, false) := by decide
theorem test_parseError : ex (.parseError 1#32) sB (fun t => (events t, t.wd.armed)) = some ([0x1F00000001#40], false) := by
  decide
theorem test_evParseError : ex (.evParseError 2#32) sB events = some [0x1F00000002#40] := by decide
theorem test_evOverflow : ex .evOverflow sB events = some [0x2F00000000#40] := by decide
theorem test_evWdTimeout : ex .evWdTimeout sB (fun t => (events t, t.wd.forced)) = some ([0x3F00000000#40], false) := by
  decide
theorem test_evStatus : ex .evStatus sB (fun t => (events t, t.wd.armed)) = some ([0x4F00000000#40], false) := by decide
theorem test_evSavePos : ex (.evSavePos 0#4 10#32) sC (fun t => (t.port.saves, events t)) =
    some ([0x500000000A#40], []) := by decide

/-! ## One pass (spec/95 parts 1 to 3) -/

/-- An entry that lists `QueryStatus` twice emits two `STATUS` events (R211; log 34). -/
theorem test_two_queries_of_one_byte :
    firstPass rcTwice 0 [0x71#8] events = some [0x4F00000000#40, 0x4F00000000#40] := by decide

/-- `AdjustRatePreset(+P)` as an entry: preset 0 has rate 1, preset 1 has rate 2 (R96, R211). -/
theorem test_preset_of_preset :
    rcHop.wf = true ∧ firstPass rcHop 0 [0x71#8] (fun t => t.sq.presetIdx) = some 1#4 ∧
    firstPass rcHop 0 [0x71#8, 0x71#8] (fun t => t.sq.presetIdx) = some 2#4 := by decide

/-- P1 at t=0: `'3' 'd'`. -/
theorem test_pass_pivot : firstPass Config.rcA 0 [0x33#8, 0x64#8]
    (fun t => (rateOf 0 t, rateOf 1 t, t.out.dig)) =
    some ((800, true, false), (-800, true, false), [true, false, false, false, true, false, false, false]) := by decide
/-- P6 at t=0: `'w' '?' 'x'`. -/
theorem test_pass_overwrite : firstPass Config.rcA 0 [0x77#8, 0x3F#8, 0x78#8]
    (fun t => (t.port.diag.map fun e => e.snapshot.map fun n => n.chans.map fun c => c.rate.toInt, t.out.dig)) =
    some ([some [200, 200]], List.replicate 8 false) := by decide
/-- P3 at t=0: an overflow, and the first commit's lines. -/
theorem test_pass_overflow : firstPass Config.rcB 0 (0x3C#8 :: many 33 0x39#8)
    (fun t => (events t, t.ps.framing, t.wd.armed, t.out)) =
    some ([0x2F00000000#40], false, false, { dig := [false, false, false], lvl := [90#16, 0#16] }) := by decide
/-- W5: garbage, then `<90,0>`. -/
theorem test_pass_garbage : firstPass Config.rcB 0
    [0x61#8, 0x62#8, 0x63#8, 0x3E#8, 0x2C#8, 0x31#8, 0x32#8, 0x0D#8, 0x0A#8, 0x3C#8, 0x39#8, 0x30#8, 0x2C#8, 0x30#8,
      0x3E#8] (fun t => (events t, t.out)) =
    some ([], { dig := [true, false, false], lvl := [90#16, 0#16] }) := by decide
/-- The tick vectors of spec/95 section 2.4. -/
theorem test_tick_vectors :
    let k := fun (r : Int) (p l now : Nat) =>
      let y := tickRegs 1000000 32 now (refStepper .half [0, 1, 2, 3]) (running r p l)
      (y.phase.toNat, y.last)
    k 800 0 0 1249 = (0, 0) ∧ k 800 0 0 1250 = (1, 1250) ∧ k 800 7 0 1250 = (0, 1250) ∧ k (-800) 0 0 1250 = (7, 1250) ∧
    k 800 2 0xFFFFFF00 0x400 = (3, 0x400) ∧ k 800 4 0 10000 = (5, 10000) ∧ k 3 0 0 333332 = (0, 0) ∧
    k 3 0 0 333333 = (1, 333333) ∧ k 1000 0 0 1000 = (1, 1000) ∧ k 0 5 0 9 = (5, 0) := by decide
/-- P4 at t=22000: the move completes, the lines go off, the position is saved. -/
theorem test_pass_move_completes :
    (nextOf (step sCdone)).map (fun t => (rateOf 0 t, (t.chan 0).phase, t.out.dig, t.port.saves)) =
    some ((0, false, false), 2#3, [false, false, false, false], [0x500000000A#40]) := by decide
/-- The mux vector of RC-A with channel 0 at phase 1 and channel 1 at phase 7 (spec/95 section 2.7). -/
theorem test_mux : muxOutputs (withCh sA [running 1 1 0, running 1 7 0]) =
    some ([true, true, false, false, true, false, false, true], []) := by decide
/-- The step fetches and runs a placed word. -/
theorem test_fetch_runs : (nextOf (step (State.reset.withFetchWord 40 0x00FFFFFCE0))).map (rateOf 0) =
    some (-800, true, false) := by decide
/-- A reserved word is refused when the step meets it (R101). -/
theorem test_fetch_refuses : step (State.reset.withFetchWord 40 0x7F00000000) = .refused .illFormedConfig := by rfl

/-! ## Witnesses: a concrete state and operands that meet each statement's hypotheses, at the ends of their ranges -/

/-- States in the middle of things: both wheels of RC-A running and armed; RC-B-BRK driving; a watchdog run out. -/
def sArun : State :=
  { withCh (atTime sA 500001) [running 200 3 0, running (-200) 5 0] with wd := { armed := true, forced := false, lastValid := 0 } }
def sTripped : State := { atTime sA 900000 with wd := { armed := true, forced := true, lastValid := 0 } }
def sKrun : State :=
  { withCh sK [{ zeroChan with angle := 100#16, energized := true }, { running 200 0 0 with last := 0 }] with
    wd := { armed := true, forced := false, lastValid := 0 } }
/-- The same states before a pass in which nothing arrives. -/
def passAt (s : State) (t : Nat) : State := { s with port := { s.port with inputs := [.pass t []] } }
/-- With bytes already in the FIFO. -/
def withRx (s : State) (bs : List Byte) : State := { s with port := { s.port with rx := bs } }
/-- The reference channels. -/
def ccA : ChanCfg := refStepper .half [0, 1, 2, 3]
def ccC : ChanCfg := { refStepper .full [0, 1, 2, 3] with trackPos := true, persist := true }
/-- A configuration with lines no channel drives. -/
def rcWide : Config := { Config.rcB with ndig := 4, nlvl := 3 }

theorem witness_DecodeEncodeRoundTrip :
    Config.rcA.wf = true ∧ Config.rcB.wf = true ∧
    [Instr.fwd, .preset0, .preset2, .charUnmapped 0x0#8, .charUnmapped 0xFF#8, .setRate 0#4 0x80000000#32,
      .setRate 14#4 0x7FFFFFFF#32, .setAbsoluteTarget 14#4 0xFFFFFFFF#32, .stepRelative 14#4 0x80000001#32, .stop 14#4,
      .stopAll, .queryStatus, .adjustRatePreset 2#32, .parseError 1#32, .parseError 4#32, .evParseError 4#32,
      .evSavePos 14#4 0x80000000#32].all (fun i => i.wf (ctxOf Config.rcA false 0)) = true ∧
    [Instr.frameStart, .frameEnd, .frameBody 0x0#8, .frameBody 0xFF#8].all
      (fun i => i.wf (ctxOf Config.rcB true 31)) = true ∧
    Instr.wf (ctxOf Config.rcB true 32) (.frameOverflow 0x0#8) = true ∧
    [Instr.frameIgnored 0x3E#8, .frame [0x30#8, 0x2C#8, 0x30#8], .frame (many 15 0x39#8 ++ 0x2C#8 :: many 16 0x39#8)].all
      (fun i => i.wf (ctxOf Config.rcB false 0)) = true := by decide
theorem witness_DirectiveWordsHaveOneMeaning :
    decodeDir 3 0x0EFFFFFFFF#40 = .ok (.setRate 14#4 0xFFFFFFFF#32) ∧ decodeDir 3 0x3F00000000#40 = .ok .stopAll := by
  decide
theorem witness_ReservedAndIllFormedWordsRefused :
    (7 ≤ (wordKind 0x7F00000000#40).toNat ∧ 7 ≤ (wordKind 0xFFFFFFFFFF#40).toNat) ∧
    [0x0F00000000#40, 0x1F00000000#40, 0x2F00000000#40, 0x2080000000#40, 0x3000000001#40, 0x4000000000#40,
      0x5F00000003#40, 0x6F00000000#40, 0x6F00000005#40].all
      (fun w => !dirFieldsWf 3 (wordKind w) (wordCh w) (wordArg w)) = true := by decide

theorem witness_ReferenceByteMap :
    (ctxOf Config.rcA false 0).cfg.protocol = .char ∧ (ctxOf Config.rcA false 0).cfg.charMap = .default ∧
    (byteRows 3).lookup 0x73#8 = some .rev ∧ (byteRows 3).lookup 0x33#8 = some .preset2 ∧
    (byteRows 3).lookup 0x34#8 = none ∧ (byteRows 9).lookup 0x39#8 = some .preset8 := by decide
/-- Two bytes arrive at the first pass after reset; a replaced map has an entry with a literal and one with `-P`, and a
byte with none; the least and the last preset index; `AdjustRatePreset(+P)`. -/
theorem witness_StepRunsDecodedByte :
    (let s := State.resetOf Config.rcA [] [.pass 5 [0x33#8, 0x77#8]] 0
     s.cfg.wf = true ∧ s.port.inputs = .pass 5 [0x33#8, 0x77#8] :: [] ∧
     (arrive [0x33#8, 0x77#8] s).port.rx = 0x33#8 :: [0x77#8] ∧ decodeByte s.ctx 0x33#8 = .ok [.preset2]) ∧
    (rcMap.wf = true ∧ rcMap.protocol = .char ∧
      (∃ entries, rcMap.charMap = .custom entries ∧ entries.lookup 0x20#8 = none ∧
        (entries.lookup 0x77#8).map (List.map (templateInstr 800)) =
          some [.adjustRatePreset 2#32, .setRate 0#4 (BitVec.ofInt 32 (-800))]) ∧
      rcMap.presets[0]? = some 200 ∧ rcMap.presets[2]? = some 800) ∧
    (rcHop.wf = true ∧ decodeByte (ctxOf rcHop false 0) 0x71#8 = .ok [.adjustRatePreset 1#32]) := by
  refine ⟨by decide, ⟨by decide, by decide, ⟨_, rfl, by decide, by decide⟩, by decide, by decide⟩, by decide⟩
theorem witness_RefusedConfigAndPowerCycle :
    Config.wf { Config.rcA with chans := [] } = false ∧
    sC.cfg.wf = true ∧
    ({ sC with port := { sC.port with inputs := [.powerCycle [some (-7)]] } } : State).port.inputs =
      .powerCycle [some (-7)] :: [] := by decide
theorem witness_ResetValues :
    Config.rcB.chans[0]? = some (refServo [0] [0]) ∧ (refServo [0] [0]).kind = .servo ∧
    Config.rcB.chans[1]? = some (refDc [1, 2] [1]) := by decide
/-- The three rows of spec/95 section 2.11: a loaded position, a negative one, and no entry. -/
theorem witness_ResetLoadsPositions :
    Config.rcC.wf = true ∧ Config.rcC.chans[0]? = some ccC ∧ ccC.persist = true ∧
    ((State.resetOf Config.rcC [some 42] [] 0).chan 0).pos = 42#32 ∧
    ((State.resetOf Config.rcC [some (-7)] [] 0).chan 0).pos.toInt = -7 ∧
    ((State.resetOf Config.rcC [none] [] 0).chan 0).pos = 0#32 := by decide
theorem witness_InvariantAtEveryReset : Config.rcBBrk.wf = true ∧ Config.rcC.wf = true := by decide
/-- A step that takes `w`; a move in progress within the 32-bit range; the same with the byte of `HOME` waiting, which
starts a move, but no relative one. -/
theorem witness_StepKeepsInvariant :
    (Inv (withRx (passAt sArun 400000) [0x77#8]) ∧ ∃ t, step (withRx (passAt sArun 400000) [0x77#8]) = .next t) ∧
    (Inv sCm ∧ (sCm.chan 0).moving = true ∧ (sCm.chan 0).pos ≠ (sCm.chan 0).target ∧
      In32 ((sCm.chan 0).target.toInt - (sCm.chan 0).pos.toInt) ∧ sCm.cfg.chans[0]? = some ccC) ∧
    (Inv (withRx (passAt sCm 2000) [0x48#8]) ∧ MovesAsWritten (withRx (passAt sCm 2000) [0x48#8]) ∧
      (∃ t, step (withRx (passAt sCm 2000) [0x48#8]) = .next t) ∧
      ∀ b ∈ (withRx (passAt sCm 2000) [0x48#8]).port.rx ++ arriving (withRx (passAt sCm 2000) [0x48#8]),
        ∀ (x : Ctx) (is : List Instr), x.cfg = sCm.cfg → decodeByte x b = .ok is → ∀ i ∈ is, startsRelative i = false) := by
  refine ⟨⟨by decide, next_of_isSome (by decide)⟩, by decide, by decide, by decide, next_of_isSome (by decide), ?_⟩
  intro b hb x is hx h i hi
  have e : b = 0x48#8 := by simpa [withRx, passAt, arriving] using hb
  have hd : decodeByte x b = .ok [.home] := by unfold decodeByte; rw [hx, e]; rfl
  rw [hd] at h; cases h
  rw [List.mem_singleton.mp hi]; rfl
theorem witness_StepNeverStops : Inv sCm ∧ Inv sKrun ∧ Inv (withRx (sBody t90c200) [0x3E#8]) := by decide
/-- An instruction that starts an absolute move; a relative move that ends on 2^31 - 1, and one that ends past it. -/
theorem witness_InstructionsKeepSound :
    (Sound sCm ∧ (∃ t, exec .jogRev sCm = .next t) ∧ MovesAsWritten sCm ∧ startsRelative .home = false ∧
      ∃ t, exec .home sCm = .next t) ∧
    (∃ t, exec (.stepRelative 0#4 0x7FFFFFFB#32) sCm = .next t) ∧
    In32 ((sCm.chan 0).pos.toInt + cutRun ccC.maxRun (0x7FFFFFFB#32 : Arg32).toInt) ∧
    (∃ t, exec (.stepRelative 0#4 0x7FFFFFFC#32) sCm = .next t) ∧
    ¬ In32 ((sCm.chan 0).pos.toInt + cutRun ccC.maxRun (0x7FFFFFFC#32 : Arg32).toInt) :=
  ⟨⟨by decide, next_of_isSome (by decide), by decide, by decide, next_of_isSome (by decide)⟩,
    next_of_isSome (by decide), by decide, next_of_isSome (by decide), by decide⟩
/-- An instruction and a step of each kind; a byte of each protocol and map, with no event, one and two; a pass in which
the watchdog trips, and one at `TIMEOUT` exactly. -/
theorem witness_InstructionsLeaveConfigAndLines :
    ((∃ t, exec (.frame t90c200) sB = .next t) ∧ (∃ t, step (passAt sArun 1) = .next t) ∧
      ∃ t, step { sA with port := { sA.port with inputs := [.powerCycle []] } } = .next t) ∧
    (sB.cfg.wf = true ∧ sB.cfg.protocol = .frame ∧ sA.cfg.wf = true ∧ sA.cfg.charMap = .default ∧
      (nextOf (execByte 0x3C#8 (sBody [0x39#8]))).map events = some [0x1F00000004#40] ∧
      (nextOf (execByte 0x3F#8 sA)).map events = some [0x4F00000000#40]) ∧
    (rcTwice.wf = true ∧ rcTwice.protocol = .char ∧
      [0x71#8, 0x77#8, 0x20#8].map (fun b => (nextOf (execByte b { sA with cfg := rcTwice })).map (·.port.diag.length)) =
        [some 2, some 0, some 0]) ∧
    (passAt sArun 500001).port.inputs = .pass 500001 [] :: [] ∧
    (nextOf (step (passAt sArun 500001))).map events = some [0x3F00000000#40] ∧
    (nextOf (step (passAt sArun 500000))).map events = some [] :=
  ⟨⟨next_of_isSome (by decide), next_of_isSome (by decide), next_of_isSome (by decide)⟩, by decide, by decide, by decide,
    by decide, by decide⟩
theorem witness_CharModeLeavesParser :
    sArun.cfg.protocol = .char ∧ NoPowerCycle (passAt sArun 1) ∧ sArun.ps = State.reset.ps ∧
    (∃ t, step (passAt sArun 1) = .next t) ∧
    ∃ t, step { sA with port := { sA.port with inputs := [.powerCycle []] } } = .next t :=
  ⟨by decide, (by intro a h; cases h), by decide, next_of_isSome (by decide), next_of_isSome (by decide)⟩
theorem witness_ArmedUntilReset :
    NoPowerCycle (passAt sArun 700000) ∧ sArun.wd.armed = true ∧ ∃ t, step (passAt sArun 700000) = .next t :=
  ⟨(by intro a h; cases h), by decide, next_of_isSome (by decide)⟩

/-- Channel 0 is a stepper of RC-A, channel 1 a DC channel of RC-B-BRK; the argument ranges over 0, the least and the
greatest value, and both signs, from rest and running. -/
theorem witness_SetRateResult :
    Sound sA ∧ Sound sArun ∧ Sound sKrun ∧ sA.cfg.chans[(0#4).toNat]? = some ccA ∧ ccA.kind ≠ .servo ∧
    sKrun.cfg.chans[(1#4).toNat]? = some { refDc [1, 2] [1] with brake := true, brakePwm := some 0#16 } ∧
    [0#32, 1#32, 0x7FFFFFFF#32, 0x80000000#32, 0xFFFFFFFF#32].map (fun a => ex (.setRate 0#4 a) sA (rateOf 0)) =
      [some (0, false, false), some (1, true, false), some (1000, true, false), some (-1000, true, false),
        some (-1, true, false)] := by decide
/-- Every clause, at a channel that exists and at the greatest channel number. -/
theorem witness_UnsupportedDirectiveOnlyRefreshes :
    Sound sB ∧ Sound sA ∧ (14#4).toNat ≤ 14 ∧
    (∀ cc, sB.cfg.chans[(0#4).toNat]? = some cc → cc.kind = .servo) ∧
    (∀ cc, sA.cfg.chans[(1#4).toNat]? = some cc → cc.kind ≠ .servo ∧ cc.trackPos = false) ∧
    (∀ cc, sA.cfg.chans[(0#4).toNat]? = some cc → cc.trackPos = false) ∧ (0x80000001#32 : Arg32) ≠ 0x80000000#32 ∧
    sA.cfg.chans[(14#4).toNat]? = none ∧ sA.cfg.chans[(2#4).toNat]? = none := by
  refine ⟨by decide, by decide, by decide, ?_, ?_, ?_, by decide, by decide, by decide⟩ <;>
    intro cc h <;> (rw [← Option.some.inj h]) <;> decide
theorem witness_ServoTargetResult :
    Sound sB ∧ sB.cfg.chans[(0#4).toNat]? = some (refServo [0] [0]) ∧ (refServo [0] [0]).kind = .servo ∧
    [0x80000000#32, 0xFFFFFFFF#32, 0#32, 65535#32, 65536#32].map
      (fun a => ex (.setAbsoluteTarget 0#4 a) sB (fun t => (t.chan 0).angle)) =
      [some 0#16, some 0#16, some 0#16, some 65535#16, some 65535#16] := by decide
/-- A target equal to the position, and the ends of the range. -/
theorem witness_MoveToTargetResult :
    Sound sCm ∧ sCm.cfg.chans[(0#4).toNat]? = some ccC ∧ ccC.trackPos = true ∧
    [4#32, 5#32, 0x7FFFFFFF#32, 0x80000000#32].map
      (fun a => ex (.setAbsoluteTarget 0#4 a) sCm (fun t => ((t.chan 0).rate.toInt, (t.chan 0).target.toInt))) =
      [some (0, 10), some (500, 5), some (500, 2147483647), some (-500, -2147483643)] := by decide
theorem witness_StepRelativeResult :
    Sound sCm ∧ sCm.cfg.chans[(0#4).toNat]? = some ccC ∧ ccC.trackPos = true ∧
    (0#32 : Arg32) ≠ 0x80000000#32 ∧ (0x80000001#32 : Arg32) ≠ 0x80000000#32 ∧
    [0#32, 1#32, 0x80000001#32].map
      (fun a => ex (.stepRelative 0#4 a) sCm (fun t => ((t.chan 0).rate.toInt, (t.chan 0).target.toInt))) =
      [some (0, 10), some (500, 5), some (-500, -2147483643)] := by decide
/-- A stepper, a DC channel that may brake, and a servo. -/
theorem witness_StopResult :
    Sound sArun ∧ sArun.cfg.chans[(0#4).toNat]? = some ccA ∧ Sound sKrun ∧
    sKrun.cfg.chans[(1#4).toNat]? = some { refDc [1, 2] [1] with brake := true, brakePwm := some 0#16 } ∧
    sKrun.cfg.chans[(0#4).toNat]? = some (refServo [0] [0]) := by decide
theorem witness_StopAllResult : Sound sKrun ∧ sKrun.cfg.chans[0]? = some (refServo [0] [0]) := by decide
theorem witness_AdjustRatePresetResult :
    Sound sArun ∧ (0#32 : Arg32).toNat < sArun.cfg.npreset ∧ (2#32 : Arg32).toNat < sArun.cfg.npreset := by decide
theorem witness_ParseErrorResult :
    1 ≤ (1#32 : Arg32).toNat ∧ (1#32 : Arg32).toNat ≤ 4 ∧ 1 ≤ (4#32 : Arg32).toNat ∧ (4#32 : Arg32).toNat ≤ 4 := by
  decide
theorem witness_IllFormedWordsRefused :
    ((14#4 : BitVec 4) = 0xF#4 ∨ (0x80000000#32 : Arg32) = 0x80000000#32) ∧ sA.cfg.npreset ≤ (3#32 : Arg32).toNat ∧
    ((0#32 : Arg32).toNat = 0 ∨ 5 ≤ (0#32 : Arg32).toNat) ∧
    ((5#32 : Arg32).toNat = 0 ∨ 5 ≤ (5#32 : Arg32).toNat) := by decide
theorem witness_EventRowsResult :
    1 ≤ (1#32 : Arg32).toNat ∧ (4#32 : Arg32).toNat ≤ 4 ∧ (0#4 : BitVec 4).toNat ≤ 14 ∧ (14#4 : BitVec 4).toNat ≤ 14 := by
  decide

/-- The fault's clause is met in a state that no run reaches. -/
theorem witness_DriveCommandsApplyTheirPair :
    (Instr.left, (-1 : Int), (1 : Int)) ∈ driveRows ∧ Sound sA ∧
    sA.cfg.npreset ≤ ({ sA with sq := { sA.sq with presetIdx := 3#4 } } : State).sq.presetIdx.toNat := by decide
/-- The last preset there is and the first there is not. -/
theorem witness_PresetCommandsSelect :
    Sound sA ∧ (Instr.preset2, 2) ∈ presetRows ∧ 2 < sA.cfg.npreset ∧ (Instr.preset3, 3) ∈ presetRows ∧
    sA.cfg.npreset ≤ 3 := by decide
theorem witness_JogAndHomeApplyTheirDirective : Sound sCm ∧ Sound sA := by decide
theorem witness_DroppedBytesChangeNothing :
    sA.cfg.protocol = .char ∧ sA.ctx.unmapped 0x34#8 = true ∧ sB.cfg.protocol = .frame ∧ sB.ps.framing = false ∧
    (0x3E#8 : Byte) ≠ sB.cfg.startB := by decide
theorem witness_OnlyValidDirectivesRefresh :
    neverRefreshes (.parseError 1#32) = true ∧ (∃ t, exec (.parseError 1#32) sB = .next t) ∧
    neverRefreshes .frameStart = true ∧ (∃ t, exec .frameStart (sBody [0x39#8]) = .next t) ∧
    bodyOk (sBody [0x39#8]).cfg.sepB (bufBody (sBody [0x39#8])) = false ∧
    ∃ t, exec .frameEnd (sBody [0x39#8]) = .next t :=
  ⟨by decide, next_of_isSome (by decide), by decide, next_of_isSome (by decide), by decide, next_of_isSome (by decide)⟩

/-- The empty frame, the last free place, and the full buffer. -/
theorem witness_FrameBodyStoresAtCursor :
    (Sound (sBody []) ∧ (sBody []).ps.cursor.toNat < (sBody []).cfg.cap) ∧
    (Sound (sBody (many 31 0x39#8)) ∧ (sBody (many 31 0x39#8)).ps.cursor.toNat < Config.rcB.cap) ∧
    (Sound (sBody (many 32 0x39#8)) ∧ Config.rcB.cap ≤ (sBody (many 32 0x39#8)).ps.cursor.toNat) := by decide
/-- One body for each reason, and an empty frame. -/
theorem witness_MalformedFrameOnlyReports :
    [([], 1#32), ([0x2C#8, 0x2C#8], 1#32), ([0x2C#8, 0x35#8], 2#32), ([0x39#8, 0x2C#8], 2#32),
      ([0x2D#8, 0x2C#8, 0x35#8], 3#32), ([0x39#8, 0x2C#8, 0x2B#8], 3#32)].all
      (fun e => !bodyOk 0x2C#8 (bufBody (sBody e.1)) && malformedReason 0x2C#8 (bufBody (sBody e.1)) == e.2) = true := by
  decide
theorem witness_WellFormedFrameAppliesBoth :
    Sound (sBody t90c200) ∧ (sBody t90c200).cfg.protocol = .frame ∧
    bodyOk (sBody t90c200).cfg.sepB (bufBody (sBody t90c200)) = true := by decide
/-- A body of exactly `CAP` bytes, from an open frame. -/
theorem witness_FrameResynchronises :
    Sound (sBody [0x39#8]) ∧ (sBody [0x39#8]).cfg.protocol = .frame ∧
    bodyOk Config.rcB.sepB (many 15 0x39#8 ++ 0x2C#8 :: many 16 0x39#8) = true ∧
    (many 15 0x39#8 ++ 0x2C#8 :: many 16 0x39#8).length = Config.rcB.cap ∧ t90c200.length ≤ Config.rcB.cap := by decide
theorem witness_FrameInFifoRunsComposite : sB.cfg.protocol = .frame := by decide
theorem witness_GarbageOutsideFrameIgnored :
    sB.cfg.protocol = .frame ∧ sB.ps.framing = false ∧ ∀ b ∈ [0x3E#8, 0x39#8, 0x0D#8], b ≠ sB.cfg.startB := by decide

theorem witness_FullCycleReturnsPhase :
    (running 500 7 0).phase.toNat < ccA.phases ∧ (running 500 7 0).rate.toInt ≠ 0 ∧
    (running (-1) 0 0).phase.toNat < ccC.phases ∧ (running (-1) 0 0).rate.toInt ≠ 0 := by decide
theorem witness_ElapsedTimeSurvivesWrap : 0 < 2 ^ 32 ∧ 2 ^ 32 - 1 < 2 ^ 32 ∧ 255 < 2 ^ 8 := by decide
/-- A channel at rest, one whose step is not due, one just due, and one whose move is done. -/
theorem witness_TickOfOneChannel :
    (zeroChan.rate.toInt = 0 ∧ (refDc [1, 2] [1]).kind ≠ .stepper) ∧
    (ccA.kind = .stepper ∧ (running 800 7 0).rate.toInt ≠ 0 ∧ (running 800 7 0).phase.toNat < ccA.phases ∧
      wsub 32 1249 0 < 1000000 / (running 800 7 0).rate.toInt.natAbs ∧
      1000000 / (running 800 7 0).rate.toInt.natAbs ≤ wsub 32 1250 0 ∧
      ¬ ((running 800 7 0).moving = true ∧ (running 800 7 0).pos = (running 800 7 0).target)) ∧
    (1000000 / (sCdone.chan 0).rate.toInt.natAbs ≤ wsub 32 22000 (sCdone.chan 0).last ∧
      (sCdone.chan 0).moving = true ∧ (sCdone.chan 0).pos = (sCdone.chan 0).target) := by decide
/-- Every reason for no trip, the elapsed time at `TIMEOUT` exactly, with running channels; and a channel of each state. -/
theorem witness_TicksAreIndependent :
    (Sound sArun ∧ sArun.cfg.chans[1]? = some (refStepper .half [4, 5, 6, 7])) ∧
    (Inv (passAt sA 7) ∧ (passAt sA 7).port.inputs = .pass 7 [] :: [] ∧ (passAt sA 7).port.rx = [] ∧
      sA.wd.armed = false ∧ sA.cfg.chans[0]? = some ccA) ∧
    (Inv (passAt sTripped 900000) ∧ (passAt sTripped 900000).port.rx = [] ∧ sTripped.wd.forced = true) ∧
    (Inv (passAt sArun 500000) ∧ (passAt sArun 500000).port.inputs = .pass 500000 [] :: [] ∧
      (passAt sArun 500000).port.rx = [] ∧
      wsub sArun.cfg.tsW (500000 % 2 ^ sArun.cfg.tsW) sArun.wd.lastValid = sArun.cfg.timeout ∧
      1000000 / (sArun.chan 1).rate.toInt.natAbs ≤ 500000) := by decide
/-- A move by two steps back at RC-C, each tick due by the interval of 2000 exactly. -/
theorem witness_MoveEndsOnTarget :
    ccC.kind = .stepper ∧ ccC.trackPos = true ∧ ccC.wfRates = true ∧ (-2 : Int) ≠ 0 ∧ (-2 : Int).natAbs ≤ ccC.maxRun ∧
    [2000, 4000].length = (-2 : Int).natAbs ∧
    eachDue 32 (1000000 / ccC.moveRate) (startMoveRegs 0 (-2) ccC zeroChan).last ([2000, 4000] ++ [6000]) := by
  refine ⟨by decide, by decide, by decide, by decide, by decide, by decide, ?_⟩
  exact ⟨by decide, by decide, by decide, trivial⟩

theorem witness_WatchdogComparisonIsStrict :
    wsub 32 (atTime sArun 500000).sq.now sArun.wd.lastValid = sArun.cfg.timeout ∧
    wsub 32 (atTime sArun 500001).sq.now sArun.wd.lastValid = sArun.cfg.timeout + 1 ∧ sArun.wd.armed = true ∧
    sArun.wd.forced = false := by decide
/-- Unarmed; tripped; armed with nothing and with exactly `TIMEOUT` elapsed; due at `TIMEOUT + 1`. -/
theorem witness_WatchdogTripStopsEveryChannel :
    (Sound sA ∧ sA.wd.armed = false) ∧ (Sound sTripped ∧ sTripped.wd.forced = true) ∧
    (Sound (atTime sArun 0) ∧ wsub 32 (atTime sArun 0).sq.now sArun.wd.lastValid ≤ sArun.cfg.timeout) ∧
    (Sound (atTime sArun 500000) ∧ wsub 32 (atTime sArun 500000).sq.now sArun.wd.lastValid = sArun.cfg.timeout) ∧
    (Sound sArun ∧ sArun.wd.armed = true ∧ sArun.wd.forced = false ∧
      sArun.cfg.timeout < wsub sArun.cfg.tsW sArun.sq.now sArun.wd.lastValid ∧ sArun.cfg.chans[0]? = some ccA) := by
  decide
theorem witness_TripPreventsAdvance : Sound sArun ∧ wdDue sArun = true := by decide
theorem witness_SilentHostStopsTheBlock :
    Inv (passAt sKrun 500001) ∧ (passAt sKrun 500001).port.inputs = .pass 500001 [] :: [] ∧ sKrun.port.rx = [] ∧
    sKrun.wd.armed = true ∧ sKrun.cfg.timeout < wsub sKrun.cfg.tsW (500001 % 2 ^ sKrun.cfg.tsW) sKrun.wd.lastValid ∧
    sKrun.cfg.chans[1]? = some { refDc [1, 2] [1] with brake := true, brakePwm := some 0#16 } ∧
    Inv (passAt sArun 500001) ∧ sArun.wd.armed = true ∧
    sArun.cfg.timeout < wsub sArun.cfg.tsW (500001 % 2 ^ sArun.cfg.tsW) sArun.wd.lastValid ∧
    sArun.cfg.chans[0]? = some ccA ∧ (sArun.chan 0).rate.toInt ≠ 0 := by decide

/-- Two states that agree in their configuration and in what feeds the lines alone: the timestamp, the FIFO, and the
channel's `last`, position, target and move flag differ. -/
theorem witness_LinesDependOnChannelsOnly :
    let s := sCm
    let t := withCh (atTime (withRx sC [0x77#8]) 9) [{ running 500 0 8 with pos := 5#32, target := 11#32 }]
    s.cfg = t.cfg ∧ s.cfg.nch = 1 ∧
    ((s.chan 0).phase = (t.chan 0).phase ∧ (s.chan 0).rate = (t.chan 0).rate ∧
      (s.chan 0).energized = (t.chan 0).energized ∧ (s.chan 0).brake = (t.chan 0).brake ∧
      (s.chan 0).angle = (t.chan 0).angle) ∧
    (s.chan 0).last ≠ (t.chan 0).last ∧ (s.chan 0).pos ≠ (t.chan 0).pos ∧ (s.chan 0).target ≠ (t.chan 0).target ∧
    (s.chan 0).moving ≠ (t.chan 0).moving := by decide
/-- RC-B-BRK running, and RC-B with a digital line and a level that no channel drives. -/
theorem witness_CommitDrivesEveryLine :
    Inv (passAt sKrun 1) ∧ NoPowerCycle (passAt sKrun 1) ∧ (∃ t, step (passAt sKrun 1) = .next t) ∧
    Inv (State.resetOf rcWide [] [.pass 0 []] 0) ∧ 3 < rcWide.ndig ∧ 2 < rcWide.nlvl ∧
    (∀ cc ∈ rcWide.chans, 3 ∉ cc.digMap) ∧ (∀ cc ∈ rcWide.chans, 2 ∉ cc.lvlMap) ∧
    (refDc [1, 2] [1]).digMap[0]? = some 1 ∧ (refDc [1, 2] [1]).digMap[1]? = some 2 ∧
    (refDc [1, 2] [1]).lvlMap[0]? = some 1 :=
  ⟨by decide, (by intro a h; cases h), next_of_isSome (by decide), by decide, by decide, by decide, by decide, by decide,
    by decide, by decide, by decide⟩
/-- A trip brakes channel 1 of RC-B-BRK: its rate is 0, its brake on. -/
theorem witness_RateZeroReleasesLines :
    Inv (passAt sKrun 500001) ∧
    (nextOf (step (passAt sKrun 500001))).map (fun t => (rateOf 1 t, t.cfg.chans[1]?, t.out.dig)) =
      some ((0, false, true), some { refDc [1, 2] [1] with brake := true, brakePwm := some 0#16 }, [true, true, true]) ∧
    Inv sA ∧ (sA.chan 0).rate.toInt = 0 ∧ (sA.chan 0).brake = false := by decide
/-- An empty FIFO and a full one. -/
theorem witness_FullFifoLosesBytes :
    sA.port.rx.length ≤ sA.cfg.rxDepth ∧ (withRx sA (many 64 0x77#8)).port.rx.length ≤ sA.cfg.rxDepth := by decide

/-- The pass in which program P4's move completes. -/
theorem witness_SavesFollowStops :
    Inv sCdone ∧ NoPowerCycle sCdone ∧ (∃ t, step sCdone = .next t) ∧ energizedFlags sCdone = [true] :=
  ⟨by decide, (by intro a h; cases h), next_of_isSome (by decide), by decide⟩

/-- The state that refutes `MoveDirectionWithoutWrap` meets its hypotheses: a move whose target has wrapped. -/
def sWrapped : State :=
  passAt (withCh sC [{ running 500 0 0 with pos := 0x7FFFFFFF#32, target := 0x80000000#32, moving := true }]) 0
theorem witness_MoveDirectionWithoutWrap :
    Inv sWrapped ∧ (nextOf (step sWrapped)).map (fun t => ((t.chan 0).moving, t.cfg.chans[0]?)) =
      some (true, some ccC) := by decide

end Sys2Proof.Tests
end

/-! SUPPORT AND PROOFS. The scope of the block (spec/00): what every instruction leaves alone, how many events one
instruction and one input byte cause, what the stages after the drain stage add, and the two statements settled from
these. -/

section
namespace Sys2Proof.Machine

/-! ## What every instruction leaves alone -/

/-- What no instruction changes: the configuration, the lines, the stage, the pass timestamp, the FIFO, the inputs to
come and the counter of free timestamps; and the two logs only grow (R49, R51, R285). -/
structure InstrFrame (s t : State) : Prop where
  cfg : t.cfg = s.cfg
  out : t.out = s.out
  stage : t.sq.stage = s.sq.stage
  now : t.sq.now = s.sq.now
  rx : t.port.rx = s.port.rx
  inputs : t.port.inputs = s.port.inputs
  draws : t.port.draws = s.port.draws
  diag : s.port.diag <+: t.port.diag
  saves : s.port.saves <+: t.port.saves

theorem InstrFrame.refl (s : State) : InstrFrame s s :=
  ⟨rfl, rfl, rfl, rfl, rfl, rfl, rfl, List.prefix_refl _, List.prefix_refl _⟩

theorem InstrFrame.trans {s t u : State} (h : InstrFrame s t) (k : InstrFrame t u) : InstrFrame s u where
  cfg := k.cfg.trans h.cfg
  out := k.out.trans h.out
  stage := k.stage.trans h.stage
  now := k.now.trans h.now
  rx := k.rx.trans h.rx
  inputs := k.inputs.trans h.inputs
  draws := k.draws.trans h.draws
  diag := h.diag.trans k.diag
  saves := h.saves.trans k.saves

/-- A change of the banks, the parser, the watchdog and the preset index alone is within the frame. -/
theorem InstrFrame.of_eq {s t : State} (hcfg : t.cfg = s.cfg) (hout : t.out = s.out)
    (hstage : t.sq.stage = s.sq.stage) (hnow : t.sq.now = s.sq.now) (hport : t.port = s.port) : InstrFrame s t where
  cfg := hcfg
  out := hout
  stage := hstage
  now := hnow
  rx := by rw [hport]
  inputs := by rw [hport]
  draws := by rw [hport]
  diag := by rw [hport]
  saves := by rw [hport]

theorem emit_instrFrame (e : DiagEntry) (s : State) : InstrFrame s (emit e s) :=
  ⟨rfl, rfl, rfl, rfl, rfl, rfl, rfl, List.prefix_append _ _, List.prefix_refl _⟩

theorem save_instrFrame (c : BitVec 4) (p : BitVec 32) (s : State) : InstrFrame s (save c p s) :=
  ⟨rfl, rfl, rfl, rfl, rfl, rfl, rfl, List.prefix_refl _, List.prefix_append _ _⟩

theorem updChan_instrFrame (c : Nat) (f : ChanCfg → ChanRegs → ChanRegs) (s : State) :
    InstrFrame s (updChan c f s) :=
  .of_eq (by simp) (by simp) (by simp) (by simp) (by simp)

theorem stopEvery_instrFrame (s : State) : InstrFrame s (stopEvery s) := by
  obtain ⟨hcfg, -, -, hsq, hout, hport, -⟩ := stopEvery_fields s
  exact .of_eq hcfg hout (by rw [hsq]) (by rw [hsq]) hport

theorem applyValid_instrFrame {ok : Bool} {f : State → State} {s t : State} (h : applyValid ok f s = .next t)
    (hf : ∀ u, InstrFrame u (f u)) : InstrFrame s t := by
  obtain ⟨-, rfl⟩ := applyValid_eq_next.mp h
  exact InstrFrame.trans (t := wdRefresh s) (.of_eq rfl rfl rfl rfl rfl) (hf _)

/-- `ParseError` only emits: it does not refresh the watchdog (R297). -/
theorem execParseError_eq_next {r : Arg32} {s t : State} :
    execParseError r s = .next t ↔ Instr.dirWf s.cfg.npreset (.parseError r) = true ∧ raiseParseError r s = t := by
  unfold execParseError
  split_ifs with hr <;> simp [hr]

theorem applyDirective_instrFrame {d : Instr} {s t : State} (h : applyDirective d s = .next t) : InstrFrame s t := by
  cases d <;> simp only [applyDirective, reduceCtorEq] at h
  case setRate | setAbsoluteTarget | stepRelative | stop =>
    exact applyValid_instrFrame h fun u => updChan_instrFrame _ _ u
  case stopAll => exact applyValid_instrFrame h stopEvery_instrFrame
  case queryStatus => exact applyValid_instrFrame h fun u => emit_instrFrame _ u
  case adjustRatePreset => exact applyValid_instrFrame h fun u => .of_eq rfl rfl rfl rfl rfl
  case parseError =>
    obtain ⟨-, rfl⟩ := execParseError_eq_next.mp h
    exact emit_instrFrame _ s

theorem applyAll_instrFrame {l : List Instr} {s t : State} (h : applyAll l s = .next t) : InstrFrame s t := by
  induction l generalizing s with
  | nil => cases h; exact .refl _
  | cons d l ih =>
    obtain ⟨u, hd, hl⟩ := andThen_eq_next.mp h
    exact (applyDirective_instrFrame hd).trans (ih hl)

/-- A drive command that answers a next state applied its pair of `SetRate`s (R95). -/
theorem drive_eq_next {l r : Nat → Arg32} {s t : State} :
    drive l r s = .next t ↔ ∃ p, s.preset = some p ∧ applyAll [.setRate 0#4 (l p), .setRate 1#4 (r p)] s = .next t := by
  unfold drive
  cases s.preset <;> simp

/-- `PRESET` k applies its directive, or is dropped where there is no preset k (R95, R212). -/
theorem presetKey_eq_next {k : Nat} {s t : State} (h : presetKey k s = .next t) :
    applyAll [.adjustRatePreset (BitVec.ofNat 32 k)] s = .next t ∨ t = s := by
  unfold presetKey at h
  split_ifs at h
  · exact .inl h
  · cases h; exact .inr rfl

/-- `FRAME_START` opens a frame, after the `ParseError(ABANDONED)` of a frame that was open (R221). -/
theorem execFrameStart_eq_next {s t : State} (h : execFrameStart s = .next t) :
    t = openFrame (if s.ps.framing then raiseParseError reasonAbandoned s else s) := by
  obtain ⟨u, hu, ht⟩ := andThen_eq_next.mp h
  cases ht
  split_ifs at hu ⊢
  · rw [(execParseError_eq_next.mp hu).2]
  · cases hu; rfl

/-- `FRAME_BODY` writes parser registers only (R225). -/
theorem execFrameBody_eq_next {b : Byte} {s t : State} (h : execFrameBody b s = .next t) :
    ∃ ps, t = { s with ps := ps } := by
  obtain ⟨u, hu, ht⟩ := andThen_eq_next.mp h
  unfold bufWrite at hu
  split_ifs at hu
  cases hu
  cases ht
  exact ⟨_, rfl⟩

theorem eventsOf_le_one (d : Instr) : eventsOf d ≤ 1 := by
  cases d <;> simp [eventsOf]

/-- What an instruction other than the composite frame can do: write parser registers and then apply directives that
cause at most one event between them; write parser registers and emit one event; or append one save request. -/
inductive InstrEffect (s : State) : State → Prop where
  | directives (ps : Parser) (ds : List Instr) {t : State} (events : (ds.map eventsOf).sum ≤ 1)
      (run : applyAll ds { s with ps := ps } = .next t) : InstrEffect s t
  | emits (ps : Parser) (e : DiagEntry) : InstrEffect s (emit e { s with ps := ps })
  | saves (c : BitVec 4) (p : BitVec 32) : InstrEffect s (save c p s)

theorem InstrEffect.parser (s : State) (ps : Parser) : InstrEffect s { s with ps := ps } :=
  .directives ps [] (Nat.zero_le 1) rfl

theorem InstrEffect.directive {d : Instr} {s t : State} (h : applyDirective d s = .next t) : InstrEffect s t :=
  .directives s.ps [d] (by simpa using eventsOf_le_one d) (by rw [applyAll_one]; exact h)

/-- Every row but the composite frame has one of these effects. -/
theorem exec_effect {i : Instr} {s t : State} (h : exec i s = .next t) (hi : ∀ body, i ≠ .frame body) :
    InstrEffect s t := by
  cases i
  case fwd | rev | left | right =>
    obtain ⟨p, -, hp⟩ := drive_eq_next.mp h
    exact .directives s.ps _ (by simp [eventsOf]) hp
  case preset0 | preset1 | preset2 | preset3 | preset4 | preset5 | preset6 | preset7 | preset8 =>
    rcases presetKey_eq_next h with h | rfl
    · exact .directives s.ps _ (by simp [eventsOf]) h
    · exact .parser _ _
  case stopKey | stopSpace | query | jogFwd | jogRev | home => exact .directives s.ps _ (by simp [eventsOf]) h
  case charUnmapped | frameIgnored => cases h; exact .parser s s.ps
  case frameStart =>
    rw [execFrameStart_eq_next h]
    split_ifs
    · exact .emits (openFrame s).ps _
    · exact .parser _ _
  case frameEnd => exact .directives (closeFrame s).ps _ (parseBody_events _ _) h
  case frameBody =>
    obtain ⟨ps, rfl⟩ := execFrameBody_eq_next h
    exact .parser s ps
  case frameOverflow => cases h; exact .emits (closeFrame s).ps _
  case frame body => exact absurd rfl (hi body)
  case setRate c a => exact .directive (d := .setRate c a) h
  case setAbsoluteTarget c a => exact .directive (d := .setAbsoluteTarget c a) h
  case stepRelative c a => exact .directive (d := .stepRelative c a) h
  case stop c => exact .directive (d := .stop c) h
  case stopAll => exact .directive (d := .stopAll) h
  case queryStatus => exact .directive (d := .queryStatus) h
  case adjustRatePreset k => exact .directive (d := .adjustRatePreset k) h
  case parseError r => exact .directive (d := .parseError r) h
  case evParseError =>
    obtain ⟨-, rfl⟩ := emitValid_eq_next.mp h
    exact .emits s.ps _
  case evOverflow | evWdTimeout | evStatus => cases h; exact .emits s.ps _
  case evSavePos =>
    obtain ⟨-, rfl⟩ := emitValid_eq_next.mp h
    exact .saves _ _

theorem InstrEffect.instrFrame {s t : State} (h : InstrEffect s t) : InstrFrame s t := by
  have parser_frame (ps : Parser) : InstrFrame s { s with ps := ps } := .of_eq rfl rfl rfl rfl rfl
  cases h with
  | directives ps ds _ run => exact (parser_frame ps).trans (applyAll_instrFrame run)
  | emits ps e => exact (parser_frame ps).trans (emit_instrFrame e _)
  | saves c p => exact save_instrFrame c p s

theorem decodeFrameByte_ne_frame (x : Ctx) (b : Byte) (body : List Byte) : decodeFrameByte x b ≠ .frame body := by
  unfold decodeFrameByte
  split_ifs <;> simp

theorem frameBytes_instrFrame {bs : List Byte} {s t : State} (h : frameBytes bs s = .next t) : InstrFrame s t := by
  induction bs generalizing s with
  | nil => cases h; exact .refl _
  | cons b bs ih =>
    obtain ⟨u, hb, hbs⟩ := andThen_eq_next.mp h
    rw [← exec_decodeFrameByte] at hb
    exact (exec_effect hb (decodeFrameByte_ne_frame _ b)).instrFrame.trans (ih hbs)

/-- Every instruction keeps the frame; the composite does so byte by byte. -/
theorem exec_instrFrame {i : Instr} {s t : State} (h : exec i s = .next t) : InstrFrame s t := by
  by_cases hi : ∃ body, i = .frame body
  · obtain ⟨body, rfl⟩ := hi
    exact frameBytes_instrFrame h
  · exact (exec_effect h (not_exists.mp hi)).instrFrame

theorem execAll_instrFrame {is : List Instr} {s t : State} (h : execAll is s = .next t) : InstrFrame s t := by
  induction is generalizing s with
  | nil => cases h; exact .refl _
  | cons i is ih =>
    obtain ⟨u, hi, his⟩ := andThen_eq_next.mp h
    exact (exec_instrFrame hi).trans (ih his)

/-- A byte that answers a next state has decoded, and its instructions ran (R210). -/
theorem execByte_eq_next {b : Byte} {s t : State} :
    execByte b s = .next t ↔ ∃ is, decodeByte s.ctx b = .ok is ∧ execAll is s = .next t := by
  unfold execByte
  cases decodeByte s.ctx b with
  | ok is => simp
  | error e => cases e <;> simp [decodeFailure]

theorem execByte_instrFrame {b : Byte} {s t : State} (h : execByte b s = .next t) : InstrFrame s t := by
  obtain ⟨is, -, his⟩ := execByte_eq_next.mp h
  exact execAll_instrFrame his

/-! ## How many events an instruction and a byte cause -/

theorem GrowsBy.length_eq {n : Nat} {s t : State} (h : GrowsBy n s t) :
    t.port.diag.length = s.port.diag.length + n := by
  obtain ⟨es, hes, rfl⟩ := h
  rw [hes, List.length_append]

/-- Every row but the composite frame causes at most one event (R325). -/
theorem InstrEffect.diag_length_le {s t : State} (h : InstrEffect s t) :
    t.port.diag.length ≤ s.port.diag.length + 1 := by
  cases h with
  | directives ps ds events run => rw [(applyAll_growsBy run).length_eq]; exact Nat.add_le_add_left events _
  | emits ps e => exact (emit_growsBy e { s with ps := ps }).length_eq.le
  | saves c p => exact Nat.le_succ _

theorem decodeCharByte_ne_frame (n : Nat) (b : Byte) (body : List Byte) : decodeCharByte n b ≠ .frame body := by
  unfold decodeCharByte defaultRow
  split <;> (try split_ifs) <;> simp

/-- In `FRAME` mode and with the default map a byte is one instruction, and never the composite frame (R210). -/
theorem decodeByte_single {x : Ctx} (h : x.cfg.protocol = .frame ∨ x.cfg.charMap = .default) (b : Byte) :
    ∃ i, decodeByte x b = .ok [i] ∧ ∀ body, i ≠ .frame body := by
  unfold decodeByte
  cases hp : x.cfg.protocol with
  | frame => exact ⟨_, rfl, decodeFrameByte_ne_frame x b⟩
  | char =>
    have hm : x.cfg.charMap = .default := h.resolve_left (by simp [hp])
    rw [hm]
    exact ⟨_, rfl, decodeCharByte_ne_frame _ b⟩

theorem execByte_diag_length_le {b : Byte} {s t : State} (hc : s.cfg.protocol = .frame ∨ s.cfg.charMap = .default)
    (h : execByte b s = .next t) : t.port.diag.length ≤ s.port.diag.length + 1 := by
  obtain ⟨is, hd, his⟩ := execByte_eq_next.mp h
  obtain ⟨i, hi, hne⟩ := decodeByte_single (x := s.ctx) hc b
  obtain rfl : is = [i] := Except.ok.inj (hd.symm.trans hi)
  exact (exec_effect (execAll_one his) hne).diag_length_le

/-! ## The events of a byte of a replaced map -/

theorem instantiate_kind {p : Option Nat} {t : Template} {w : Word40} (h : instantiate p t = some w) :
    wordKind w = t.kind := by
  unfold instantiate at h
  split at h <;> cases h <;> exact wordKind_mkWord _ _ _

/-- Of the directives but `ParseError`, `QueryStatus` alone causes an event (R99, R294). -/
theorem dirOfFields_events {k c : BitVec 4} {a : Arg32} {i : Instr} (h : dirOfFields k c a = .ok i) (hk : k ≠ 0x6#4) :
    eventsOf i = if k == 0x4#4 then 1 else 0 := by
  have hk6 : k.toNat ≠ 6 := fun e => hk (BitVec.eq_of_toNat_eq e)
  have hq : (k == 0x4#4) = decide (k.toNat = 4) := by
    rw [Bool.eq_iff_iff, beq_iff_eq, decide_eq_true_eq, ← BitVec.toNat_inj]
    rfl
  rw [hq]
  unfold dirOfFields at h
  split at h <;> cases h
  case h_4 he => by_cases hc : c = 0xF#4 <;> simp [he, hc, eventsOf]
  case h_7 he => exact absurd he hk6
  all_goals rename_i he; rw [he]; rfl

theorem decodeDir_events {n : Nat} {w : Word40} {i : Instr} (h : decodeDir n w = .ok i) (hk : wordKind w ≠ 0x6#4) :
    eventsOf i = if wordKind w == 0x4#4 then 1 else 0 := by
  unfold decodeDir at h
  split at h
  · cases h
  · rename_i j hj
    split_ifs at h
    cases h
    exact dirOfFields_events hj hk

/-- An entry without `ParseError` causes one event for each `QueryStatus` it lists (R211, R294; log 34). -/
theorem decodeEntry_events {n : Nat} {p : Option Nat} {ts : List Template} {is : List Instr}
    (h : decodeEntry n p ts = .ok is) (hts : ∀ t ∈ ts, t.kind ≠ 0x6#4) :
    (is.map eventsOf).sum = ts.countP fun t => t.kind == 0x4#4 := by
  induction ts generalizing is with
  | nil => cases h; rfl
  | cons t ts ih =>
    obtain ⟨ht, hts⟩ := List.forall_mem_cons.mp hts
    unfold decodeEntry at h
    split at h
    · cases h
    · rename_i w hw
      have hkind := instantiate_kind hw
      split at h
      · cases h
      · rename_i i hi
        split at h
        · cases h
        · rename_i js hj
          cases h
          have hevents := decodeDir_events hi (hkind ▸ ht)
          rw [List.map_cons, List.sum_cons, hevents, hkind, ih hj hts, List.countP_cons, Nat.add_comm]

/-- No entry of a well-formed replaced map lists a `ParseError` (R9 item 9, R96). -/
theorem wf_customEntry_kind {cfg : Config} {entries : List (Byte × List Template)} (h : cfg.wf = true)
    (hm : cfg.charMap = .custom entries) {b : Byte} {ts : List Template} (hb : customEntry entries b = some ts) :
    ∀ t ∈ ts, t.kind ≠ 0x6#4 := by
  have hmap : cfg.wfCharMap = true := by
    unfold Config.wf at h
    exact (Bool.and_eq_true_iff.mp h).2
  simp only [Config.wfCharMap, hm, List.all_eq_true] at hmap
  obtain ⟨l₁, l₂, hl, -⟩ := List.lookup_eq_some_iff.mp hb
  intro t ht
  have hwf := hmap (b, ts) (by simp [hl]) t ht
  unfold Template.wf at hwf
  simpa using (Bool.and_eq_true_iff.mp hwf).1

theorem execByte_custom_growsBy {entries : List (Byte × List Template)} {b : Byte} {s t : State}
    (hw : s.cfg.wf = true) (hp : s.cfg.protocol = .char) (hm : s.cfg.charMap = .custom entries)
    (h : execByte b s = .next t) : GrowsBy (queriesOf entries b) s t := by
  obtain ⟨is, hd, his⟩ := execByte_eq_next.mp h
  have hq : queriesOf entries b = ((customEntry entries b).getD []).countP fun t => t.kind == 0x4#4 := rfl
  simp only [decodeByte, State.ctx, hp, hm] at hd
  cases he : customEntry entries b with
  | none =>
    simp only [he] at hd
    cases hd
    cases execAll_one his
    rw [hq, he]
    exact .refl rfl
  | some ts =>
    simp only [he] at hd
    rw [decodeEntry_applies hd] at his
    rw [hq, he, Option.getD_some, ← decodeEntry_events hd (wf_customEntry_kind hw hm he)]
    exact applyAll_growsBy his

/-! ## The stages of a pass -/

theorem drainBytes_now {bs : List Byte} {s t : State} (h : drainBytes bs s = .next t) : t.sq.now = s.sq.now := by
  induction bs generalizing s with
  | nil => cases h; rfl
  | cons b bs ih =>
    obtain ⟨u, hb, hbs⟩ := andThen_eq_next.mp h
    exact (ih hbs).trans (execByte_instrFrame hb).now

theorem stageDrain_cfg_now {s t : State} (h : stageDrain s = .next t) : t.cfg = s.cfg ∧ t.sq.now = s.sq.now :=
  ⟨(drainBytes_keepsSaves h).1, drainBytes_now (s := setStage .drain s) h⟩

theorem wdCheck_cfg (s : State) : (wdCheck s).cfg = s.cfg := by
  unfold wdCheck
  split_ifs
  · exact (stopEvery_fields _).1
  · rfl

/-- The watchdog's check adds one `WD_TIMEOUT` exactly where it trips (R262, R323). -/
theorem wdCheck_diag (s : State) :
    (wdCheck s).port.diag = s.port.diag ++ if wdDue s then [plainEvent 0x3F00000000#40] else [] := by
  unfold wdCheck
  split_ifs
  · obtain ⟨-, -, -, -, -, hport, -⟩ := stopEvery_fields { s with wd := { s.wd with forced := true } }
    rw [raiseWdTimeout, emit_diag, hport]
    rfl
  · simp

theorem wdDue_iff (s : State) :
    wdDue s = true ↔
      s.wd.armed = true ∧ s.wd.forced = false ∧ s.cfg.timeout < wsub s.cfg.tsW s.sq.now s.wd.lastValid := by
  simp [wdDue, and_assoc]

/-- The commit writes the lines only (R195). -/
theorem commitOutputs_eq_next {s t : State} (h : commitOutputs s = .next t) : ∃ out, t = { s with out := out } := by
  unfold commitOutputs at h
  split at h
  · cases h
  · cases h; exact ⟨_, rfl⟩

theorem stageCommit_cfg_diag {en : List Bool} {s t : State} (h : stageCommit en s = .next t) :
    t.cfg = s.cfg ∧ t.port.diag = s.port.diag := by
  obtain ⟨u, hu, ht⟩ := andThen_eq_next.mp h
  obtain ⟨out, rfl⟩ := commitOutputs_eq_next hu
  cases ht
  obtain ⟨ws, hws⟩ := saveFrom_saves en 0 s.cfg.chans { setStage .commit s with out := out }
  have hsave : saveRequests en { setStage .commit s with out := out } = _ := hws
  rw [hsave]
  exact ⟨rfl, rfl⟩

/-- The stages after the drain stage add what the watchdog's check adds, and no more (R283 to R286). -/
theorem afterDrain_cfg_diag {en : List Bool} {s t : State} (h : afterDrain en s = .next t) :
    t.cfg = s.cfg ∧ t.port.diag = s.port.diag ++ if wdDue s then [plainEvent 0x3F00000000#40] else [] := by
  obtain ⟨hcfg, hdiag⟩ := stageCommit_cfg_diag h
  obtain ⟨kcfg, -, -, -, -, kport, -⟩ := stageTick_fields (stageWdog s)
  constructor
  · rw [hcfg, kcfg, stageWdog, wdCheck_cfg, setStage_cfg]
  · rw [hdiag, kport, stageWdog, wdCheck_diag]
    rfl

theorem pass_cfg {time : Nat} {s t : State} (h : pass time s = .next t) : t.cfg = s.cfg := by
  obtain ⟨u, hu, ht⟩ := andThen_eq_next.mp h
  exact (afterDrain_cfg_diag ht).1.trans (stageDrain_cfg_now hu).1

/-- The events of a pass: those of the drained bytes, then at most one `WD_TIMEOUT` (R286). -/
theorem pass_diag {time : Nat} {s t : State} (h : pass time s = .next t) :
    ∃ u, stageDrain (stageSample time s) = .next u ∧
      t.port.diag = u.port.diag ++
        if u.wd.armed = true ∧ u.wd.forced = false ∧
            s.cfg.timeout < wsub s.cfg.tsW (time % 2 ^ s.cfg.tsW) u.wd.lastValid
        then [plainEvent 0x3F00000000#40] else [] := by
  obtain ⟨u, hu, ht⟩ := andThen_eq_next.mp h
  obtain ⟨hcfg, hnow⟩ := stageDrain_cfg_now hu
  refine ⟨u, hu, ?_⟩
  simp only [(afterDrain_cfg_diag ht).2, wdDue_iff, hcfg, hnow, stageSample_cfg, stageSample_now]

/-! ## The step -/

theorem arrive_cfg (bs : List Byte) (s : State) : (arrive bs s).cfg = s.cfg := (arrive_fields bs s).2.2.1

theorem step_refused_of_not_wf {s : State} (h : s.cfg.wf = false) : step s = .refused .illFormedConfig := by
  rw [step, runStep_eq, if_neg (by simp [h])]

/-- A step that answers a next state ran a well-formed block (R9). -/
theorem wf_of_step_next {s t : State} (h : step s = .next t) : s.cfg.wf = true := by
  by_contra hw
  rw [step_refused_of_not_wf (by simpa using hw)] at h
  cases h

theorem step_powerCycle {s : State} {answers : List (Option Int)} {rest : List Input} (hw : s.cfg.wf = true)
    (hi : s.port.inputs = .powerCycle answers :: rest) :
    step s = .next (State.resetOf s.cfg answers rest s.port.draws) := by
  rw [step, runStep_eq, if_pos hw, hi]
  rfl

theorem step_pass {s : State} {time : Nat} {arrived : List Byte} {rest : List Input} (hw : s.cfg.wf = true)
    (hi : s.port.inputs = .pass time arrived :: rest) :
    step s = pass time (arrive arrived { s with port := { s.port with inputs := rest } }) := by
  rw [step, runStep_eq, if_pos hw, hi]

theorem step_noInput {s : State} (hw : s.cfg.wf = true) (hi : s.port.inputs = []) :
    step s = pass (Config.freeTime s.port.draws) { s with port := { s.port with draws := s.port.draws + 1 } } := by
  rw [step, runStep_eq, if_pos hw, hi]

/-- No step changes the configuration (R7, R49). -/
theorem step_cfg {s t : State} (h : step s = .next t) : t.cfg = s.cfg := by
  have hw := wf_of_step_next h
  cases hi : s.port.inputs with
  | nil =>
    rw [step_noInput hw hi] at h
    exact (pass_cfg h).trans rfl
  | cons i rest =>
    cases i with
    | pass time arrived =>
      rw [step_pass hw hi] at h
      exact (pass_cfg h).trans (arrive_cfg _ _)
    | powerCycle answers =>
      rw [step_powerCycle hw hi] at h
      cases h
      rfl

/-! ## The statements -/

/-- Settles O7, from what a step does once the configuration has been checked. -/
theorem refusedConfigAndPowerCycle : Obligations.RefusedConfigAndPowerCycle :=
  ⟨fun _ h => step_refused_of_not_wf h, fun _ _ _ hw hi => step_powerCycle hw hi⟩

/-- Settles O15: the frame over every constructor, the events of one byte by protocol and map, and the order of a pass's
events by its stages. -/
theorem instructionsLeaveConfigAndLines : Obligations.InstructionsLeaveConfigAndLines := by
  refine ⟨?frame, fun s t h => step_cfg h, ?byteEvents, ?passEvents⟩
  case frame =>
    intro i s t h
    obtain ⟨hcfg, hout, hstage, hnow, hrx, hinputs, hdraws, hdiag, hsaves⟩ := exec_instrFrame h
    exact ⟨hcfg, hout, hstage, hnow, hrx, hinputs, hdraws, hdiag, hsaves⟩
  case byteEvents =>
    intro s t b hw h
    exact ⟨(execByte_instrFrame h).diag, fun hc => execByte_diag_length_le hc h,
      fun entries hp hm => (execByte_custom_growsBy hw hp hm h).length_eq⟩
  case passEvents =>
    intro s t time arrived rest hi h
    rw [step_pass (wf_of_step_next h) hi] at h
    simpa only [arrive_cfg] using pass_diag h

end Sys2Proof.Machine
end

/-! SUPPORT AND PROOFS. The state of the block (spec/10): a property that every operation of a pass keeps is kept by
every step. Three such properties: the register invariants (R54), the moves within the 32-bit range (R54 item 5, log 16)
and the armed watchdog (R43). Last, the lines of a channel at rate 0 (R54 item 3). -/

section
namespace Sys2Proof.Machine

/-! ## Properties that instructions and passes keep -/

/-- `P` is kept by everything an instruction is made of; by relative moves only if `rel`. -/
structure InstrKeeps (rel : Prop) (P : State → Prop) : Prop where
  directive : ∀ {d s t}, (startsRelative d = true → rel) → applyDirective d s = .next t → P s → P t
  emit : ∀ {s} e, P s → P (emit e s)
  save : ∀ {s} c p, P s → P (save c p s)
  openFrame : ∀ {s}, P s → P (openFrame s)
  closeFrame : ∀ {s}, P s → P (closeFrame s)
  frameBody : ∀ {b s t}, execFrameBody b s = .next t → P s → P t

theorem InstrKeeps.applyAll {rel : Prop} {P : State → Prop} (k : InstrKeeps rel P) {ds : List Instr} {s t : State}
    (hds : ∀ d ∈ ds, startsRelative d = true → rel) (h : Machine.applyAll ds s = .next t) (hs : P s) : P t := by
  induction ds generalizing s with
  | nil => cases h; exact hs
  | cons d ds ih =>
    obtain ⟨hd, hds⟩ := List.forall_mem_cons.mp hds
    obtain ⟨u, hu, ht⟩ := andThen_eq_next.mp h
    exact ih hds ht (k.directive hd hu hs)

theorem fieldDirective_not_relative (sat : Nat) (ff : FrameField) (f : List Byte) :
    startsRelative (fieldDirective sat ff f) = false := by
  unfold fieldDirective mkDirective
  split <;> rfl

/-- The frame parser makes `SetRate`, `SetAbsoluteTarget` and `ParseError` only (R230, R233). -/
theorem parseBody_not_relative (cfg : Config) (body : List Byte) :
    ∀ d ∈ parseBody cfg body, startsRelative d = false := by
  unfold parseBody
  split
  · split
    · simp [startsRelative]
    · split
      · simp [startsRelative]
      · simp [fieldDirective_not_relative]
  · simp [startsRelative]

theorem decodeFrameByte_not_relative (x : Ctx) (b : Byte) : startsRelative (decodeFrameByte x b) = false := by
  unfold decodeFrameByte
  split_ifs <;> rfl

/-- Every row but the composite frame keeps what its parts keep. -/
theorem InstrKeeps.exec_row {rel : Prop} {P : State → Prop} (k : InstrKeeps rel P) {i : Instr} {s t : State}
    (hi : ∀ body, i ≠ .frame body) (hrel : startsRelative i = true → rel) (h : exec i s = .next t) (hs : P s) :
    P t := by
  cases i
  case fwd | rev | left | right =>
    obtain ⟨p, -, hp⟩ := drive_eq_next.mp h
    exact k.applyAll (by simp [startsRelative]) hp hs
  case preset0 | preset1 | preset2 | preset3 | preset4 | preset5 | preset6 | preset7 | preset8 =>
    rcases presetKey_eq_next h with h | rfl
    · exact k.applyAll (by simp [startsRelative]) h hs
    · exact hs
  case stopKey | stopSpace | query | home => exact k.applyAll (by simp [startsRelative]) h hs
  case jogFwd | jogRev => exact k.applyAll (fun _ _ _ => hrel rfl) h hs
  case charUnmapped | frameIgnored => cases h; exact hs
  case frameStart =>
    rw [execFrameStart_eq_next h]
    split_ifs
    · exact k.openFrame (k.emit _ hs)
    · exact k.openFrame hs
  case frameEnd =>
    refine k.applyAll (fun d hd hr => ?_) h (k.closeFrame hs)
    simp [parseBody_not_relative _ _ d hd] at hr
  case frameBody => exact k.frameBody h hs
  case frameOverflow => cases h; exact k.emit _ (k.closeFrame hs)
  case frame body => exact absurd rfl (hi body)
  case setRate c a => exact k.directive (d := .setRate c a) hrel h hs
  case setAbsoluteTarget c a => exact k.directive (d := .setAbsoluteTarget c a) hrel h hs
  case stepRelative c a => exact k.directive (d := .stepRelative c a) hrel h hs
  case stop c => exact k.directive (d := .stop c) hrel h hs
  case stopAll => exact k.directive (d := .stopAll) hrel h hs
  case queryStatus => exact k.directive (d := .queryStatus) hrel h hs
  case adjustRatePreset p => exact k.directive (d := .adjustRatePreset p) hrel h hs
  case parseError r => exact k.directive (d := .parseError r) hrel h hs
  case evOverflow | evWdTimeout | evStatus => cases h; exact k.emit _ hs
  case evParseError =>
    obtain ⟨-, rfl⟩ := emitValid_eq_next.mp h
    exact k.emit _ hs
  case evSavePos =>
    obtain ⟨-, rfl⟩ := emitValid_eq_next.mp h
    exact k.save _ _ hs

theorem InstrKeeps.frameBytes {rel : Prop} {P : State → Prop} (k : InstrKeeps rel P) {bs : List Byte} {s t : State}
    (h : Machine.frameBytes bs s = .next t) (hs : P s) : P t := by
  induction bs generalizing s with
  | nil => cases h; exact hs
  | cons b bs ih =>
    obtain ⟨u, hu, ht⟩ := andThen_eq_next.mp h
    rw [← exec_decodeFrameByte] at hu
    exact ih ht (k.exec_row (decodeFrameByte_ne_frame _ b) (by simp [decodeFrameByte_not_relative]) hu hs)

/-- Every instruction keeps what its parts keep; the composite frame does so byte by byte. -/
theorem InstrKeeps.exec {rel : Prop} {P : State → Prop} (k : InstrKeeps rel P) {i : Instr} {s t : State}
    (hrel : startsRelative i = true → rel) (h : Machine.exec i s = .next t) (hs : P s) : P t := by
  by_cases hi : ∃ body, i = .frame body
  · obtain ⟨body, rfl⟩ := hi
    exact k.frameBytes h hs
  · exact k.exec_row (not_exists.mp hi) hrel h hs

theorem InstrKeeps.execAll {rel : Prop} {P : State → Prop} (k : InstrKeeps rel P) {is : List Instr} {s t : State}
    (his : ∀ i ∈ is, startsRelative i = true → rel) (h : Machine.execAll is s = .next t) (hs : P s) : P t := by
  induction is generalizing s with
  | nil => cases h; exact hs
  | cons i is ih =>
    obtain ⟨hi, his⟩ := List.forall_mem_cons.mp his
    obtain ⟨u, hu, ht⟩ := andThen_eq_next.mp h
    exact ih his ht (k.exec hi hu hs)

/-- In no state of the decoder with this configuration does the byte stand for a relative move, unless `rel`. -/
def RelativeOnlyIf (rel : Prop) (cfg : Config) (b : Byte) : Prop :=
  ∀ (x : Ctx) (is : List Instr), x.cfg = cfg → decodeByte x b = .ok is → ∀ i ∈ is, startsRelative i = true → rel

theorem relativeOnlyIf_true (cfg : Config) (b : Byte) : RelativeOnlyIf True cfg b :=
  fun _ _ _ _ _ _ _ => trivial

/-- `P` is kept by everything a pass is made of, and by the environment's part of it. -/
structure PassKeeps (rel : Prop) (P : State → Prop) : Prop extends InstrKeeps rel P where
  inputs : ∀ {s} inputs draws, P s → P { s with port := { s.port with inputs := inputs, draws := draws } }
  fifo : ∀ {s} rx, rx.length ≤ s.cfg.rxDepth ∨ rx.length ≤ s.port.rx.length → P s → P (setRx rx s)
  sample : ∀ {s} time, P s → P (stageSample time s)
  stage : ∀ {s} g, P s → P (setStage g s)
  wdCheck : ∀ {s}, P s → P (wdCheck s)
  tick : ∀ {s}, P s → P (stageTick s)
  commit : ∀ {s t}, commitOutputs s = .next t → P s → P t

theorem PassKeeps.arrive {rel : Prop} {P : State → Prop} (k : PassKeeps rel P) (bs : List Byte) {s : State} (hs : P s) :
    P (Machine.arrive bs s) := by
  induction bs generalizing s with
  | nil => exact hs
  | cons b bs ih =>
    unfold Machine.arrive
    split_ifs with hroom
    · exact ih (k.fifo (s.port.rx ++ [b]) (.inl (by simpa using hroom)) hs)
    · exact ih hs

/-- What arrives in the FIFO was there or has just come (R75). -/
theorem mem_arrive_rx {bs : List Byte} {s : State} {b : Byte} (h : b ∈ (arrive bs s).port.rx) :
    b ∈ s.port.rx ++ bs := by
  induction bs generalizing s with
  | nil => simpa [arrive] using h
  | cons a bs ih =>
    have h := ih h
    split_ifs at h
    · simpa using h
    · simp only [List.mem_append, List.mem_cons] at h ⊢
      tauto

/-- The drain stage takes the FIFO byte by byte; no instruction changes the bytes still waiting (R282). -/
theorem PassKeeps.drainBytes {rel : Prop} {P : State → Prop} (k : PassKeeps rel P) {bs : List Byte} {s t : State}
    (hrx : s.port.rx = bs) (hbs : ∀ b ∈ bs, RelativeOnlyIf rel s.cfg b) (h : Machine.drainBytes bs s = .next t)
    (hs : P s) : P t := by
  induction bs generalizing s with
  | nil => cases h; exact hs
  | cons b bs ih =>
    obtain ⟨hb, hbs⟩ := List.forall_mem_cons.mp hbs
    obtain ⟨u, hu, ht⟩ := andThen_eq_next.mp h
    have hframe : InstrFrame (setRx bs s) u := execByte_instrFrame hu
    obtain ⟨is, hdec, his⟩ := execByte_eq_next.mp hu
    have hpop : P (setRx bs s) := k.fifo bs (.inr (by simp [hrx])) hs
    refine ih hframe.rx (fun a ha => ?_) ht (k.execAll (hb _ is rfl hdec) his hpop)
    rw [hframe.cfg]
    exact hbs a ha

theorem PassKeeps.saveRequests {rel : Prop} {P : State → Prop} (k : PassKeeps rel P) (en : List Bool) {s : State}
    (hs : P s) : P (Machine.saveRequests en s) := by
  have saveFrom_keeps (c : Nat) (l : List ChanCfg) {u : State} (hu : P u) : P (saveFrom en c l u) := by
    induction l generalizing c u with
    | nil => exact hu
    | cons cc l ih =>
      unfold saveFrom
      split_ifs
      · exact ih _ (k.save _ _ hu)
      · exact ih _ hu
  exact saveFrom_keeps 0 s.cfg.chans hs

theorem PassKeeps.afterDrain {rel : Prop} {P : State → Prop} (k : PassKeeps rel P) {en : List Bool} {s t : State}
    (h : Machine.afterDrain en s = .next t) (hs : P s) : P t := by
  obtain ⟨u, hu, ht⟩ := andThen_eq_next.mp h
  cases ht
  have hticked : P (stageTick (stageWdog s)) := k.tick (k.wdCheck (k.stage .wdog hs))
  exact k.stage .idle (k.saveRequests en (k.commit hu (k.stage .commit hticked)))

theorem PassKeeps.pass {rel : Prop} {P : State → Prop} (k : PassKeeps rel P) {time : Nat} {s t : State}
    (hrel : ∀ b ∈ s.port.rx, RelativeOnlyIf rel s.cfg b) (h : Machine.pass time s = .next t) (hs : P s) : P t := by
  obtain ⟨u, hu, ht⟩ := andThen_eq_next.mp h
  have hdrain : P (setStage .drain (stageSample time s)) := k.stage .drain (k.sample time hs)
  exact k.afterDrain ht (k.drainBytes (s := setStage .drain (stageSample time s)) rfl hrel hu hdrain)

/-- A step that is no power cycle is a pass of the state in which the input's bytes have arrived. -/
theorem step_eq_pass {s t : State} (hp : NoPowerCycle s) (h : step s = .next t) :
    ∃ time inputs draws, pass time
      (arrive (arriving s) { s with port := { s.port with inputs := inputs, draws := draws } }) = .next t := by
  have hw := wf_of_step_next h
  cases hi : s.port.inputs with
  | nil =>
    rw [step_noInput hw hi] at h
    exact ⟨_, s.port.inputs, s.port.draws + 1, by simpa [arriving, hi, arrive] using h⟩
  | cons i rest =>
    cases i with
    | pass time bs =>
      rw [step_pass hw hi] at h
      exact ⟨time, rest, s.port.draws, by simpa [arriving, hi] using h⟩
    | powerCycle answers => exact absurd (by simp [hi]) (hp answers)

/-- A step is a pass or a reset of the same block (R362). -/
theorem noPowerCycle_or_reset {s t : State} (h : step s = .next t) :
    NoPowerCycle s ∨ ∃ answers rest, t = State.resetOf s.cfg answers rest s.port.draws := by
  by_cases hp : NoPowerCycle s
  · exact .inl hp
  · simp only [NoPowerCycle, ne_eq, not_forall, not_not] at hp
    obtain ⟨answers, hhead⟩ := hp
    obtain ⟨rest, hi⟩ := List.head?_eq_some_iff.mp hhead
    rw [step_powerCycle (wf_of_step_next h) hi] at h
    cases h
    exact .inr ⟨answers, rest, rfl⟩

/-- A step that is no power cycle keeps what every operation of a pass keeps. -/
theorem PassKeeps.step {rel : Prop} {P : State → Prop} (k : PassKeeps rel P) {s t : State} (hp : NoPowerCycle s)
    (hrel : ∀ b ∈ s.port.rx ++ arriving s, RelativeOnlyIf rel s.cfg b) (h : Machine.step s = .next t) (hs : P s) :
    P t := by
  obtain ⟨time, inputs, draws, hpass⟩ := step_eq_pass hp h
  refine k.pass (fun b hb => ?_) hpass (k.arrive _ (k.inputs inputs draws hs))
  rw [arrive_cfg]
  exact hrel b (mem_arrive_rx (s := { s with port := { s.port with inputs := inputs, draws := draws } }) hb)

end Sys2Proof.Machine
end

section
namespace Sys2Proof.Machine

/-! ## The watchdog stays armed (R43) -/

theorem applyValid_armed {ok : Bool} {f : State → State} {s t : State} (h : applyValid ok f s = .next t)
    (hf : ∀ u, (f u).wd = u.wd) : t.wd.armed = true := by
  obtain ⟨-, rfl⟩ := applyValid_eq_next.mp h
  rw [hf]
  rfl

theorem stopEvery_wd (s : State) : (stopEvery s).wd = s.wd := (stopEvery_fields s).2.2.1

/-- Every directive but `ParseError` arms the watchdog, and `ParseError` leaves it alone (R260, R297). -/
theorem applyDirective_armed {d : Instr} {s t : State} (h : applyDirective d s = .next t) (hs : s.wd.armed = true) :
    t.wd.armed = true := by
  cases d <;> simp only [applyDirective, reduceCtorEq] at h
  case setRate | setAbsoluteTarget | stepRelative | stop => exact applyValid_armed h fun u => updChan_wd _ u _
  case stopAll => exact applyValid_armed h stopEvery_wd
  case queryStatus | adjustRatePreset => exact applyValid_armed h fun u => rfl
  case parseError =>
    obtain ⟨-, rfl⟩ := execParseError_eq_next.mp h
    exact hs

theorem wdCheck_armed (s : State) : (wdCheck s).wd.armed = s.wd.armed := by
  unfold wdCheck
  split_ifs
  · rw [raiseWdTimeout, emit_wd, stopEvery_wd]
  · rfl

theorem armed_kept : PassKeeps True fun s => s.wd.armed = true where
  directive _ := applyDirective_armed
  emit _ hs := hs
  save _ _ hs := hs
  openFrame hs := hs
  closeFrame hs := hs
  frameBody h hs := by
    obtain ⟨ps, rfl⟩ := execFrameBody_eq_next h
    exact hs
  inputs _ _ hs := hs
  fifo _ _ hs := hs
  sample _ hs := hs
  stage _ hs := hs
  wdCheck hs := (wdCheck_armed _).trans hs
  tick {s} hs := by rw [(stageTick_fields s).2.2.1]; exact hs
  commit h hs := by
    obtain ⟨out, rfl⟩ := commitOutputs_eq_next h
    exact hs

/-- Settles O17: every operation of a pass keeps the armed flag. -/
theorem armedUntilReset : Obligations.ArmedUntilReset :=
  fun _ _ hp h hs => armed_kept.step hp (fun b _ => relativeOnlyIf_true _ b) h hs

end Sys2Proof.Machine
end

section
namespace Sys2Proof.Machine

/-! ## The register invariants (R54)

Every operation of a pass keeps `Sound`, and a reset makes it. -/

/-- Writing a bank after the refresh keeps `Sound` if the new bank is sound: the refresh has ended a trip (R328). -/
theorem updChan_wdRefresh_sound {s : State} {c : Nat} {f : ChanCfg → ChanRegs → ChanRegs} (hs : SoundFacts s)
    (hf : ∀ cc, s.cfg.chans[c]? = some cc → cc.wfRates = true → chanSound s.cfg.tsW cc (s.chan c) = true →
      chanSound s.cfg.tsW cc (f cc (s.chan c)) = true) :
    SoundFacts (updChan c f (wdRefresh s)) :=
  updChan_sound c f (wdRefresh_sound hs) (fun cc hc => hf cc hc (wf_wfRates hs.wf hc) (hs.chans c cc hc))
    (fun hforced => by cases hforced)

theorem applySetRate_sound {s : State} (c : Nat) (r : Int) (hs : SoundFacts s) :
    SoundFacts (applySetRate c r (wdRefresh s)) := by
  refine updChan_wdRefresh_sound hs fun cc _ hrates hx => ?_
  split_ifs
  · exact hx
  · exact setRateRegs_sound hrates hs.now hx

theorem applySetTarget_sound {s : State} (c : Nat) (p : Int) (hs : SoundFacts s) :
    SoundFacts (applySetTarget c p (wdRefresh s)) := by
  refine updChan_wdRefresh_sound hs fun cc _ hrates hx => ?_
  split_ifs with hservo htrack
  · exact servoSetTargetRegs_sound hservo hx
  · exact startMoveRegs_sound hrates htrack hs.now hx
  · exact hx

theorem applyStepRelative_sound {s : State} (c : Nat) (n : Int) (hs : SoundFacts s) :
    SoundFacts (applyStepRelative c n (wdRefresh s)) := by
  refine updChan_wdRefresh_sound hs fun cc _ hrates hx => ?_
  split_ifs with htrack
  · exact startMoveRegs_sound hrates htrack hs.now hx
  · exact hx

/-- A preset index that the deployment has keeps `Sound` (R46). -/
theorem applyPreset_sound {s : State} {k : Arg32} (hk : k.toNat < s.cfg.npreset) (hs : SoundFacts s) :
    SoundFacts (applyPreset k s) := by
  have hpreset : (BitVec.ofNat 4 k.toNat).toNat < s.cfg.npreset := by
    rw [BitVec.toNat_ofNat]
    exact (Nat.mod_le _ _).trans_lt hk
  exact { hs with preset := hpreset }

theorem applyDirective_sound {d : Instr} {s t : State} (h : applyDirective d s = .next t) (hs : SoundFacts s) :
    SoundFacts t := by
  cases d <;> simp only [applyDirective, reduceCtorEq] at h
  case parseError =>
    obtain ⟨-, rfl⟩ := execParseError_eq_next.mp h
    exact emit_sound _ hs
  all_goals obtain ⟨hwf, rfl⟩ := applyValid_eq_next.mp h
  case setRate => exact applySetRate_sound _ _ hs
  case setAbsoluteTarget => exact applySetTarget_sound _ _ hs
  case stepRelative => exact applyStepRelative_sound _ _ hs
  case stop => exact stopChan_sound _ (wdRefresh_sound hs)
  case stopAll => exact stopEvery_sound (wdRefresh_sound hs)
  case queryStatus => exact emit_sound _ (wdRefresh_sound hs)
  case adjustRatePreset =>
    refine applyPreset_sound ?_ (wdRefresh_sound hs)
    simpa [Instr.dirWf, dirFieldsWf_preset] using hwf

/-- `FRAME_BODY` that answers a next state stored the byte below `CAP` and moved the cursor up (R72, R225). -/
theorem execFrameBody_stored {b : Byte} {s t : State} (h : execFrameBody b s = .next t) :
    s.ps.cursor.toNat < s.cfg.cap ∧
      t = { s with ps := { s.ps with buf := s.ps.buf.write s.ps.cursor.toNat b, cursor := s.ps.cursor + 1#8 } } := by
  obtain ⟨u, hu, ht⟩ := andThen_eq_next.mp h
  unfold bufWrite at hu
  split_ifs at hu with hcursor
  cases hu
  cases ht
  exact ⟨hcursor, rfl⟩

theorem execFrameBody_sound {b : Byte} {s t : State} (h : execFrameBody b s = .next t) (hs : SoundFacts s) :
    SoundFacts t := by
  obtain ⟨hcursor, rfl⟩ := execFrameBody_stored h
  have hnext : (s.ps.cursor + 1#8).toNat ≤ s.cfg.cap := by
    have := (wf_scalars hs.wf).cap
    bv_omega
  exact { hs with
    cursor := hnext
    buf := Memory.write_wf hs.buf
    bufBelow := Memory.write_addresses hs.bufBelow hcursor }

/-- The commit keeps the widths of the lines (R195). -/
theorem commitOutputs_sound {s t : State} (h : commitOutputs s = .next t) (hs : SoundFacts s) : SoundFacts t := by
  obtain ⟨r, hr, hdig, hlvl⟩ := muxFrom_some hs 0 s.cfg.chans
    (List.replicate s.cfg.ndig false, List.replicate s.cfg.nlvl 0#16) (fun c cc hc => by rwa [Nat.zero_add])
  have hmux : muxOutputs s = some r := hr
  simp only [commitOutputs, hmux] at h
  cases h
  exact { hs with
    dig := hdig.trans List.length_replicate
    lvl := hlvl.trans List.length_replicate }

theorem sound_kept : PassKeeps True SoundFacts where
  directive _ := applyDirective_sound
  emit := emit_sound
  save := save_sound
  openFrame := openFrame_sound
  closeFrame := closeFrame_sound
  frameBody := execFrameBody_sound
  inputs _ _ hs := withPort_sound hs hs.rx
  fifo _ hrx hs := setRx_sound hs (hrx.elim id fun hle => hle.trans hs.rx)
  sample := stageSample_sound
  stage := setStage_sound
  wdCheck := wdCheck_sound
  tick := stageTick_sound
  commit := commitOutputs_sound

/-- A channel at rest with every bit 0 but position and angle is sound, whatever was loaded (R360, R363). -/
theorem resetChan_sound (w : Nat) (cc : ChanCfg) (answer : Option Int) :
    chanSound w cc (resetChan cc answer) = true := by
  have hphases := (phases_le cc).1
  have hw : 0 < 2 ^ w := Nat.two_pow_pos w
  rw [chanSound_iff]
  simp [resetChan, zeroChan, hw, Nat.lt_of_lt_of_le Nat.zero_lt_one hphases]

theorem resetOf_sound {cfg : Config} (answers : List (Option Int)) (inputs : List Input) (n : Nat)
    (hwf : cfg.wf = true) : SoundFacts (State.resetOf cfg answers inputs n) where
  wf := hwf
  banks := resetChans_length _ _
  chans c cc hc := by
    rw [chan_resetOf cfg answers inputs n c cc hc]
    exact maskChan_sound (wf_wfRates hwf hc) (resetChan_sound _ _ _)
  cursor := Nat.zero_le _
  buf := rfl
  bufBelow := rfl
  forcedArmed h := by cases h
  forcedStill h := by cases h
  lastValid := Nat.two_pow_pos _
  preset := (wf_scalars hwf).npreset.1
  now := Nat.two_pow_pos _
  dig := List.length_replicate
  lvl := List.length_replicate
  rx := Nat.zero_le _

/-- Settles O11: a reset makes every fact of `Sound`, and the stage `IDLE`. -/
theorem invariantAtEveryReset : Obligations.InvariantAtEveryReset :=
  fun _ answers inputs n hwf => ⟨sound_iff.mpr (resetOf_sound answers inputs n hwf), rfl⟩

/-- Settles O10: RC-A is well formed. -/
theorem invariantAtReset : Obligations.InvariantAtReset :=
  invariantAtEveryReset Config.rcA [] [] 0 (by decide)

/-- A pass ends in stage `IDLE` (R280). -/
theorem pass_idle {time : Nat} {s t : State} (h : pass time s = .next t) : t.sq.stage = .idle := by
  obtain ⟨u, -, hu⟩ := andThen_eq_next.mp h
  obtain ⟨v, -, ht⟩ := andThen_eq_next.mp hu
  cases ht
  rfl

theorem step_inv {s t : State} (hs : Inv s) (h : step s = .next t) : Inv t := by
  have hsound := sound_iff.mp hs.1
  rcases noPowerCycle_or_reset h with hp | ⟨answers, rest, rfl⟩
  · obtain ⟨_, _, _, hpass⟩ := step_eq_pass hp h
    exact ⟨sound_iff.mpr (sound_kept.step hp (fun b _ => relativeOnlyIf_true _ b) h hsound), pass_idle hpass⟩
  · exact invariantAtEveryReset _ _ _ _ hsound.wf

end Sys2Proof.Machine
end

section
namespace Sys2Proof.Machine

/-! ## Moves within the 32-bit range (R54 item 5, log 16)

In a sound state item 5 of R54 holds word for word exactly of the moves whose integer difference of target and position
is a 32-bit value. -/

/-- A moving channel's integer difference of target and position is a 32-bit value. -/
def moveInRange (x : ChanRegs) : Prop := x.moving = true → In32 (x.target.toInt - x.pos.toInt)

/-- The integer difference of target and position is a 32-bit value for every moving channel. -/
def MovesInRange (s : State) : Prop := ∀ c cc, s.cfg.chans[c]? = some cc → moveInRange (s.chan c)

theorem sgn_neg_ne {v : Int} (h : v ≠ 0) : -sgn v ≠ sgn v := by
  unfold sgn
  split_ifs <;> omega

theorem moveAsWritten_iff {x : ChanRegs} :
    moveAsWritten x = true ↔ (x.moving = true →
      x.rate.toInt ≠ 0 ∧ (sgn x.rate.toInt = sgn (x.target.toInt - x.pos.toInt) ∨ x.pos = x.target)) := by
  rw [moveAsWritten, decide_eq_true_eq]

/-- A sound moving channel off its target runs in the direction of the integer difference exactly where that is a 32-bit
value. -/
theorem moveSound_direction_iff {x : ChanRegs} (hx : moveSound x = true) (hm : x.moving = true)
    (hne : x.pos ≠ x.target) :
    sgn x.rate.toInt = sgn (x.target.toInt - x.pos.toInt) ↔ In32 (x.target.toInt - x.pos.toInt) := by
  constructor
  · intro hdir
    by_contra hrange
    simp only [moveSound, if_neg hrange, decide_eq_true_eq] at hx
    have hdiff : x.target.toInt - x.pos.toInt ≠ 0 := fun e => hrange (by rw [e]; decide)
    exact sgn_neg_ne hdiff ((hx hm).2.symm.trans hdir)
  · intro hrange
    rw [moveSound_asWritten hrange, moveAsWritten_iff] at hx
    exact (hx hm).2.resolve_right hne

theorem moveAsWritten_iff_inRange {x : ChanRegs} (hx : moveSound x = true) :
    moveAsWritten x = true ↔ moveInRange x := by
  constructor
  · intro h hm
    by_cases heq : x.pos = x.target
    · rw [heq, sub_self]; decide
    · exact (moveSound_direction_iff hx hm heq).mp ((moveAsWritten_iff.mp h hm).2.resolve_right heq)
  · intro h
    by_cases hm : x.moving = true
    · rwa [← moveSound_asWritten (h hm)]
    · exact moveAsWritten_iff.mpr fun hm' => absurd hm' hm

theorem moveSound_of_chanSound {w : Nat} {cc : ChanCfg} {x : ChanRegs} (h : chanSound w cc x = true) :
    moveSound x = true := by
  obtain ⟨-, -, -, hmove, -⟩ := chanSound_iff.mp h
  exact moveSound_iff.mpr hmove

theorem movesAsWritten_iff_inRange {s : State} (hs : SoundFacts s) : MovesAsWritten s ↔ MovesInRange s := by
  rw [MovesAsWritten, allChans_iff]
  exact forall₃_congr fun c cc hc => moveAsWritten_iff_inRange (moveSound_of_chanSound (hs.chans c cc hc))

/-! ### What the channel operations do to a move -/

theorem moveInRange_of_not_moving {x : ChanRegs} (h : x.moving = false) : moveInRange x := by
  intro hm
  rw [h] at hm
  cases hm

theorem maskChan_inRange {cc : ChanCfg} {x : ChanRegs} (h : moveInRange x) : moveInRange (maskChan cc x) := by
  intro hm
  cases htrack : cc.trackPos with
  | false => simp [maskChan, htrack] at hm
  | true =>
    simp only [maskChan, htrack, if_true] at hm ⊢
    exact h hm

theorem setRateRegs_inRange (now : Nat) (r : Int) (cc : ChanCfg) (x : ChanRegs) :
    moveInRange (setRateRegs now r false cc x) :=
  moveInRange_of_not_moving (by simp)

theorem stopRegs_inRange {now : Nat} {cc : ChanCfg} {x : ChanRegs} (h : moveInRange x) :
    moveInRange (stopRegs now cc x) := by
  unfold stopRegs
  cases cc.kind with
  | stepper | dc => exact setRateRegs_inRange now 0 cc x
  | servo =>
    unfold servoStopRegs
    cases cc.servoStop <;> exact h

/-- The target R160 writes differs from the position by a 32-bit value exactly if it has not wrapped. -/
theorem in32_moved_iff {p : BitVec 32} {d : Int} (hd : d.natAbs ≤ 2147483647) :
    In32 ((wrap32 (p.toInt + d)).toInt - p.toInt) ↔ In32 (p.toInt + d) := by
  have hlo := p.le_toInt
  have hhi := p.toInt_lt
  rw [wrap32_toInt]
  constructor <;> rintro ⟨h1, h2⟩ <;> constructor <;> omega

/-- A started move is in range exactly if its run, cut to `MAX_RUN`, ends on a 32-bit value (R160, R163). -/
theorem startMoveRegs_inRange_iff {now : Nat} {d : Int} {cc : ChanCfg} {x : ChanRegs} (hcc : cc.wfRates = true) :
    moveInRange (startMoveRegs now d cc x) ↔ In32 (x.pos.toInt + boundRun cc.maxRun d) := by
  obtain ⟨-, -, -, -, -, -, -, -, hmax⟩ := wfRates_facts hcc
  unfold startMoveRegs
  split_ifs with hrun
  · have hlo := x.pos.le_toInt
    have hhi := x.pos.toInt_lt
    rw [hrun]
    exact iff_of_true (setRateRegs_inRange now 0 cc x) (by constructor <;> omega)
  · rw [← in32_moved_iff ((boundRun_natAbs_le _ _).trans hmax)]
    simp [moveInRange]

/-- A move to a 32-bit target stays between the position and the target, so it never wraps (R160). -/
theorem moveToRegs_inRange {now : Nat} {tgt : BitVec 32} {cc : ChanCfg} {x : ChanRegs} (hcc : cc.wfRates = true) :
    moveInRange (moveToRegs now tgt.toInt cc x) := by
  have hlo := x.pos.le_toInt
  have hhi := x.pos.toInt_lt
  have tlo := tgt.le_toInt
  have thi := tgt.toInt_lt
  refine (startMoveRegs_inRange_iff hcc).mpr ?_
  unfold boundRun sgn
  split_ifs <;> constructor <;> omega

/-- A step towards a target in range ends in range (R150). -/
theorem advanceRegs_inRange {now : Nat} {cc : ChanCfg} {x : ChanRegs} (hx : moveSound x = true)
    (hne : ¬ (x.moving = true ∧ x.pos = x.target)) (h : moveInRange x) : moveInRange (advanceRegs now cc x) := by
  intro hm
  have hm : x.moving = true := hm
  have hdir := (moveSound_direction_iff hx hm fun e => hne ⟨hm, e⟩).mpr (h hm)
  have hdiff : x.target.toInt ≠ x.pos.toInt := fun e => hne ⟨hm, (BitVec.eq_of_toInt_eq e).symm⟩
  obtain ⟨h1, h2⟩ := h hm
  have hlo := x.pos.le_toInt
  have hhi := x.pos.toInt_lt
  have tlo := x.target.le_toInt
  have thi := x.target.toInt_lt
  show In32 (x.target.toInt - (if cc.trackPos then wrap32 (x.pos.toInt + sgn x.rate.toInt) else x.pos).toInt)
  split_ifs
  · rw [wrap32_toInt, hdir]
    unfold sgn
    split_ifs <;> constructor <;> omega
  · exact ⟨h1, h2⟩

theorem tickRegs_inRange {tu w now : Nat} {cc : ChanCfg} {x : ChanRegs} (hx : moveSound x = true)
    (h : moveInRange x) : moveInRange (tickRegs tu w now cc x) := by
  unfold tickRegs
  split_ifs with hkind hrate hdue hdone
  · exact h
  · exact h
  · exact h
  · exact setRateRegs_inRange now 0 cc x
  · exact advanceRegs_inRange hx hdone h

/-! ### What the operations on the state do to the moves -/

/-- A written bank in range leaves every move in range. -/
theorem updChan_inRange {s : State} {c : Nat} {f : ChanCfg → ChanRegs → ChanRegs} (hl : s.ch.length = s.cfg.nch)
    (h : MovesInRange s) (hf : ∀ cc, s.cfg.chans[c]? = some cc → moveInRange (f cc (s.chan c))) :
    MovesInRange (updChan c f s) := by
  intro d cc hd
  rw [updChan_cfg] at hd
  by_cases hdc : d = c
  · subst hdc
    rw [chan_updChan_self hl hd]
    exact maskChan_inRange (hf cc hd)
  · rw [chan_updChan_other hdc]
    exact h d cc hd

theorem stopEvery_inRange {s : State} (hl : s.ch.length = s.cfg.nch) (h : MovesInRange s) :
    MovesInRange (stopEvery s) := by
  intro c cc hc
  rw [(stopEvery_fields s).1] at hc
  rw [stopEvery_chan hl hc]
  exact maskChan_inRange (stopRegs_inRange (h c cc hc))

theorem stageTick_inRange {s : State} (hs : SoundFacts s) (h : MovesInRange s) : MovesInRange (stageTick s) := by
  intro c cc hc
  rw [(stageTick_fields s).1] at hc
  rw [stageTick_chan_masked hs.banks hc]
  exact maskChan_inRange (tickRegs_inRange (moveSound_of_chanSound (hs.chans c cc hc)) (h c cc hc))

theorem wdCheck_inRange {s : State} (hs : SoundFacts s) (h : MovesInRange s) : MovesInRange (wdCheck s) := by
  unfold wdCheck
  split_ifs
  · exact stopEvery_inRange (s := { s with wd := { s.wd with forced := true } }) hs.banks h
  · exact h

/-- Every directive but the relative move keeps the moves in range. -/
theorem applyDirective_inRange {d : Instr} {s t : State} (hd : startsRelative d = false)
    (h : applyDirective d s = .next t) (hs : SoundFacts s) (hm : MovesInRange s) : MovesInRange t := by
  cases d <;> simp only [applyDirective, reduceCtorEq] at h
  case stepRelative => cases hd
  case parseError =>
    obtain ⟨-, rfl⟩ := execParseError_eq_next.mp h
    exact hm
  all_goals obtain ⟨-, rfl⟩ := applyValid_eq_next.mp h
  case setRate =>
    refine updChan_inRange (s := wdRefresh s) hs.banks hm fun cc hc => ?_
    split_ifs
    · exact hm _ cc hc
    · exact setRateRegs_inRange _ _ _ _
  case setAbsoluteTarget =>
    refine updChan_inRange (s := wdRefresh s) hs.banks hm fun cc hc => ?_
    split_ifs
    · exact hm _ cc hc
    · exact moveToRegs_inRange (wf_wfRates hs.wf hc)
    · exact hm _ cc hc
  case stop => exact updChan_inRange (s := wdRefresh s) hs.banks hm fun cc hc => stopRegs_inRange (hm _ cc hc)
  case stopAll => exact stopEvery_inRange hs.banks hm
  case queryStatus | adjustRatePreset => exact hm

/-- The moves stay in range while no relative move starts. -/
theorem inRange_kept : PassKeeps False fun s => SoundFacts s ∧ MovesInRange s where
  directive hd h hs := ⟨applyDirective_sound h hs.1, applyDirective_inRange (by simpa using hd) h hs.1 hs.2⟩
  emit e hs := ⟨emit_sound e hs.1, hs.2⟩
  save c p hs := ⟨save_sound c p hs.1, hs.2⟩
  openFrame hs := ⟨openFrame_sound hs.1, hs.2⟩
  closeFrame hs := ⟨closeFrame_sound hs.1, hs.2⟩
  frameBody h hs := by
    refine ⟨execFrameBody_sound h hs.1, ?_⟩
    obtain ⟨ps, rfl⟩ := execFrameBody_eq_next h
    exact hs.2
  inputs _ _ hs := ⟨sound_kept.inputs _ _ hs.1, hs.2⟩
  fifo _ hrx hs := ⟨sound_kept.fifo _ hrx hs.1, hs.2⟩
  sample time hs := ⟨stageSample_sound time hs.1, hs.2⟩
  stage g hs := ⟨setStage_sound g hs.1, hs.2⟩
  wdCheck hs := ⟨wdCheck_sound hs.1, wdCheck_inRange hs.1 hs.2⟩
  tick hs := ⟨stageTick_sound hs.1, stageTick_inRange hs.1 hs.2⟩
  commit h hs := by
    refine ⟨commitOutputs_sound h hs.1, ?_⟩
    obtain ⟨out, rfl⟩ := commitOutputs_eq_next h
    exact hs.2

/-! ### The statements -/

theorem resetOf_inRange (cfg : Config) (answers : List (Option Int)) (inputs : List Input) (n : Nat) :
    MovesInRange (State.resetOf cfg answers inputs n) := by
  intro c cc hc
  rw [chan_resetOf cfg answers inputs n c cc hc]
  exact maskChan_inRange (moveInRange_of_not_moving rfl)

/-- A step whose bytes start no relative move keeps the moves in range; a reset leaves none. -/
theorem step_inRange {s t : State} (hs : SoundFacts s) (hm : MovesInRange s)
    (hb : ∀ b ∈ s.port.rx ++ arriving s, RelativeOnlyIf False s.cfg b) (h : step s = .next t) : MovesInRange t := by
  rcases noPowerCycle_or_reset h with hp | ⟨answers, rest, rfl⟩
  · exact (inRange_kept.step hp hb h ⟨hs, hm⟩).2
  · exact resetOf_inRange _ _ _ _

/-- Settles O12: `Sound` is kept by every operation of a pass and made by every reset; item 5 word for word is the move
within the 32-bit range, which only a relative move leaves. -/
theorem stepKeepsInvariant : Obligations.StepKeepsInvariant := by
  refine ⟨fun s t => step_inv, ?direction, ?asWritten⟩
  case direction =>
    intro s hs c cc hc hm
    have hx := (sound_iff.mp hs.1).chans c cc hc
    obtain ⟨-, -, -, hmove, -⟩ := chanSound_iff.mp hx
    exact ⟨(hmove hm).1, moveSound_direction_iff (moveSound_of_chanSound hx) hm⟩
  case asWritten =>
    intro s t hs hm h hb
    have hsound := sound_iff.mp hs.1
    rw [movesAsWritten_iff_inRange hsound] at hm
    rw [movesAsWritten_iff_inRange (sound_iff.mp (step_inv hs h).1)]
    exact step_inRange hsound hm (fun b hmem x is hx hdec i hi => by simp [hb b hmem x is hx hdec i hi]) h

/-- The statements' own cut is the machine's (R163). -/
theorem cutRun_eq_boundRun (n : Nat) (d : Int) : cutRun n d = boundRun n d := by
  unfold cutRun boundRun sgn
  split_ifs <;> omega

/-- A relative move leaves the moves in range exactly if it ends on a 32-bit value (R160, R165). -/
theorem applyStepRelative_inRange_iff {s : State} {c : Nat} {n : Int} (hs : SoundFacts s) (hm : MovesInRange s) :
    MovesInRange (applyStepRelative c n (wdRefresh s)) ↔
      ∀ cc, s.cfg.chans[c]? = some cc → cc.trackPos = true → In32 ((s.chan c).pos.toInt + boundRun cc.maxRun n) := by
  constructor
  · intro h cc hc htrack
    have hchan := h c cc (by rw [applyStepRelative, updChan_cfg]; exact hc)
    rw [applyStepRelative, chan_updChan_wdRefresh s c cc _ hs hc, if_pos htrack] at hchan
    rw [← startMoveRegs_inRange_iff (now := s.sq.now) (wf_wfRates hs.wf hc)]
    simpa [moveInRange, maskChan, htrack, stepRelativeRegs] using hchan
  · intro h
    refine updChan_inRange (s := wdRefresh s) hs.banks hm fun cc hc => ?_
    split_ifs with htrack
    · exact (startMoveRegs_inRange_iff (wf_wfRates hs.wf hc)).mpr (h cc hc htrack)
    · exact hm c cc hc

/-- Settles O14: the parts every instruction is made of keep `Sound`, and the moves in range while none is relative; a
`StepRelative` is one bank written. -/
theorem instructionsKeepSound : Obligations.InstructionsKeepSound := by
  refine ⟨?every, ?stepRelative⟩
  case every =>
    intro i s t hs h
    have hsound := sound_iff.mp hs
    have ht : SoundFacts t := sound_kept.exec (fun _ => trivial) h hsound
    refine ⟨sound_iff.mpr ht, fun hm hi => ?_⟩
    rw [movesAsWritten_iff_inRange hsound] at hm
    rw [movesAsWritten_iff_inRange ht]
    exact (inRange_kept.exec (by simp [hi]) h ⟨hsound, hm⟩).2
  case stepRelative =>
    intro s t c a hs hm h
    have hsound := sound_iff.mp hs
    rw [movesAsWritten_iff_inRange hsound] at hm
    rw [movesAsWritten_iff_inRange (applyDirective_sound (d := .stepRelative c a) h hsound)]
    obtain ⟨-, rfl⟩ := applyValid_eq_next.mp (show execStepRelative c a s = .next t from h)
    simp only [cutRun_eq_boundRun]
    exact applyStepRelative_inRange_iff hsound hm

/-- RC-C at the greatest position, the byte of `JOG_FWD` arriving: its relative move wraps the target. -/
def jogPastRange : State := State.resetOf Config.rcC [some 2147483647] [.pass 0 [0x2B#8]] 0

/-- Refutes O59: the jog of `jogPastRange` runs forward, to a target far below the position. -/
theorem not_moveDirectionWithoutWrap : ¬ Obligations.MoveDirectionWithoutWrap := by
  intro h
  have hinv : Inv jogPastRange := invariantAtEveryReset _ _ _ _ (by decide)
  have hstep : ∃ t cc, step jogPastRange = .next t ∧ t.cfg.chans[0]? = some cc ∧ (t.chan 0).moving = true ∧
      (t.chan 0).rate.toInt = 500 ∧ (t.chan 0).target.toInt = -2147483639 ∧ (t.chan 0).pos.toInt = 2147483647 :=
    ⟨_, _, rfl, rfl, by decide, by decide, by decide, by decide⟩
  obtain ⟨t, cc, ht, hcc, hmoving, hrate, htarget, hpos⟩ := hstep
  rcases h _ t hinv ht 0 cc hcc hmoving with hdir | heq
  · rw [hrate, htarget, hpos] at hdir
    exact absurd hdir (by decide)
  · rw [← heq, hpos] at htarget
    exact absurd htarget (by decide)

end Sys2Proof.Machine
end

section
namespace Sys2Proof.Machine

/-! ## The lines of a channel at rate 0 (R54 item 3) -/

/-- The mux reads the channel banks only (R196). -/
theorem muxFrom_congr {s t : State} (h : ∀ c, s.chan c = t.chan c) (n : Nat) (l : List ChanCfg)
    (dl : List Bool × List Level) : muxFrom s n l dl = muxFrom t n l dl := by
  induction l generalizing n dl with
  | nil => rfl
  | cons cc l ih => simp only [muxFrom, h, ih]

theorem saveRequests_eq (en : List Bool) (s : State) :
    ∃ ws, saveRequests en s = { s with port := { s.port with saves := s.port.saves ++ ws } } :=
  saveFrom_saves en 0 s.cfg.chans s

theorem muxOutputs_of_banks {s t : State} {dl : List Bool × List Level} (hcfg : t.cfg = s.cfg)
    (hchan : ∀ c, t.chan c = s.chan c) (h : muxOutputs s = some dl) : muxOutputs t = some dl := by
  rw [← h, muxOutputs, muxOutputs, hcfg, muxFrom_congr hchan]

/-- The committed lines are what the mux makes of the committed state's own banks (R195). -/
theorem commitOutputs_lines {s t : State} (h : commitOutputs s = .next t) :
    muxOutputs t = some (t.out.dig, t.out.lvl) := by
  unfold commitOutputs at h
  split at h
  · cases h
  · rename_i dl hdl
    cases h
    exact muxOutputs_of_banks (s := s) rfl (fun _ => rfl) hdl

/-- After a pass the lines are what the mux makes of the banks as they then are (R195, R285). -/
theorem pass_lines {time : Nat} {s t : State} (h : pass time s = .next t) :
    muxOutputs t = some (t.out.dig, t.out.lvl) := by
  obtain ⟨u, -, hu⟩ := andThen_eq_next.mp h
  obtain ⟨v, hv, ht⟩ := andThen_eq_next.mp hu
  cases ht
  obtain ⟨ws, hws⟩ := saveRequests_eq (energizedFlags s) v
  rw [hws]
  exact muxOutputs_of_banks (s := v) rfl (fun _ => rfl) (commitOutputs_lines hv)

/-- At rate 0 every local digital line is the brake bit, and without brake every level is 0 (R142, R192, R193). -/
theorem localLines_of_rate_zero {w c : Nat} {cc : ChanCfg} {x : ChanRegs} (hx : chanSound w cc x = true)
    (hk : cc.kind ≠ .servo) (hbrake : cc.kind ≠ .dc → x.brake = false) (hrate : x.rate.toInt = 0) :
    ∃ levels, localLines c cc x = some (List.replicate cc.kind.digLines x.brake, levels) ∧
      levels.length = cc.kind.lvlLines ∧ (x.brake = false → ∀ v ∈ levels, v = 0#16) := by
  obtain ⟨-, -, henergized, -⟩ := chanSound_iff.mp hx
  have hoff : x.energized = false := by simpa [hrate] using henergized hk
  cases hkind : cc.kind with
  | stepper =>
    refine ⟨[], ?_, rfl, by simp⟩
    simp [localLines, hkind, stepperLines, hoff, hbrake (by simp [hkind]), Kind.digLines]
  | dc =>
    refine ⟨[(dcLines c cc x).2.2], ?_, rfl, ?_⟩ <;> cases hb : x.brake <;>
      simp [localLines, hkind, dcLines, hoff, hb, Kind.digLines]
  | servo => exact absurd hkind hk

/-- Every mapped line of a channel of a block whose lines are the mux's carries the channel's local value (R191). -/
theorem muxOutputs_mapped {s : State} {dl : List Bool × List Level} (hwf : s.cfg.wf = true)
    (h : muxOutputs s = some dl) {c : Nat} {cc : ChanCfg} (hc : s.cfg.chans[c]? = some cc) :
    ∃ v, localLines c cc (s.chan c) = some v ∧
      (∀ (k l : Nat) (b : Bool), cc.digMap[k]? = some l → v.1[k]? = some b → dl.1[l]? = some b) ∧
      (∀ (k l : Nat) (b : Level), cc.lvlMap[k]? = some l → v.2[k]? = some b → dl.2[l]? = some b) := by
  obtain ⟨hdig, hlvl, hmaps⟩ := wf_mapFacts hwf
  obtain ⟨-, -, hlines⟩ := muxFrom_spec 0 s.cfg.chans _ dl h hdig hlvl fun cc hcc => by
    obtain ⟨-, -, hd, hl⟩ := hmaps cc hcc
    simpa using ⟨hd, hl⟩
  simpa only [Nat.zero_add] using hlines c cc hc

/-- A channel at rate 0 has the brake bit on its digital lines, and without brake 0 on its levels. -/
def ReleasedLines (t : State) (c : Nat) (cc : ChanCfg) : Prop :=
  (∀ k l : Nat, cc.digMap[k]? = some l → t.out.dig[l]? = some (t.chan c).brake) ∧
    ((t.chan c).brake = false → ∀ k l : Nat, cc.lvlMap[k]? = some l → t.out.lvl[l]? = some 0#16)

theorem releasedLines_of_mux {t : State} (ht : SoundFacts t) (hmux : muxOutputs t = some (t.out.dig, t.out.lvl))
    {c : Nat} {cc : ChanCfg} (hc : t.cfg.chans[c]? = some cc) (hk : cc.kind ≠ .servo)
    (hrate : (t.chan c).rate.toInt = 0) : ReleasedLines t c cc := by
  obtain ⟨-, -, hbrake, -⟩ := chan_hardwired hc
  obtain ⟨hdigLen, hlvlLen, -⟩ := (wf_mapFacts ht.wf).2.2 cc (List.mem_of_getElem? hc)
  obtain ⟨v, hv, hdig, hlvl⟩ := muxOutputs_mapped ht.wf hmux hc
  obtain ⟨levels, hlocal, hlen, hzero⟩ := localLines_of_rate_zero (ht.chans c cc hc) hk hbrake hrate
  obtain rfl : (_, levels) = v := Option.some.inj (hlocal.symm.trans hv)
  refine ⟨fun k l hl => hdig k l _ hl ?_, fun hb k l hl => ?_⟩
  · have hlt := (List.getElem?_eq_some_iff.mp hl).1
    exact List.getElem?_replicate_of_lt (hdigLen ▸ hlt)
  · have hlt : k < levels.length := by
      rw [hlen, ← hlvlLen]
      exact (List.getElem?_eq_some_iff.mp hl).1
    refine hlvl k l _ hl ?_
    rw [List.getElem?_eq_getElem hlt, hzero hb _ (List.getElem_mem hlt)]

/-- After a reset every line is 0 and no channel brakes (R360). -/
theorem releasedLines_of_reset {cfg : Config} (hwf : cfg.wf = true) (answers : List (Option Int))
    (inputs : List Input) (n : Nat) {c : Nat} {cc : ChanCfg} (hc : cfg.chans[c]? = some cc) :
    ReleasedLines (State.resetOf cfg answers inputs n) c cc := by
  obtain ⟨-, -, hdig, hlvl⟩ := (wf_mapFacts hwf).2.2 cc (List.mem_of_getElem? hc)
  have hbrake : ((State.resetOf cfg answers inputs n).chan c).brake = false := by
    rw [chan_resetOf _ _ _ _ _ _ hc]
    simp [maskChan, resetChan, zeroChan]
  rw [ReleasedLines, hbrake]
  exact ⟨fun k l hl => List.getElem?_replicate_of_lt (hdig l (List.mem_of_getElem? hl)),
    fun _ k l hl => List.getElem?_replicate_of_lt (hlvl l (List.mem_of_getElem? hl))⟩

/-- Settles O56: after a pass the lines are the mux's of sound banks; after a reset all are 0. -/
theorem rateZeroReleasesLines : Obligations.RateZeroReleasesLines := by
  intro s t hs h c cc hc hk hrate
  have ht := sound_iff.mp (step_inv hs h).1
  rcases noPowerCycle_or_reset h with hp | ⟨answers, rest, rfl⟩
  · obtain ⟨_, _, _, hpass⟩ := step_eq_pass hp h
    exact releasedLines_of_mux ht (pass_lines hpass) hc hk hrate
  · exact releasedLines_of_reset ht.wf answers rest _ hc

end Sys2Proof.Machine
end

section
namespace Sys2Proof.Machine

/-! ## The receive FIFO at its depth (R75) -/

/-- A byte that finds room enters behind the bytes already waiting. -/
theorem arrive_cons_of_room {s : State} (hroom : s.port.rx.length < s.cfg.rxDepth) (b : Byte) (bs : List Byte) :
    arrive (b :: bs) s = arrive bs (setRx (s.port.rx ++ [b]) s) := by
  rw [arrive, if_pos hroom]
  rfl

/-- A full FIFO loses everything that arrives. -/
theorem arrive_of_full {s : State} (hfull : s.cfg.rxDepth ≤ s.port.rx.length) (bs : List Byte) :
    arrive bs s = s := by
  induction bs with
  | nil => rfl
  | cons b bs ih => rw [arrive, if_neg hfull.not_gt, ih]

/-- Settles O57, by induction on the arrivals: while there is room they append, and from the first that meets a full
FIFO on, both sides keep what was held. -/
theorem fullFifoLosesBytes : Obligations.FullFifoLosesBytes := by
  intro bs
  induction bs with
  | nil =>
    intro s hdepth
    rw [List.append_nil, List.take_of_length_le hdepth]
    rfl
  | cons b bs ih =>
    intro s hdepth
    rcases hdepth.lt_or_eq with hroom | hfull
    · have happended : (s.port.rx ++ [b]).length ≤ s.cfg.rxDepth := by simpa using hroom
      rw [arrive_cons_of_room hroom, ih (setRx (s.port.rx ++ [b]) s) happended]
      simp [setRx]
    · rw [arrive_of_full hfull.ge, ← hfull, List.take_left]

end Sys2Proof.Machine
end

/-! SUPPORT AND PROOFS. The encoding (spec/30): what a word and a byte are to the decoder and that `encode` writes what
`decode` reads, which byte the default map gives each row, and what the rows of spec/30 mean by their directives and
events. -/

section
namespace Sys2Proof.Machine

/-! ## What a word is to the directive and event decoders (R97 to R104) -/

/-- A directive word decodes exactly where its kind is one of R99 and its fields are well formed (R100, R101). -/
theorem decodeDir_eq_ok {n : Nat} {w : Word40} {i : Instr} :
    decodeDir n w = .ok i ↔
      dirOfFields (wordKind w) (wordCh w) (wordArg w) = .ok i ∧
        dirFieldsWf n (wordKind w) (wordCh w) (wordArg w) = true := by
  unfold decodeDir
  cases dirOfFields (wordKind w) (wordCh w) (wordArg w) with
  | error e => simp
  | ok j =>
    cases dirFieldsWf n (wordKind w) (wordCh w) (wordArg w) <;> simp

/-- The word of a well-formed directive decodes to it. -/
theorem decode_encode_directive {x : Ctx} {i : Instr} (h : i.dirWf x.cfg.npreset = true) :
    decode x (encode x i) = .ok [i] := by
  have word {k c : BitVec 4} {a : Arg32} (hi : dirOfFields k c a = .ok i)
      (hwf : dirFieldsWf x.cfg.npreset k c a = true) : decode x (.dir (mkWord k c a)) = .ok [i] := by
    have hdec : decodeDir x.cfg.npreset (mkWord k c a) = .ok i :=
      decodeDir_eq_ok.mpr (by simpa using ⟨hi, hwf⟩)
    rw [decode, hdec]
    rfl
  cases i
  case setRate | setAbsoluteTarget | stepRelative | adjustRatePreset | parseError => exact word rfl h
  case stop c =>
    have hc : c ≠ 0xF#4 := by
      rintro rfl
      cases h
    exact word (congrArg Except.ok (if_neg hc)) rfl
  case stopAll | queryStatus => exact word rfl rfl
  all_goals cases h

/-- The word of a well-formed event decodes to it. -/
theorem decode_encode_event {x : Ctx} {i : Instr} (h : i.evWf = true) : decode x (encode x i) = .ok [i] := by
  cases i
  case evOverflow | evWdTimeout | evStatus => rfl
  case evParseError r =>
    obtain ⟨hlo, hhi⟩ : 1 ≤ r.toNat ∧ r.toNat ≤ 4 := by simpa [Instr.evWf] using h
    simp [encode, decode, decodeEv, hlo, hhi, Except.map]
  case evSavePos c p =>
    have hc : c.toNat ≤ 14 := of_decide_eq_true h
    simp [encode, decode, decodeEv, hc, Except.map]
  all_goals cases h

/-! ## What a byte is to the two byte decoders (R95, R212, R220) -/

/-- A byte that the default map gives a row is that row. -/
theorem decode_defaultRow {x : Ctx} {b : Byte} {i : Instr} (hx : x.charDefault = true)
    (hrow : defaultRow x.cfg.npreset b = some i) : decode x (.bytes [b]) = .ok [i] := by
  obtain ⟨hp, hm⟩ : x.cfg.protocol = .char ∧ x.cfg.charMap = .default := by simpa [Ctx.charDefault] using hx
  simp [decode, decodeByte, hp, hm, decodeCharByte, hrow]

/-- A byte with no entry in the configured map is unmapped. -/
theorem decodeByte_unmapped {x : Ctx} {b : Byte} (hp : x.cfg.protocol = .char) (hb : x.unmapped b = true) :
    decodeByte x b = .ok [.charUnmapped b] := by
  unfold Ctx.unmapped at hb
  unfold decodeByte
  rw [hp]
  cases hm : x.cfg.charMap with
  | default =>
    rw [hm] at hb
    simp [decodeCharByte, Option.isNone_iff_eq_none.mp hb]
  | custom entries =>
    rw [hm] at hb
    simp [Option.isNone_iff_eq_none.mp hb]

theorem decodeByte_frame {x : Ctx} (hp : x.cfg.protocol = .frame) (b : Byte) :
    decodeByte x b = .ok [decodeFrameByte x b] := by
  unfold decodeByte
  rw [hp]

theorem decodeFrameByte_start (x : Ctx) : decodeFrameByte x x.cfg.startB = .frameStart := if_pos rfl

theorem decodeFrameByte_outside {x : Ctx} {b : Byte} (hf : x.framing = false) (hb : b ≠ x.cfg.startB) :
    decodeFrameByte x b = .frameIgnored b := by
  rw [decodeFrameByte, if_neg hb, if_pos hf]

theorem decodeFrameByte_end {x : Ctx} (hf : x.framing = true) (hb : x.cfg.endB ≠ x.cfg.startB) :
    decodeFrameByte x x.cfg.endB = .frameEnd := by
  simp [decodeFrameByte, hf, hb]

/-- A byte inside a frame that is neither `START` nor `END` is stored, or at `CAP` overflows (R224, R225). -/
theorem decodeFrameByte_inside {x : Ctx} {b : Byte} (hf : x.framing = true) (hs : b ≠ x.cfg.startB)
    (he : b ≠ x.cfg.endB) :
    decodeFrameByte x b = if x.cursor = x.cfg.cap then .frameOverflow b else .frameBody b := by
  simp [decodeFrameByte, hf, hs, he]

/-- The composite frame reads back whole (R93, R94). -/
theorem decode_encode_frame {x : Ctx} {body : List Byte} (hp : x.cfg.protocol = .frame)
    (hok : bodyOk x.cfg.sepB body = true) (hlen : body.length ≤ x.cfg.cap) :
    decode x (encode x (.frame body)) = .ok [.frame body] := by
  have hwhole : decodeWholeFrame x (x.cfg.startB :: (body ++ [x.cfg.endB])) = .ok (.frame body) := by
    simp [decodeWholeFrame, splitLast_append, hp, hok, hlen]
  obtain ⟨b, bs, hbs⟩ : ∃ b bs, body ++ [x.cfg.endB] = b :: bs := List.exists_cons_of_ne_nil (by simp)
  rw [hbs] at hwhole
  rw [encode, hbs, decode, hwhole]
  · rfl
  · simp

/-- In `FRAME` mode each frame row's encoding reads back as it, where the parser's state is the one its row names. -/
theorem decode_encode_frameRow {x : Ctx} {b : Byte} {i : Instr} (hp : x.inFrameMode = true)
    (hrow : decodeFrameByte x b = i) : decode x (.bytes [b]) = .ok [i] := by
  rw [← hrow]
  exact decodeByte_frame (eq_of_beq hp) b

/-- Settles O1: a directive or an event by its word's fields, a byte row by what its byte is in the state its
well-formedness names, the composite frame by splitting off `START` and `END`. -/
theorem decodeEncodeRoundTrip : Obligations.DecodeEncodeRoundTrip := by
  intro x i _ h
  cases i
  case fwd | rev | left | right | stopKey | stopSpace | query | jogFwd | jogRev | home =>
    exact decode_defaultRow h rfl
  case preset0 | preset1 | preset2 | preset3 | preset4 | preset5 | preset6 | preset7 | preset8 =>
    obtain ⟨hx, hk⟩ := Bool.and_eq_true_iff.mp h
    exact decode_defaultRow hx (if_pos (of_decide_eq_true hk))
  case charUnmapped b =>
    obtain ⟨hp, hb⟩ := Bool.and_eq_true_iff.mp h
    exact decodeByte_unmapped (eq_of_beq hp) hb
  case frameStart => exact decode_encode_frameRow h (decodeFrameByte_start x)
  case frameEnd =>
    simp only [Instr.wf, Bool.and_eq_true, bne_iff_ne] at h
    obtain ⟨⟨hp, hf⟩, hne⟩ := h
    exact decode_encode_frameRow hp (decodeFrameByte_end hf hne)
  case frameBody b =>
    simp only [Instr.wf, Bool.and_eq_true, bne_iff_ne, decide_eq_true_eq] at h
    obtain ⟨⟨⟨⟨hp, hf⟩, hs⟩, he⟩, hcap⟩ := h
    exact decode_encode_frameRow hp ((decodeFrameByte_inside hf hs he).trans (if_neg hcap.ne))
  case frameOverflow b =>
    simp only [Instr.wf, Bool.and_eq_true, bne_iff_ne, beq_iff_eq] at h
    obtain ⟨⟨⟨⟨hp, hf⟩, hs⟩, he⟩, hcap⟩ := h
    exact decode_encode_frameRow hp ((decodeFrameByte_inside hf hs he).trans (if_pos hcap))
  case frameIgnored b =>
    simp only [Instr.wf, Bool.and_eq_true, bne_iff_ne, Bool.not_eq_true'] at h
    obtain ⟨⟨hp, hf⟩, hb⟩ := h
    exact decode_encode_frameRow hp (decodeFrameByte_outside hf hb)
  case frame body =>
    simp only [Instr.wf, Bool.and_eq_true, decide_eq_true_eq] at h
    obtain ⟨⟨hp, hok⟩, hlen⟩ := h
    exact decode_encode_frame (eq_of_beq hp) hok hlen
  case setRate | setAbsoluteTarget | stepRelative | stop | stopAll | queryStatus | adjustRatePreset | parseError =>
    exact decode_encode_directive h
  case evParseError | evOverflow | evWdTimeout | evStatus | evSavePos => exact decode_encode_event h

/-! ## One word, one directive (R99 to R101) -/

/-- Fields that are well formed for their kind make a well-formed directive, and `encode` writes these very fields. -/
theorem encode_of_dirOfFields {n : Nat} {k c : BitVec 4} {a : Arg32} {i : Instr} (x : Ctx)
    (hi : dirOfFields k c a = .ok i) (hwf : dirFieldsWf n k c a = true) :
    i.dirWf n = true ∧ encode x i = .dir (mkWord k c a) := by
  unfold dirOfFields at hi
  split at hi
  case h_1 hk | h_2 hk | h_3 hk =>
    cases hi
    obtain ⟨-, rfl⟩ := BitVec.toNat_eq_nat.mp hk
    exact ⟨hwf, rfl⟩
  case h_4 hk =>
    obtain ⟨-, rfl⟩ := BitVec.toNat_eq_nat.mp hk
    obtain rfl : a = 0#32 := eq_of_beq hwf
    cases hi
    split_ifs with hc
    · subst hc
      exact ⟨rfl, rfl⟩
    · refine ⟨decide_eq_true ?_, rfl⟩
      bv_omega
  case h_5 hk =>
    obtain ⟨-, rfl⟩ := BitVec.toNat_eq_nat.mp hk
    obtain ⟨hc, ha⟩ := Bool.and_eq_true_iff.mp hwf
    obtain rfl := eq_of_beq hc
    obtain rfl := eq_of_beq ha
    cases hi
    exact ⟨rfl, rfl⟩
  case h_6 hk =>
    obtain ⟨-, rfl⟩ := BitVec.toNat_eq_nat.mp hk
    obtain ⟨hc, ha⟩ := Bool.and_eq_true_iff.mp hwf
    obtain rfl := eq_of_beq hc
    cases hi
    exact ⟨ha, rfl⟩
  case h_7 hk =>
    obtain ⟨-, rfl⟩ := BitVec.toNat_eq_nat.mp hk
    obtain ⟨hc, -⟩ : (c = 0xF#4 ∧ 1 ≤ a.toNat) ∧ a.toNat ≤ 4 := by simpa [dirFieldsWf] using hwf
    obtain ⟨rfl, -⟩ := hc
    cases hi
    exact ⟨hwf, rfl⟩
  case h_8 => cases hi

/-- Settles O2: the decoder reads a word's three fields, and a word is its three fields. -/
theorem directiveWordsHaveOneMeaning : Obligations.DirectiveWordsHaveOneMeaning := by
  intro x w i h
  obtain ⟨hi, hwf⟩ := decodeDir_eq_ok.mp h
  have hmeaning := encode_of_dirOfFields x hi hwf
  rwa [mkWord_fields] at hmeaning

/-- Kinds 0x7 to 0xF are no kind of R99. -/
theorem dirOfFields_reserved {k : BitVec 4} (hk : 7 ≤ k.toNat) (c : BitVec 4) (a : Arg32) :
    dirOfFields k c a = .error .reservedKind := by
  unfold dirOfFields
  split
  case h_8 => rfl
  all_goals omega

/-- Settles O3: the kind is read before the fields are checked, and both must pass. -/
theorem reservedAndIllFormedWordsRefused : Obligations.ReservedAndIllFormedWordsRefused := by
  refine ⟨fun n w hk => ?_, fun n w i hwf h => ?_⟩
  · rw [decodeDir, dirOfFields_reserved hk]
  · rw [(decodeDir_eq_ok.mp h).2] at hwf
    cases hwf

/-- Settles O4: each word evaluated. -/
theorem writtenOutWordsDecode : Obligations.WrittenOutWordsDecode := by
  refine ⟨?_, ?_, ?_, ?_, ?_, ?_, ?_, ?_, ?_⟩ <;> decide

end Sys2Proof.Machine
end

section
namespace Sys2Proof.Machine

/-! ## The default byte map (R95, R108) -/

/-- A row of the default map is a command, or a preset the deployment has at its digit. -/
theorem mem_byteRows {n : Nat} {b : Byte} {i : Instr} :
    (b, i) ∈ byteRows n ↔
      (b, i) ∈ commandRows ∨ ∃ k, (i, k) ∈ presetRows ∧ k < n ∧ b = BitVec.ofNat 8 (0x31 + k) := by
  unfold byteRows
  simp only [List.mem_append, List.mem_map, List.mem_filter, decide_eq_true_eq, Prod.exists, Prod.mk.injEq]
  constructor
  · rintro (h | ⟨_, k, ⟨hrow, hk⟩, rfl, rfl⟩)
    · exact .inl h
    · exact .inr ⟨k, hrow, hk, rfl⟩
  · rintro (h | ⟨k, hrow, hk, rfl⟩)
    · exact .inl h
    · exact .inr ⟨i, k, ⟨hrow, hk⟩, rfl, rfl⟩

/-- The default map's `match` selects for a byte the row that the table of R95 has for it. -/
theorem defaultRow_eq_some {n : Nat} {b : Byte} {i : Instr} : defaultRow n b = some i ↔ (b, i) ∈ byteRows n := by
  rw [mem_byteRows]
  constructor
  · intro h
    unfold defaultRow at h
    split at h
    case h_26 => cases h
    case h_12 hb | h_13 hb | h_14 hb | h_15 hb | h_16 hb | h_17 hb | h_18 hb | h_19 hb | h_20 hb =>
      split_ifs at h with hn
      cases h
      exact .inr ⟨_, by simp [presetRows], hn, (BitVec.toNat_eq_nat.mp hb).2⟩
    all_goals
      rename_i hb
      cases h
      rw [(BitVec.toNat_eq_nat.mp hb).2]
      exact .inl (by simp [commandRows])
  · have commands : ∀ e ∈ commandRows, defaultRow n e.1 = some e.2 := by
      intro e he
      unfold commandRows at he
      fin_cases he <;> rfl
    have presets : ∀ e ∈ presetRows, e.2 < n → defaultRow n (BitVec.ofNat 8 (0x31 + e.2)) = some e.1 := by
      intro e he hn
      unfold presetRows at he
      fin_cases he <;> exact if_pos hn
    rintro (h | ⟨k, hrow, hk, rfl⟩)
    · exact commands (b, i) h
    · exact presets (i, k) hrow hk

/-- The first entry of the table for a byte is its only one. -/
theorem defaultRow_eq_lookup (n : Nat) (b : Byte) : defaultRow n b = (byteRows n).lookup b := by
  cases h : (byteRows n).lookup b with
  | some i =>
    obtain ⟨front, back, heq, -⟩ := List.lookup_eq_some_iff.mp h
    refine defaultRow_eq_some.mpr ?_
    rw [heq]
    exact List.mem_append_right _ List.mem_cons_self
  | none =>
    rw [Option.eq_none_iff_forall_ne_some]
    intro i hi
    simpa using List.lookup_eq_none_iff.mp h (b, i) (defaultRow_eq_some.mp hi)

theorem not_mem_byteRows_charUnmapped (n : Nat) (b c : Byte) : (b, .charUnmapped c) ∉ byteRows n := by
  rw [mem_byteRows]
  simp [commandRows, presetRows]

/-- The bytes with a row of their own are those the table lists. -/
theorem decodeCharByte_ne_charUnmapped {n : Nat} {b : Byte} :
    decodeCharByte n b ≠ .charUnmapped b ↔ b ∈ (byteRows n).map Prod.fst := by
  unfold decodeCharByte
  cases h : defaultRow n b with
  | none =>
    refine iff_of_false (fun hne => hne rfl) fun hb => ?_
    obtain ⟨⟨_, i⟩, hmem, rfl⟩ := List.mem_map.mp hb
    rw [defaultRow_eq_some.mpr hmem] at h
    cases h
  | some i =>
    have hmem := defaultRow_eq_some.mp h
    have hi : i ≠ .charUnmapped b := by
      rintro rfl
      exact not_mem_byteRows_charUnmapped n b b hmem
    exact iff_of_true hi (List.mem_map.mpr ⟨(b, i), hmem, rfl⟩)

/-- Settles O5: the default map by its table of rows, RC-B by the frame parser's tests in their order. -/
theorem referenceByteMap : Obligations.ReferenceByteMap := by
  refine ⟨fun b => ?_, fun x b hp hm => ?_, fun n k b => ?_, fun n k b => ⟨?_, ?_, fun hs he => ?_⟩⟩
  · have hbytes : b.toNat ∈ ((byteRows 3).map Prod.fst).map BitVec.toNat ↔ b ∈ (byteRows 3).map Prod.fst :=
      List.mem_map_of_injective fun _ _ => BitVec.eq_of_toNat_eq
    rw [decodeCharByte_ne_charUnmapped, ← hbytes]
    exact List.Perm.mem_iff (by decide)
  · rw [decodeByte, hp, hm, ← defaultRow_eq_lookup]
    rfl
  · intro x
    rw [decodeByte_frame (x := x) rfl]
    split_ifs with hb
    · subst hb
      rfl
    · rw [decodeFrameByte_outside rfl hb]
  · rintro rfl
    rfl
  · rintro rfl
    rfl
  · rw [decodeByte_frame rfl, decodeFrameByte_inside rfl hs he]

end Sys2Proof.Machine
end

section
namespace Sys2Proof.Machine

/-! ## Bytes waiting in the FIFO (R75, R282) -/

/-- Set the FIFO to these bytes where the outcome has a next state. -/
def thenSetRx (rest : List Byte) (r : Result) : Result := andThen r fun t => .next (setRx rest t)

theorem applyValid_setRx {ok : Bool} {f : State → State} {rest : List Byte} {s : State}
    (hf : ∀ u, f (setRx rest u) = setRx rest (f u)) :
    applyValid ok f (setRx rest s) = thenSetRx rest (applyValid ok f s) := by
  cases ok with
  | true => exact congrArg Host.Outcome.next (hf (wdRefresh s))
  | false => rfl

theorem updChan_setRx (c : Nat) (f : ChanCfg → ChanRegs → ChanRegs) (rest : List Byte) (s : State) :
    updChan c f (setRx rest s) = setRx rest (updChan c f s) := by
  unfold updChan
  rw [setRx_cfg, setRx_chan]
  split <;> rfl

theorem stopEvery_setRx (rest : List Byte) (s : State) : stopEvery (setRx rest s) = setRx rest (stopEvery s) :=
  List.foldl_hom (setRx rest) fun u c => updChan_setRx c (stopRegs u.sq.now) rest u

theorem snapshot_setRx (rest : List Byte) (s : State) : snapshot (setRx rest s) = snapshot s := by
  have parts (n : Nat) (l : List ChanCfg) : statusFrom (setRx rest s) n l = statusFrom s n l := by
    induction l generalizing n with
    | nil => rfl
    | cons cc l ih => simp [statusFrom, ih]
  unfold snapshot
  rw [setRx_cfg, parts]
  rfl

theorem execParseError_setRx (r : Arg32) (rest : List Byte) (s : State) :
    execParseError r (setRx rest s) = thenSetRx rest (execParseError r s) := by
  unfold execParseError
  rw [setRx_cfg]
  split_ifs <;> rfl

/-- A directive neither reads nor writes the FIFO. -/
theorem applyDirective_setRx (d : Instr) (rest : List Byte) (s : State) :
    applyDirective d (setRx rest s) = thenSetRx rest (applyDirective d s) := by
  cases d
  case setRate | setAbsoluteTarget | stepRelative | stop => exact applyValid_setRx fun u => updChan_setRx _ _ rest u
  case stopAll => exact applyValid_setRx (ok := true) (stopEvery_setRx rest)
  case queryStatus =>
    refine applyValid_setRx (ok := true) fun u => ?_
    rw [raiseStatus, snapshot_setRx]
    rfl
  case adjustRatePreset => exact applyValid_setRx fun u => rfl
  case parseError r => exact execParseError_setRx r rest s
  all_goals rfl

theorem applyAll_setRx (ds : List Instr) (rest : List Byte) (s : State) :
    applyAll ds (setRx rest s) = thenSetRx rest (applyAll ds s) := by
  induction ds generalizing s with
  | nil => rfl
  | cons d ds ih =>
    rw [applyAll, applyDirective_setRx]
    unfold applyAll
    cases applyDirective d s with
    | next t => exact ih t
    | fault f => rfl
    | refused f => rfl

/-- The frame parser neither reads nor writes the FIFO. -/
theorem frameByte_setRx (b : Byte) (rest : List Byte) (s : State) :
    frameByte b (setRx rest s) = thenSetRx rest (frameByte b s) := by
  rw [← exec_decodeFrameByte, ← exec_decodeFrameByte]
  show exec (decodeFrameByte s.ctx b) (setRx rest s) = _
  unfold decodeFrameByte
  split_ifs
  · show execFrameStart (setRx rest s) = thenSetRx rest (execFrameStart s)
    unfold execFrameStart
    rw [setRx_ps, execParseError_setRx]
    split_ifs
    · cases execParseError reasonAbandoned s <;> rfl
    · rfl
  · rfl
  · exact applyAll_setRx (parseBody s.cfg (bufBody s)) rest (closeFrame s)
  · rfl
  · show execFrameBody b (setRx rest s) = thenSetRx rest (execFrameBody b s)
    unfold execFrameBody bufWrite
    rw [setRx_ps, setRx_cfg]
    split_ifs <;> rfl

theorem execByte_frame {s : State} (hp : s.cfg.protocol = .frame) (b : Byte) : execByte b s = frameByte b s := by
  rw [execByte, decodeByte_frame (x := s.ctx) hp, ← exec_decodeFrameByte]
  show andThen (exec (decodeFrameByte s.ctx b) s) .next = _
  cases exec (decodeFrameByte s.ctx b) s <;> rfl

/-- In `FRAME` mode the drain of exactly the bytes in the FIFO is the frame parser's run over them. -/
theorem drainBytes_frame {bs : List Byte} {s : State} (hp : s.cfg.protocol = .frame) :
    drainBytes bs (setRx bs s) = thenSetRx [] (frameBytes bs s) := by
  induction bs generalizing s with
  | nil => rfl
  | cons b bs ih =>
    calc drainBytes (b :: bs) (setRx (b :: bs) s)
        = andThen (execByte b (setRx bs s)) (drainBytes bs) := rfl
      _ = andThen (thenSetRx bs (frameByte b s)) (drainBytes bs) := by
          rw [execByte_frame (s := setRx bs s) hp, frameByte_setRx]
      _ = thenSetRx [] (frameBytes (b :: bs) s) := by
          unfold frameBytes
          cases h : frameByte b s with
          | next t =>
            have ht : t.cfg.protocol = .frame := by rw [(frameByte_keepsSaves h).1, hp]
            exact ih ht
          | fault f => rfl
          | refused r => rfl

/-- Settles O41: the first pop sets the FIFO to the bytes behind it, so what it held before does not matter. -/
theorem frameInFifoRunsComposite : Obligations.FrameInFifoRunsComposite :=
  fun s body hp => drainBytes_frame (bs := s.cfg.startB :: (body ++ [s.cfg.endB])) hp

end Sys2Proof.Machine
end

section
namespace Sys2Proof.Machine

/-! ## The byte rows and their directives (R95, R211) -/

theorem plusArg_eq (p : Nat) : plusArg p = BitVec.ofInt 32 p := (BitVec.ofInt_natCast 32 p).symm

/-- Every drive row reads the preset once and applies its pair of `SetRate`s. -/
theorem exec_driveRow {e : Instr × Int × Int} (he : e ∈ driveRows) (s : State) :
    exec e.1 s =
      drive (fun p => BitVec.ofInt 32 (e.2.1 * p)) (fun p => BitVec.ofInt 32 (e.2.2 * p)) s := by
  have plus : plusArg = fun p : Nat => BitVec.ofInt 32 (1 * p) := by
    funext p
    rw [plusArg_eq, one_mul]
  have minus : minusArg = fun p : Nat => BitVec.ofInt 32 (-1 * p) := by
    funext p
    rw [minusArg, neg_one_mul]
  unfold driveRows at he
  fin_cases he
  · exact congrArg₂ (drive · · s) plus plus
  · exact congrArg₂ (drive · · s) minus minus
  · exact congrArg₂ (drive · · s) minus plus
  · exact congrArg₂ (drive · · s) plus minus

/-- A `SetRate` on a channel index of R100 answers a next state. -/
theorem exec_setRate_next {c : BitVec 4} (hc : c.toNat ≤ 14) (a : Arg32) (s : State) :
    ∃ t, exec (.setRate c a) s = .next t :=
  applyDirective_next (d := .setRate c a) (decide_eq_true hc)

/-- Settles O30: `Sound` gives the selected preset, and a `SetRate` on channel 0 or 1 is always well formed. -/
theorem driveCommandsApplyTheirPair : Obligations.DriveCommandsApplyTheirPair := by
  intro s e he
  rw [exec_driveRow he]
  refine ⟨fun hs => ?_, fun hnone => ?_⟩
  · have hidx : s.sq.presetIdx.toNat < s.cfg.presets.length := (sound_iff.mp hs).preset
    set p := s.cfg.presets[s.sq.presetIdx.toNat]
    have hp : s.preset = some p := List.getElem?_eq_getElem hidx
    obtain ⟨t, ht⟩ := exec_setRate_next (c := 0#4) (by decide) (BitVec.ofInt 32 (e.2.1 * p)) s
    obtain ⟨u, hu⟩ := exec_setRate_next (c := 1#4) (by decide) (BitVec.ofInt 32 (e.2.2 * p)) t
    refine ⟨p, t, u, hp, ht, hu, drive_eq_next.mpr ⟨p, hp, ?_⟩⟩
    exact andThen_eq_next.mpr ⟨t, ht, by rw [applyAll_one]; exact hu⟩
  · have hp : s.preset = none := List.getElem?_eq_none hnone
    rw [drive, hp]

theorem exec_presetRow {e : Instr × Nat} (he : e ∈ presetRows) (s : State) : exec e.1 s = presetKey e.2 s := by
  unfold presetRows at he
  fin_cases he <;> rfl

/-- Settles O31: the row's one directive is well formed exactly where the deployment has the preset. -/
theorem presetCommandsSelect : Obligations.PresetCommandsSelect := by
  intro s hs e he
  rw [exec_presetRow he]
  refine ⟨fun hk => ?_, fun hk => if_neg hk.not_gt⟩
  have hle : s.cfg.npreset ≤ 9 := (wf_scalars (sound_iff.mp hs).wf).npreset.2
  have harg : (BitVec.ofNat 32 e.2).toNat = e.2 := by
    rw [BitVec.toNat_ofNat]
    omega
  have hexec : exec (.adjustRatePreset (BitVec.ofNat 32 e.2)) s =
      .next (applyPreset (BitVec.ofNat 32 e.2) (wdRefresh s)) := by
    refine applyValid_eq_next.mpr ⟨?_, rfl⟩
    rw [Instr.dirWf, dirFieldsWf_preset, harg]
    exact decide_eq_true hk
  refine ⟨_, ?_, hexec, ?_, rfl, fun _ => rfl⟩
  · rw [presetKey, if_pos hk, applyAll_one]
    exact hexec
  · show (BitVec.ofNat 4 (BitVec.ofNat 32 e.2).toNat).toNat = e.2
    rw [harg, BitVec.toNat_ofNat]
    omega

/-- A count of at most 2^31 - 1 steps either way is well formed (R100 item 7). -/
theorem dirWf_stepRelative_ofInt {n : Int} (hn : n.natAbs ≤ 2147483647) (npreset : Nat) :
    Instr.dirWf npreset (.stepRelative 0#4 (BitVec.ofInt 32 n)) = true := by
  have hne : BitVec.ofInt 32 n ≠ 0x80000000#32 := by
    intro h
    have hn' := toInt_ofInt32 hn
    rw [h] at hn'
    have : (0x80000000#32).toInt = -2147483648 := rfl
    omega
  simp [Instr.dirWf, dirFieldsWf_stepRelative, hne]

/-- A row that applies one well-formed directive answers its next state. -/
theorem exec_row_of_directive {d row : Instr} {s : State} (hd : d.dirWf s.cfg.npreset = true)
    (hrow : exec row s = applyAll [d] s) : ∃ t, exec d s = .next t ∧ exec row s = .next t := by
  obtain ⟨t, ht⟩ := applyDirective_next hd
  exact ⟨t, by rw [exec_directive hd, ht], by rw [hrow, applyAll_one, ht]⟩

/-- Settles O32: `JOG_STEPS` is at most 2^31 - 1, so both counts are well formed. -/
theorem jogAndHomeApplyTheirDirective : Obligations.JogAndHomeApplyTheirDirective := by
  intro s hs
  have hjog : s.cfg.jogSteps ≤ 2147483647 := (wf_scalars (sound_iff.mp hs).wf).jogSteps.2
  refine ⟨?_, ?_, ?_⟩
  · refine exec_row_of_directive (dirWf_stepRelative_ofInt (by omega) _) ?_
    rw [← plusArg_eq]
    rfl
  · exact exec_row_of_directive (dirWf_stepRelative_ofInt (by omega) _) rfl
  · exact exec_row_of_directive rfl rfl

/-! ## Ill-formed directives and events (R100, R104; log 30) -/

/-- What is no well-formed directive is refused (R288). -/
theorem applyDirective_refused {d : Instr} {s : State} (h : d.dirWf s.cfg.npreset = false) :
    applyDirective d s = .refused .illFormedDirective := by
  cases d
  case setRate | setAbsoluteTarget | stepRelative | stop | adjustRatePreset | parseError => exact if_neg (by simp [h])
  case stopAll | queryStatus => cases h
  all_goals rfl

theorem emitValid_refused {ok : Bool} (f : State → State) (s : State) (h : ok = false) :
    emitValid ok f s = .refused .illFormedEvent := by
  simp [emitValid, h]

/-- A reason outside 1 to 4 is no reason (R104). -/
theorem reason_not_wf {r : Arg32} (h : r.toNat = 0 ∨ 5 ≤ r.toNat) :
    (decide (1 ≤ r.toNat) && decide (r.toNat ≤ 4)) = false := by
  rw [Bool.and_eq_false_iff, decide_eq_false_iff_not, decide_eq_false_iff_not]
  omega

/-- Settles O28: each is `dirFieldsWf` or `evWf` of its row at the operand named. -/
theorem illFormedWordsRefused : Obligations.IllFormedWordsRefused := by
  refine fun s => ⟨fun a => ?_, fun a => ?_, fun c a h => ?_, ?_, fun k hk => ?_, fun r hr => ?_, fun r hr => ?_,
    fun p => ?_⟩
  · exact applyDirective_refused (d := .setRate 0xF#4 a) rfl
  · exact applyDirective_refused (d := .setAbsoluteTarget 0xF#4 a) rfl
  · refine applyDirective_refused (d := .stepRelative c a) ?_
    rw [Instr.dirWf, dirFieldsWf_stepRelative]
    rcases h with rfl | rfl <;> simp
  · exact applyDirective_refused (d := .stop 0xF#4) rfl
  · exact applyDirective_refused (d := .adjustRatePreset k) (decide_eq_false hk.not_gt)
  · exact applyDirective_refused (d := .parseError r) (reason_not_wf hr)
  · exact emitValid_refused (raiseParseError r) s (reason_not_wf hr)
  · exact emitValid_refused (save 0xF#4 p) s rfl

/-! ## The event rows (R104, R320, R301; log 27) -/

theorem emit_sameButLogs (e : DiagEntry) (s : State) : SameButLogs s (emit e s) :=
  ⟨⟨rfl, ⟨rfl, rfl, fun _ => rfl⟩, rfl, rfl, fun _ _ => rfl⟩, rfl, rfl, rfl, rfl⟩

theorem save_sameButLogs (c : BitVec 4) (p : BitVec 32) (s : State) : SameButLogs s (save c p s) :=
  ⟨⟨rfl, ⟨rfl, rfl, fun _ => rfl⟩, rfl, rfl, fun _ _ => rfl⟩, rfl, rfl, rfl, rfl⟩

/-- `snapshot` is the snapshot of R294. -/
theorem snapshotOf_snapshot (s : State) : SnapshotOf s (snapshot s) := by
  refine ⟨rfl, rfl, rfl, rfl, statusFrom_length s 0 s.cfg.chans, fun c cc hc => ?_⟩
  have hpart := statusFrom_get s 0 s.cfg.chans c cc hc
  rw [Nat.zero_add] at hpart
  exact hpart

/-- An event row with a well-formed word emits its one entry. -/
theorem emitValid_emits {ok : Bool} (hok : ok = true) (e : DiagEntry) (s : State) :
    ∃ t, emitValid ok (emit e) s = .next t ∧ SameButLogs s t ∧ Emitted [e] s t :=
  ⟨emit e s, emitValid_eq_next.mpr ⟨hok, rfl⟩, emit_sameButLogs e s, rfl, rfl⟩

/-- Settles O29: an event row is one `emit`, `EV_SAVE_POS` one `save`, and both change the logs only. -/
theorem eventRowsResult : Obligations.EventRowsResult := by
  refine fun s => ⟨fun r hlo hhi => ?_, ?_, ?_, ?_, fun c p hc => ?_⟩
  · exact emitValid_emits (by simp [Instr.evWf, hlo, hhi]) (plainEvent (0x1F#8 ++ r)) s
  · exact emitValid_emits rfl (plainEvent 0x2F00000000#40) s
  · exact emitValid_emits rfl (plainEvent 0x3F00000000#40) s
  · exact ⟨raiseStatus s, snapshot s, rfl, emit_sameButLogs _ s, ⟨rfl, rfl⟩, snapshotOf_snapshot s⟩
  · exact ⟨save c p s, emitValid_eq_next.mpr ⟨decide_eq_true hc, rfl⟩, save_sameButLogs c p s, rfl, rfl⟩

end Sys2Proof.Machine
end

/-! SUPPORT AND PROOFS. The step tables (spec/40): how neighbouring patterns differ, and the cycle of the phases under
advances in one direction. -/

section
namespace Sys2Proof.Machine

/-! ## The transition invariant (R133) -/

/-- Inside its table a pattern is the table's entry (R130). -/
theorem patternAt_eq_getElem {t : Table} {p : Nat} (h : p < (tableData t).length) :
    patternAt t p = some (tableData t)[p] := List.getElem?_eq_getElem h

theorem halfData_neighbours_one_coil :
    ∀ (p : Nat) (hp : p < 8),
      halfData[p]'hp ^^^ halfData[(p + 1) % 8]'(Nat.mod_lt _ (by decide)) ∈ [1#4, 2#4, 4#4, 8#4] := by
  decide

theorem fullData_next_rotateLeft :
    ∀ (p : Nat) (hp : p < 4),
      fullData[(p + 1) % 4]'(Nat.mod_lt _ (by decide)) = (fullData[p]'hp).rotateLeft 1 := by
  decide

/-- Settles O44: both phases lie in the table, and the table's neighbouring entries are as R133 says. -/
theorem stepTableTransitions : Obligations.StepTableTransitions := by
  refine ⟨fun p hp => ?_, fun p hp => ?_⟩
  · exact ⟨_, _, _, patternAt_eq_getElem (t := .half) hp, patternAt_eq_getElem (t := .half) (Nat.mod_lt _ (by decide)),
      rfl, halfData_neighbours_one_coil p hp⟩
  · exact ⟨_, _, patternAt_eq_getElem (t := .full) hp, patternAt_eq_getElem (t := .full) (Nat.mod_lt _ (by decide)),
      fullData_next_rotateLeft p hp⟩

/-! ## The cycle of the phases (R134, R150) -/

theorem advanceRegs_phase_lt (now : Nat) (cc : ChanCfg) (x : ChanRegs) :
    (advanceRegs now cc x).phase.toNat < cc.phases := by
  have hphases : (0 : Int) < cc.phases := Int.natCast_pos.mpr (phases_le cc).1
  have hlt := Int.emod_lt_of_pos ((x.phase.toNat : Int) + sgn x.rate.toInt) hphases
  rw [← advanceRegs_phase now cc x] at hlt
  exact Int.ofNat_lt.mp hlt

/-- After `n` advances the phase stands `n` steps of the rate's sign further round the table: an advance leaves the rate
as it is, so all `n` go in one direction. -/
theorem advances_phase (now : Nat) (cc : ChanCfg) (n : Nat) (x : ChanRegs) (hx : x.phase.toNat < cc.phases) :
    ((advances now cc n x).phase.toNat : Int) = ((x.phase.toNat : Int) + n * sgn x.rate.toInt) % (cc.phases : Int) := by
  induction n generalizing x with
  | zero =>
    rw [advances, Nat.cast_zero, zero_mul, add_zero, Int.emod_eq_of_lt (by omega) (by omega)]
  | succ n ih =>
    have hrate : (advanceRegs now cc x).rate = x.rate := rfl
    calc ((advances now cc (n + 1) x).phase.toNat : Int)
        = (((x.phase.toNat : Int) + sgn x.rate.toInt) % cc.phases + n * sgn x.rate.toInt) % cc.phases := by
          rw [advances, ih _ (advanceRegs_phase_lt now cc x), advanceRegs_phase, hrate]
      _ = ((x.phase.toNat : Int) + (n + 1 : Nat) * sgn x.rate.toInt) % cc.phases := by
          rw [Int.emod_add_emod]
          congr 1
          push_cast
          ring

/-- `N(c)` advances move the phase by a multiple of `N(c)`, whatever the direction. -/
theorem advances_phases_phase (now : Nat) (cc : ChanCfg) (x : ChanRegs) (hx : x.phase.toNat < cc.phases) :
    (advances now cc cc.phases x).phase = x.phase := by
  have hcycle := advances_phase now cc cc.phases x hx
  rw [Int.add_mul_emod_self_left, Int.emod_eq_of_lt (by omega) (by omega)] at hcycle
  exact BitVec.eq_of_toNat_eq (Int.ofNat.inj hcycle)

/-- Settles O45: the pattern is read at the phase, which has come round. -/
theorem fullCycleReturnsPhase : Obligations.FullCycleReturnsPhase := by
  intro now cc x hx _
  have hphase := advances_phases_phase now cc x hx
  exact ⟨hphase, by rw [hphase]⟩

end Sys2Proof.Machine
end

/-! SUPPORT AND PROOFS. The actuator channel (spec/41): what a directive that writes one bank changes, the banks after a
servo target, a stop and a started move, the cases of a tick, a quiet pass, and a move from its start to its end. -/

section
namespace Sys2Proof.Machine

/-! ## Arithmetic of timestamps and runs (R152, R163) -/

/-- Settles O46: both wraps vanish under the residue, and the elapsed time is its own residue. -/
theorem elapsedTimeSurvivesWrap : Obligations.ElapsedTimeSurvivesWrap := by
  intro tsW start elapsed h
  have hlt : (elapsed : Int) < ((2 ^ tsW : Nat) : Int) := Int.ofNat_lt.mpr h
  unfold wsub
  rw [Int.natCast_mod, Int.natCast_mod, ← Int.sub_emod, Nat.cast_add, add_sub_cancel_left,
    Int.emod_eq_of_lt (Int.natCast_nonneg elapsed) hlt, Int.toNat_natCast]

/-- Refutes O60: from the least position to the greatest target are 2^32 - 1 steps. -/
theorem not_referenceRunIsNeverCut : ¬ Obligations.ReferenceRunIsNeverCut := by
  intro h
  exact absurd (h 0x80000000#32 0x7FFFFFFF#32) (by decide)

theorem boundRun_of_le {maxRun : Nat} {d : Int} (h : d.natAbs ≤ maxRun) : boundRun maxRun d = d := if_neg h.not_gt

/-- A rate in the channel's bounds is not changed by the clamp (R140). -/
theorem clampRate_of_bounds {lo hi : Nat} {r : Int} (hlo : lo ≤ r.natAbs) (hhi : r.natAbs ≤ hi) :
    clampRate lo hi r = r := by
  unfold clampRate clamp sgn
  split_ifs <;> omega

theorem sgn_natAbs {v : Int} (h : v ≠ 0) : (sgn v).natAbs = 1 := by
  unfold sgn
  split_ifs <;> omega

theorem sgn_mul_natCast (v : Int) {n : Nat} (h : 1 ≤ n) : sgn (sgn v * n) = sgn v := by
  unfold sgn
  split_ifs <;> omega

theorem wrap32_add (p : BitVec 32) (d : Int) : wrap32 (p.toInt + d) = p + BitVec.ofInt 32 d := by
  rw [wrap32, BitVec.ofInt_add, BitVec.ofInt_toInt]

/-! ## A directive that writes one bank (R288, R289) -/

theorem updChan_wdRefresh_frame (c : Nat) (f : ChanCfg → ChanRegs → ChanRegs) (s : State) :
    DirectiveFrame (· = c) s (updChan c f (wdRefresh s)) := by
  refine ⟨?refreshed, updChan_port .., updChan_cfg .., ?parser, updChan_sq .., updChan_out .., ?banks⟩
  case refreshed => exact updChan_wd ..
  case parser => simp [SameParser]
  case banks => exact fun d hd => chan_updChan_other hd

/-- A well-formed directive whose effect is one bank written answers a next state, with the frame of a directive and
that bank less its hardwired fields. -/
theorem applyValid_writes_bank {ok : Bool} {effect : State → State} {s : State} {c : Nat} {cc : ChanCfg}
    {f : ChanCfg → ChanRegs → ChanRegs} (hs : SoundFacts s) (hc : s.cfg.chans[c]? = some cc) (hok : ok = true)
    (heffect : effect (wdRefresh s) = updChan c f (wdRefresh s)) :
    ∃ t, applyValid ok effect s = .next t ∧ DirectiveFrame (· = c) s t ∧
      t.chan c = maskChan cc (f cc (s.chan c)) :=
  ⟨_, applyValid_eq_next.mpr ⟨hok, heffect⟩, updChan_wdRefresh_frame c f s, chan_updChan_wdRefresh s c cc f hs hc⟩

/-! ## The servo's target (R170) -/

theorem maskChan_servoSetTargetRegs {cc : ChanCfg} (hk : cc.kind = .servo) (v : Int) (x : ChanRegs) :
    maskChan cc (servoSetTargetRegs v x) = servoSetTargetRegs v (maskChan cc x) := by
  simp [maskChan, servoSetTargetRegs, hk]

/-- The angle is the target brought into 0 .. 65535. -/
theorem servoSetTargetRegs_angle (v : Int) (x : ChanRegs) :
    ((servoSetTargetRegs v x).angle.toNat : Int) = max 0 (min v 65535) := by
  show ((BitVec.ofInt 16 (clamp v 0 65535)).toNat : Int) = _
  rw [BitVec.toNat_ofInt]
  unfold clamp
  split_ifs <;> omega

/-- Settles O20: a servo's bank takes the angle and `energized`, neither of which is hardwired. -/
theorem servoTargetResult : Obligations.ServoTargetResult := by
  intro s c a cc hs hc hk
  have hsound := sound_iff.mp hs
  obtain ⟨t, ht, hframe, hbank⟩ := applyValid_writes_bank (effect := applySetTarget c.toNat a.toInt) hsound hc
    (decide_eq_true (wf_chan_le hsound.wf hc)) rfl
  rw [if_pos hk, maskChan_servoSetTargetRegs hk, maskChan_chan hc] at hbank
  refine ⟨t, ht, hframe, ?_, ?_⟩
  · rw [hbank, servoSetTargetRegs_angle]
  · rw [hbank]
    rfl

/-! ## Stopping one channel (R145, R172) -/

theorem maskChan_stopRegs (now : Nat) (cc : ChanCfg) (x : ChanRegs) :
    maskChan cc (stopRegs now cc x) = stopRegs now cc (maskChan cc x) := by
  unfold stopRegs
  cases hk : cc.kind with
  | stepper => simp [setRateRegs_zero, maskChan, hk]
  | dc => simp [setRateRegs_zero, maskChan, hk]
  | servo =>
    unfold servoStopRegs
    cases cc.servoStop <;> simp [maskChan, hk]

/-- `stop` does to a bank what R145 says of its kind and R172 of its policy. -/
theorem stopRegs_stopped (now : Nat) (cc : ChanCfg) (x : ChanRegs) : StoppedChan cc x (stopRegs now cc x) := by
  unfold StoppedChan stopRegs
  cases cc.kind with
  | stepper => simp [setRateRegs_zero]
  | dc => cases hb : cc.brake <;> simp [setRateRegs_zero, brakeAfterStop, hb]
  | servo =>
    unfold servoStopRegs
    cases cc.servoStop <;> simp

/-- Settles O23: `Stop` is one bank stopped. -/
theorem stopResult : Obligations.StopResult := by
  intro s c cc hs hc
  have hsound := sound_iff.mp hs
  obtain ⟨t, ht, hframe, hbank⟩ := applyValid_writes_bank (effect := stopChan c.toNat) hsound hc
    (decide_eq_true (wf_chan_le hsound.wf hc)) rfl
  rw [maskChan_stopRegs, maskChan_chan hc] at hbank
  exact ⟨t, ht, hframe, hbank ▸ stopRegs_stopped _ cc _⟩

/-! ## Starting a move (R160, R161, R165) -/

/-- A started move in full: the rate of `MOVE_RATE` in the run's direction, the target the run ahead of the position. -/
theorem startMoveRegs_of_ne_zero {now : Nat} {d : Int} {cc : ChanCfg} (hcc : cc.wfRates = true)
    (ht : cc.trackPos = true) (hd : boundRun cc.maxRun d ≠ 0) (x : ChanRegs) :
    startMoveRegs now d cc x =
      { x with
        rate := BitVec.ofInt 16 (sgn (boundRun cc.maxRun d) * cc.moveRate)
        energized := true
        brake := false
        moving := true
        target := x.pos + BitVec.ofInt 32 (boundRun cc.maxRun d)
        last := if x.energized then x.last else now } := by
  obtain ⟨hmin, -, -, -, -, -, hmove, -, -⟩ := wfRates_facts hcc
  obtain ⟨hlo, hhi⟩ := hmove ht
  have habs : (sgn (boundRun cc.maxRun d) * (cc.moveRate : Int)).natAbs = cc.moveRate := by
    rw [Int.natAbs_mul, sgn_natAbs hd, Int.natAbs_natCast, one_mul]
  have hclamp : clampRate cc.minRate cc.maxRate (sgn (boundRun cc.maxRun d) * cc.moveRate) = _ :=
    clampRate_of_bounds (habs.symm ▸ hlo) (habs.symm ▸ hhi)
  have hne : sgn (boundRun cc.maxRun d) * (cc.moveRate : Int) ≠ 0 := by
    rw [← Int.natAbs_ne_zero, habs]
    omega
  rw [startMoveRegs, if_neg hd, setRateRegs, hclamp, wrap32_add]
  cases x.energized <;> simp [energizedAfter, lastAfter, hne]

theorem toInt_moveRate {cc : ChanCfg} (hcc : cc.wfRates = true) (ht : cc.trackPos = true) {d : Int} (hd : d ≠ 0) :
    (BitVec.ofInt 16 (sgn d * cc.moveRate)).toInt = sgn d * cc.moveRate := by
  obtain ⟨-, -, hmax, -, -, -, hmove, -, -⟩ := wfRates_facts hcc
  refine toInt_ofInt16 ?_
  rw [Int.natAbs_mul, sgn_natAbs hd, Int.natAbs_natCast, one_mul]
  exact (hmove ht).2.trans hmax

/-- A position-tracking channel is a stepper, and a started move writes none of its hardwired fields. -/
theorem maskChan_startMoveRegs {cc : ChanCfg} (hcc : cc.wfRates = true) (ht : cc.trackPos = true) (now : Nat)
    (d : Int) (x : ChanRegs) : maskChan cc (startMoveRegs now d cc x) = startMoveRegs now d cc (maskChan cc x) := by
  obtain ⟨-, -, -, hstepper, -⟩ := wfRates_facts hcc
  have hk := hstepper ht
  by_cases hd : boundRun cc.maxRun d = 0
  · rw [startMoveRegs, startMoveRegs, if_pos hd, if_pos hd, setRateRegs_zero, setRateRegs_zero]
    simp [maskChan, ht, hk]
  · rw [startMoveRegs_of_ne_zero hcc ht hd, startMoveRegs_of_ne_zero hcc ht hd]
    simp [maskChan, ht, hk]

/-- `startMove` does to a bank what R160 and R161 say of the cut run. -/
theorem startMoveRegs_moved {cc : ChanCfg} (hcc : cc.wfRates = true) (ht : cc.trackPos = true) (now : Nat) (d : Int)
    (x : ChanRegs) : MovedChan cc now (cutRun cc.maxRun d) x (startMoveRegs now d cc x) := by
  rw [cutRun_eq_boundRun]
  by_cases hd : boundRun cc.maxRun d = 0
  · rw [startMoveRegs, if_pos hd, setRateRegs_zero]
    simp [MovedChan, hd]
  · rw [startMoveRegs_of_ne_zero hcc ht hd]
    refine ⟨rfl, rfl, rfl, rfl, fun h => absurd h hd, fun _ => ⟨?rate, rfl, rfl, ?target, rfl⟩⟩
    case rate =>
      rw [toInt_moveRate hcc ht hd]
      unfold sgn
      split_ifs <;> omega
    case target => rw [← wrap32_add, wrap32]

/-- Settles O21: the move of R160 by the integer difference of target and position. -/
theorem moveToTargetResult : Obligations.MoveToTargetResult := by
  intro s c a cc hs hc ht
  have hsound := sound_iff.mp hs
  have hcc := wf_wfRates hsound.wf hc
  have hk : cc.kind ≠ .servo := by
    obtain ⟨-, -, -, hstepper, -⟩ := wfRates_facts hcc
    simp [hstepper ht]
  obtain ⟨t, hexec, hframe, hbank⟩ := applyValid_writes_bank (effect := applySetTarget c.toNat a.toInt) hsound hc
    (decide_eq_true (wf_chan_le hsound.wf hc)) rfl
  rw [if_neg hk, if_pos ht, moveToRegs, maskChan_startMoveRegs hcc ht, maskChan_chan hc] at hbank
  exact ⟨t, hexec, hframe, hbank ▸ startMoveRegs_moved hcc ht _ _ _⟩

/-- Settles O22: the move of R160 by the count itself; the one count R100 item 7 excludes is excluded here. -/
theorem stepRelativeResult : Obligations.StepRelativeResult := by
  intro s c a cc hs hc ht ha
  have hsound := sound_iff.mp hs
  have hcc := wf_wfRates hsound.wf hc
  have hok : Instr.dirWf s.cfg.npreset (.stepRelative c a) = true := by
    simp [Instr.dirWf, dirFieldsWf_stepRelative, wf_chan_le hsound.wf hc, ha]
  obtain ⟨t, hexec, hframe, hbank⟩ := applyValid_writes_bank (effect := applyStepRelative c.toNat a.toInt) hsound hc
    hok rfl
  rw [if_pos ht, stepRelativeRegs, maskChan_startMoveRegs hcc ht, maskChan_chan hc] at hbank
  exact ⟨t, hexec, hframe, hbank ▸ startMoveRegs_moved hcc ht _ _ _⟩

end Sys2Proof.Machine
end

section
namespace Sys2Proof.Machine

/-! ## The cases of a tick (R149, R151, R155, R162) -/

section Tick
variable {timeUnit tsW now : Nat} {cc : ChanCfg} {x : ChanRegs}

theorem tickRegs_of_not_stepper (hk : cc.kind ≠ .stepper) : tickRegs timeUnit tsW now cc x = x := if_pos hk

theorem tickRegs_of_not_due (h : wsub tsW now x.last < interval timeUnit x) : tickRegs timeUnit tsW now cc x = x := by
  unfold tickRegs
  split_ifs <;> rfl

/-- A finished move ends at a due time (R162). -/
theorem tickRegs_of_arrived (hk : cc.kind = .stepper) (hr : x.rate.toInt ≠ 0)
    (hdue : interval timeUnit x ≤ wsub tsW now x.last) (hm : x.moving = true) (hp : x.pos = x.target) :
    tickRegs timeUnit tsW now cc x = { x with rate := 0#16, energized := false, brake := false, moving := false } := by
  rw [tickRegs, if_neg (not_not.mpr hk), if_neg hr, if_neg hdue.not_gt, if_pos ⟨hm, hp⟩, setRateRegs_zero]

/-- Any other running stepper advances one phase at a due time (R150). -/
theorem tickRegs_of_due (hk : cc.kind = .stepper) (hr : x.rate.toInt ≠ 0)
    (hdue : interval timeUnit x ≤ wsub tsW now x.last) (hm : ¬ (x.moving = true ∧ x.pos = x.target)) :
    tickRegs timeUnit tsW now cc x = advanceRegs now cc x := by
  rw [tickRegs, if_neg (not_not.mpr hk), if_neg hr, if_neg hdue.not_gt, if_neg hm]

end Tick

/-- An advance in full: the phase and, where it is tracked, the position go one step in the rate's direction. -/
theorem advanceRegs_eq (now : Nat) (cc : ChanCfg) (x : ChanRegs) :
    advanceRegs now cc x =
      { x with
        phase := (advanceRegs now cc x).phase
        pos := if cc.trackPos then x.pos + BitVec.ofInt 32 (sgn x.rate.toInt) else x.pos
        last := now } := by
  rw [← wrap32_add]
  rfl

/-- Settles O47: the statement's cases are the branches of `tick`. -/
theorem tickOfOneChannel : Obligations.TickOfOneChannel := by
  intro timeUnit tsW now cc x
  refine ⟨?idle, fun hk hr _ => ⟨tickRegs_of_not_due, fun hdue hm => ?advance, tickRegs_of_arrived hk hr⟩⟩
  case idle => exact fun h => h.elim tickRegs_of_not_stepper (tickRegs_of_rate_zero timeUnit tsW now cc x)
  case advance =>
    rw [tickRegs_of_due hk hr hdue hm]
    exact ⟨sgn x.rate.toInt, sgn_of_pos, sgn_of_neg, advanceRegs_phase now cc x, advanceRegs_eq now cc x⟩

/-! ## The tick stage and a quiet pass (R280 to R284) -/

/-- The tick stage leaves every channel with the tick of its own bank. -/
theorem stageTick_chan {s : State} (hs : SoundFacts s) {c : Nat} {cc : ChanCfg} (hc : s.cfg.chans[c]? = some cc) :
    (stageTick s).chan c = tickRegs s.cfg.timeUnit s.cfg.tsW s.sq.now cc (s.chan c) := by
  rw [stageTick_chan_masked hs.banks hc, maskChan_tickRegs hc]

/-- From a sound state the commit stage answers a next state, and it changes no bank, no watchdog and no parser
register. -/
theorem stageCommit_next (en : List Bool) {s : State} (hs : SoundFacts s) :
    ∃ t, stageCommit en s = .next t ∧ t.wd = s.wd ∧ t.ps = s.ps ∧ ∀ c, t.chan c = s.chan c := by
  obtain ⟨lines, hmux, -⟩ := muxFrom_some (setStage_sound .commit hs) 0 s.cfg.chans
    (List.replicate s.cfg.ndig false, List.replicate s.cfg.nlvl 0#16) (fun c cc hc => by rwa [Nat.zero_add])
  have hmux : muxOutputs (setStage .commit s) = some lines := hmux
  set u : State := { setStage .commit s with out := { dig := lines.1, lvl := lines.2 } }
  have hcommit : commitOutputs (setStage .commit s) = .next u := by rw [commitOutputs, hmux]
  obtain ⟨ws, hsaves⟩ := saveRequests_eq en u
  refine ⟨setStage .idle (saveRequests en u), by rw [stageCommit, hcommit, andThen_next], ?_⟩
  rw [hsaves]
  exact ⟨rfl, rfl, fun _ => rfl⟩

/-- With no byte waiting a pass is its stages after the drain. -/
theorem pass_of_no_bytes {s : State} (h : s.port.rx = []) (time : Nat) :
    pass time s = afterDrain (energizedFlags s) (setStage .drain (stageSample time s)) := by
  rw [pass, stageDrain, stageSample_port, h, drainBytes, andThen_next]

theorem stageWdog_of_not_due {s : State} (h : wdDue s = false) : stageWdog s = setStage .wdog s :=
  if_neg (by rw [show wdDue (setStage .wdog s) = wdDue s from rfl, h]; exact Bool.false_ne_true)

/-- Unarmed, tripped, or with at most `TIMEOUT` elapsed, the watchdog is not due (R262, R263). -/
theorem wdDue_eq_false {s : State}
    (h : s.wd.armed = false ∨ s.wd.forced = true ∨ wsub s.cfg.tsW s.sq.now s.wd.lastValid ≤ s.cfg.timeout) :
    wdDue s = false := by
  rw [← Bool.not_eq_true, wdDue_iff]
  rintro ⟨harmed, hforced, hlate⟩
  rcases h with h | h | h
  · simp [h] at harmed
  · simp [h] at hforced
  · omega

/-- A pass with no byte waiting and no trip ticks every channel once, at the time it samples, and changes neither the
watchdog nor the parser. -/
theorem pass_quiet {s : State} {time : Nat} (hs : SoundFacts s) (hrx : s.port.rx = [])
    (hwd : wdDue (stageSample time s) = false) :
    ∃ t, pass time s = .next t ∧ t.wd = s.wd ∧ t.ps = s.ps ∧
      ∀ c cc, s.cfg.chans[c]? = some cc →
        t.chan c = tickRegs s.cfg.timeUnit s.cfg.tsW (time % 2 ^ s.cfg.tsW) cc (s.chan c) := by
  set u := setStage .drain (stageSample time s) with hu
  set v := setStage .wdog u
  have hv : SoundFacts v := setStage_sound .wdog (setStage_sound .drain (stageSample_sound time hs))
  obtain ⟨-, hps, hwdog, -⟩ := stageTick_fields v
  obtain ⟨t, ht, htwd, htps, htchan⟩ := stageCommit_next (energizedFlags s) (stageTick_sound hv)
  refine ⟨t, ?_, htwd.trans hwdog, htps.trans hps, fun c cc hc => ?_⟩
  · rw [pass_of_no_bytes hrx, ← hu, afterDrain, stageWdog_of_not_due (s := u) hwd]
    exact ht
  · rw [htchan]
    exact stageTick_chan hv hc

/-- Settles O48: the tick stage bank by bank, and the step as a quiet pass of the state whose input is taken. -/
theorem ticksAreIndependent : Obligations.TicksAreIndependent := by
  refine ⟨fun s c cc hs hc => stageTick_chan (sound_iff.mp hs) hc, fun s time rest hs hi hrx hwd => ?_⟩
  have hsound := sound_iff.mp hs.1
  rw [step_pass hsound.wf hi]
  exact pass_quiet (s := { s with port := { s.port with inputs := rest } }) (withPort_sound hsound hsound.rx) hrx
    (wdDue_eq_false hwd)

end Sys2Proof.Machine
end

section
namespace Sys2Proof.Machine

/-! ## A move from its start to its end (R149, R160, R162) -/

/-- The channel is in a move that has `d` signed steps still to make, at `MOVE_RATE` in their direction. -/
structure Underway (cc : ChanCfg) (d : Int) (x : ChanRegs) : Prop where
  moving : x.moving = true
  speed : x.rate.toInt.natAbs = cc.moveRate
  direction : d ≠ 0 → sgn x.rate.toInt = sgn d
  target : x.target = x.pos + BitVec.ofInt 32 d
  run : d.natAbs ≤ 2147483647

section Move
variable {timeUnit tsW now : Nat} {cc : ChanCfg} {d : Int} {x : ChanRegs}

/-- A started move has its whole run still to make. -/
theorem startMoveRegs_underway (hcc : cc.wfRates = true) (ht : cc.trackPos = true) (hd : d ≠ 0)
    (hrun : d.natAbs ≤ cc.maxRun) : Underway cc d (startMoveRegs now d cc x) := by
  obtain ⟨hmin, -, -, -, -, -, hmove, -, hmax⟩ := wfRates_facts hcc
  have hone : 1 ≤ cc.moveRate := hmin.trans (hmove ht).1
  have hb := boundRun_of_le hrun
  rw [startMoveRegs_of_ne_zero hcc ht (hb.symm ▸ hd), hb]
  refine ⟨rfl, ?_, fun _ => ?_, rfl, hrun.trans hmax⟩
  · rw [toInt_moveRate hcc ht hd, Int.natAbs_mul, sgn_natAbs hd, Int.natAbs_natCast, one_mul]
  · rw [toInt_moveRate hcc ht hd, sgn_mul_natCast d hone]

theorem Underway.interval (h : Underway cc d x) : interval timeUnit x = timeUnit / cc.moveRate := by
  rw [Machine.interval, h.speed]

/-- A channel with steps to make does not stand on its target: fewer than 2^31 of them do not come round. -/
theorem Underway.not_arrived (h : Underway cc d x) (hd : d ≠ 0) : x.pos ≠ x.target := by
  intro he
  have hzero : BitVec.ofInt 32 d = 0#32 := by
    have htarget := h.target
    rw [← he] at htarget
    simpa using htarget.symm
  have hd' := toInt_ofInt32 h.run
  rw [hzero, BitVec.toInt_zero] at hd'
  exact hd hd'.symm

/-- A due tick makes one of the steps and keeps the target (R150, R154). -/
theorem Underway.tick (h : Underway cc d x) (hk : cc.kind = .stepper) (ht : cc.trackPos = true)
    (hrate : 1 ≤ cc.moveRate) (hd : d ≠ 0) (hdue : timeUnit / cc.moveRate ≤ wsub tsW now x.last) :
    Underway cc (d - sgn d) (tickRegs timeUnit tsW now cc x) ∧
      (tickRegs timeUnit tsW now cc x).target = x.target ∧ (tickRegs timeUnit tsW now cc x).last = now := by
  have hspeed := h.speed
  have hrun := h.run
  rw [tickRegs_of_due hk (by omega) (h.interval.symm ▸ hdue) fun hm => h.not_arrived hd hm.2, advanceRegs_eq,
    if_pos ht, h.direction hd]
  refine ⟨⟨h.moving, hspeed, fun hleft => ?direction, ?target, ?run⟩, rfl, rfl⟩
  case direction =>
    show sgn x.rate.toInt = sgn (d - sgn d)
    rw [h.direction hd]
    unfold sgn at hleft ⊢
    split_ifs at hleft ⊢ <;> omega
  case target =>
    show x.target = x.pos + BitVec.ofInt 32 (sgn d) + BitVec.ofInt 32 (d - sgn d)
    rw [add_assoc, ← BitVec.ofInt_add, add_sub_cancel, h.target]
  case run =>
    unfold sgn
    split_ifs <;> omega

/-- Due ticks, one for each step, bring the move to its end; the next tick is due as the times say. -/
theorem Underway.ticksAt {t : Nat} {ts : List Nat} (h : Underway cc d x) (hk : cc.kind = .stepper)
    (ht : cc.trackPos = true) (hrate : 1 ≤ cc.moveRate) (hlen : ts.length = d.natAbs)
    (hdue : eachDue tsW (timeUnit / cc.moveRate) x.last (ts ++ [t])) :
    Underway cc 0 (ticksAt timeUnit tsW cc ts x) ∧ (ticksAt timeUnit tsW cc ts x).target = x.target ∧
      timeUnit / cc.moveRate ≤ wsub tsW t (ticksAt timeUnit tsW cc ts x).last := by
  induction ts generalizing d x with
  | nil =>
    obtain rfl : d = 0 := Int.natAbs_eq_zero.mp hlen.symm
    exact ⟨h, rfl, hdue.1⟩
  | cons now ts ih =>
    rw [List.length_cons] at hlen
    have hd : d ≠ 0 := by omega
    obtain ⟨hfirst, hrest⟩ := hdue
    obtain ⟨hnext, htarget, hlast⟩ := h.tick hk ht hrate hd hfirst
    have hleft : ts.length = (d - sgn d).natAbs := by
      unfold sgn
      split_ifs <;> omega
    obtain ⟨hend, hend_target, hend_due⟩ := ih hnext hleft (hlast.symm ▸ hrest)
    exact ⟨hend, hend_target.trans htarget, hend_due⟩

end Move

/-- Settles O49: the ticks use up the run, step by step, and the next one finds the move finished. -/
theorem moveEndsOnTarget : Obligations.MoveEndsOnTarget := by
  intro timeUnit tsW now t cc x d ts hk ht hcc hd hrun hlen hdue y z
  obtain ⟨hmin, -, -, -, -, -, hmove, -, -⟩ := wfRates_facts hcc
  have hrate : 1 ≤ cc.moveRate := hmin.trans (hmove ht).1
  have hb := boundRun_of_le hrun
  have hstart := startMoveRegs_underway (now := now) (x := x) hcc ht hd hrun
  obtain ⟨hend, htarget, hlast⟩ := hstart.ticksAt hk ht hrate hlen hdue
  have harrived : y.pos = y.target := by simpa using hend.target.symm
  have hstart_target : (startMoveRegs now d cc x).target = x.pos + BitVec.ofInt 32 d := by
    rw [startMoveRegs_of_ne_zero hcc ht (hb.symm ▸ hd), hb]
  have hspeed : y.rate.toInt.natAbs = cc.moveRate := hend.speed
  have hz : z = { y with rate := 0#16, energized := false, brake := false, moving := false } :=
    calc z = tickRegs timeUnit tsW t cc y := List.foldl_append
      _ = _ := tickRegs_of_arrived hk (by omega) (hend.interval.symm ▸ hlast) hend.moving harrived
  rw [hz]
  exact ⟨harrived.trans (htarget.trans hstart_target), harrived, hend.moving, rfl, rfl, rfl, rfl⟩

end Sys2Proof.Machine
end

/-! SUPPORT AND PROOFS. The output mux (spec/42): which registers the lines are a function of, the local lines of each
kind in the words of its rule, and what stands on every physical line after a pass. -/

section
namespace Sys2Proof.Machine

/-! ## The registers that feed the lines (R196) -/

/-- The local lines of a channel read five of its registers. -/
theorem localLines_congr {c : Nat} {cc : ChanCfg} {x y : ChanRegs} (hphase : x.phase = y.phase)
    (hrate : x.rate = y.rate) (henergized : x.energized = y.energized) (hbrake : x.brake = y.brake)
    (hangle : x.angle = y.angle) : localLines c cc x = localLines c cc y := by
  have hstepper : stepperLines cc x = stepperLines cc y := by
    rw [stepperLines, stepperLines, hphase, henergized]
  have hdc : dcLines c cc x = dcLines c cc y := by
    rw [dcLines, dcLines, hrate, henergized, hbrake]
  have hservo : servoLines x = servoLines y := by
    rw [servoLines, servoLines, henergized, hangle]
  rw [localLines, localLines, hstepper, hdc, hservo]

/-- The mux reads a state through the local lines of the channels it places. -/
theorem muxFrom_congr_localLines {s t : State} (n : Nat) (l : List ChanCfg) (dl : List Bool × List Level)
    (h : ∀ c cc, l[c]? = some cc →
      localLines (n + c) cc (s.chan (n + c)) = localLines (n + c) cc (t.chan (n + c))) :
    muxFrom s n l dl = muxFrom t n l dl := by
  induction l generalizing n dl with
  | nil => rfl
  | cons cc l ih =>
    have hhead : localLines n cc (s.chan n) = localLines n cc (t.chan n) := h 0 cc rfl
    have htail := fun dl => ih (n + 1) dl fun c d hc => by
      rw [show n + 1 + c = n + (c + 1) by omega]
      exact h (c + 1) d hc
    simp only [muxFrom, hhead, htail]

/-- Settles O54: equal line registers make equal local lines, and the mux reads nothing else. -/
theorem linesDependOnChannelsOnly : Obligations.LinesDependOnChannelsOnly := by
  intro s t hcfg h
  rw [muxOutputs, muxOutputs, ← hcfg]
  refine muxFrom_congr_localLines 0 s.cfg.chans _ fun c cc hc => ?_
  rw [Nat.zero_add]
  obtain ⟨hphase, hrate, henergized, hbrake, hangle⟩ := h c (List.getElem?_eq_some_iff.mp hc).1
  exact localLines_congr hphase hrate henergized hbrake hangle

/-! ## The local lines of each kind (R192 to R194) -/

/-- The value of coil k: bit k of the phase's pattern while the channel is energized (R192). -/
def coil (cc : ChanCfg) (x : ChanRegs) (k : Nat) : Bool :=
  x.energized && ((patternAt cc.table x.phase.toNat).getD 0#4).getLsbD k

/-- Where a stepper has lines, they are its four coils. -/
theorem stepperLines_eq_coils {cc : ChanCfg} {x : ChanRegs} {d : List Bool} (h : stepperLines cc x = some d) :
    d = (List.range 4).map (coil cc x) := by
  unfold stepperLines at h
  split_ifs at h with henergized
  · obtain ⟨v, hv, rfl⟩ := Option.map_eq_some_iff.mp h
    simp [coil, henergized, hv, List.range_succ]
  · cases h
    simp [coil, henergized, List.range_succ]

theorem localLines_stepper_dig {c k : Nat} {cc : ChanCfg} {x : ChanRegs} {v : List Bool × List Level}
    (hkind : cc.kind = .stepper) (h : localLines c cc x = some v) (hk : k < 4) : v.1[k]? = some (coil cc x k) := by
  simp only [localLines, hkind] at h
  obtain ⟨d, hd, rfl⟩ := Option.map_eq_some_iff.mp h
  rw [stepperLines_eq_coils hd, List.getElem?_map, List.getElem?_range hk, Option.map_some]

/-- The lines of a `DC` channel whose energized bit says that its rate is not 0 (R35): it brakes or is released at rate
0, and drives one direction with the rate's magnitude otherwise (R193). -/
theorem dcLines_of_energized_iff {c : Nat} {cc : ChanCfg} {x : ChanRegs}
    (henergized : x.energized = true ↔ x.rate.toInt ≠ 0) :
    dcLines c cc x =
      if x.rate.toInt = 0 then (x.brake, x.brake, if x.brake then brakeLevel c cc else 0#16)
      else (decide (0 < x.rate.toInt), decide (x.rate.toInt < 0), BitVec.ofNat 16 x.rate.toInt.natAbs) := by
  unfold dcLines
  rcases lt_trichotomy x.rate.toInt 0 with hneg | hzero | hpos
  · simp [henergized, hneg, hneg.ne, hneg.not_gt]
  · cases hb : x.brake <;> simp [hzero]
  · simp [henergized, hpos, hpos.ne', hpos.not_gt]

theorem localLines_dc {c : Nat} {cc : ChanCfg} (hkind : cc.kind = .dc) (x : ChanRegs) :
    localLines c cc x = some ([(dcLines c cc x).1, (dcLines c cc x).2.1], [(dcLines c cc x).2.2]) := by
  simp only [localLines, hkind]

theorem localLines_servo {c : Nat} {cc : ChanCfg} (hkind : cc.kind = .servo) (x : ChanRegs) :
    localLines c cc x = some ([x.energized], [x.angle]) := by
  simp only [localLines, hkind, servoLines]

/-- Both direction lines carry the brake bit at rate 0; otherwise line 0 is on forward and line 1 in reverse. -/
theorem localLines_dc_dig {c k : Nat} {cc : ChanCfg} {x : ChanRegs} {v : List Bool × List Level}
    (hkind : cc.kind = .dc) (henergized : x.energized = true ↔ x.rate.toInt ≠ 0) (h : localLines c cc x = some v)
    (hk : k < 2) :
    v.1[k]? = some (if x.rate.toInt = 0 then x.brake
      else if k = 0 then decide (0 < x.rate.toInt) else decide (x.rate.toInt < 0)) := by
  rw [localLines_dc hkind, dcLines_of_energized_iff henergized] at h
  cases h
  obtain rfl | rfl : k = 0 ∨ k = 1 := by omega
  all_goals by_cases hrate : x.rate.toInt = 0 <;> simp [hrate]

theorem localLines_dc_lvl {c : Nat} {cc : ChanCfg} {x : ChanRegs} {v : List Bool × List Level}
    (hkind : cc.kind = .dc) (henergized : x.energized = true ↔ x.rate.toInt ≠ 0) (h : localLines c cc x = some v) :
    v.2[0]? = some (if x.rate.toInt = 0 then (if x.brake then brakeLevel c cc else 0#16)
      else BitVec.ofNat 16 x.rate.toInt.natAbs) := by
  rw [localLines_dc hkind, dcLines_of_energized_iff henergized] at h
  cases h
  split_ifs <;> rfl

/-! ## Every physical line after a pass (R191, R195) -/

/-- A line that no channel's map names is 0. -/
theorem muxOutputs_unmapped {s : State} {dl : List Bool × List Level} (hwf : s.cfg.wf = true)
    (h : muxOutputs s = some dl) :
    (∀ l, l < s.cfg.ndig → (∀ cc ∈ s.cfg.chans, l ∉ cc.digMap) → dl.1[l]? = some false) ∧
    (∀ l, l < s.cfg.nlvl → (∀ cc ∈ s.cfg.chans, l ∉ cc.lvlMap) → dl.2[l]? = some 0#16) := by
  obtain ⟨hdigNodup, hlvlNodup, hmaps⟩ := wf_mapFacts hwf
  obtain ⟨hdig, hlvl, -⟩ := muxFrom_spec 0 s.cfg.chans _ dl h hdigNodup hlvlNodup fun cc hcc => by
    obtain ⟨-, -, hd, hl⟩ := hmaps cc hcc
    simpa using ⟨hd, hl⟩
  exact ⟨fun l hlt hfree => (hdig l hfree).trans (List.getElem?_replicate_of_lt hlt),
    fun l hlt hfree => (hlvl l hfree).trans (List.getElem?_replicate_of_lt hlt)⟩

/-- Settles O55: after a pass the lines are the mux's of sound banks, and a mapped line carries the local value that its
channel's kind gives it. -/
theorem commitDrivesEveryLine : Obligations.CommitDrivesEveryLine := by
  intro s t hs hp h
  have ht : SoundFacts t := sound_iff.mp (step_inv hs h).1
  obtain ⟨_, _, _, hpass⟩ := step_eq_pass hp h
  have hmux := pass_lines hpass
  obtain ⟨hdigFree, hlvlFree⟩ := muxOutputs_unmapped ht.wf hmux
  refine ⟨fun c cc k l hc hl => ?dig, fun c cc l hc hl => ?lvl, hdigFree, hlvlFree⟩
  all_goals
    obtain ⟨v, hv, hdig, hlvl⟩ := muxOutputs_mapped ht.wf hmux hc
    obtain ⟨hdigLen, hlvlLen, -⟩ := (wf_mapFacts ht.wf).2.2 cc (List.mem_of_getElem? hc)
    obtain ⟨-, -, henergized, -⟩ := chanSound_iff.mp (ht.chans c cc hc)
  case dig =>
    refine hdig k l _ hl ?_
    have hk : k < cc.kind.digLines := hdigLen ▸ (List.getElem?_eq_some_iff.mp hl).1
    cases hkind : cc.kind with
    | stepper =>
      rw [hkind] at hk
      exact localLines_stepper_dig hkind hv hk
    | dc =>
      rw [hkind] at hk
      exact localLines_dc_dig hkind (henergized (by simp [hkind])) hv hk
    | servo =>
      rw [hkind] at hk
      cases (localLines_servo hkind _).symm.trans hv
      obtain rfl : k = 0 := Nat.lt_one_iff.mp hk
      rfl
  case lvl =>
    refine hlvl 0 l _ hl ?_
    have hmapped : 0 < cc.kind.lvlLines := hlvlLen ▸ (List.getElem?_eq_some_iff.mp hl).1
    cases hkind : cc.kind with
    | stepper =>
      rw [hkind] at hmapped
      exact absurd hmapped (Nat.lt_irrefl 0)
    | dc => exact localLines_dc_lvl hkind (henergized (by simp [hkind])) hv
    | servo =>
      cases (localLines_servo hkind _).symm.trans hv
      rfl

end Sys2Proof.Machine
end

/-! SUPPORT AND PROOFS. The command decoder (spec/43): the value of a text field and the directives of a body, what each
byte of `FRAME` mode does and leaves alone, a whole frame byte by byte, and that `CHAR` mode keeps the parser registers. -/

section
namespace Sys2Proof.Machine

/-! ## The text of a frame body (R102, R230 to R233) -/

/-- Saturating after each digit is saturating once at the end. -/
theorem accumulate_eq_min (sat : Nat) (ds : List Byte) : accumulate sat ds = min (decimalValue ds) sat := by
  have digit_commutes (m : Nat) (g : Byte) :
      min (min m sat * 10 + (g.toNat - 0x30)) sat = min (m * 10 + (g.toNat - 0x30)) sat := by omega
  calc accumulate sat ds
      = ds.foldl (fun m g => min (m * 10 + (g.toNat - 0x30)) sat) (min 0 sat) := by rw [Nat.zero_min]; rfl
    _ = min (decimalValue ds) sat := List.foldl_hom (min · sat) digit_commutes

/-- Settles O43: the digits saturated once, then the sign. -/
theorem fieldValueIsSaturatedDecimal : Obligations.FieldValueIsSaturatedDecimal := by
  intro sat f
  rw [fieldValue, accumulate_eq_min]

/-- A field's directive is the one of its saturated, signed and clamped decimal value. -/
theorem fieldDirective_eq_fieldInstr (sat : Nat) (ff : FrameField) (f : List Byte) :
    fieldDirective sat ff f = fieldInstr sat ff f := by
  have harg : clamp (fieldValue sat f) ff.min ff.max = fieldArg sat ff f := by
    rw [fieldValueIsSaturatedDecimal, Nat.cast_min]
    rfl
  rw [fieldDirective, harg]
  rfl

theorem fieldError_eq_none {f : List Byte} : fieldError f = none ↔ fieldOk f = true := by
  unfold fieldError
  split_ifs with hempty hok
  · subst hempty
    decide
  · simp [hok]
  · simp [hok]

theorem parseBody_of_fields {cfg : Config} {body f0 f1 : List Byte} (h : splitSep cfg.sepB body = [f0, f1])
    (h0 : fieldOk f0 = true) (h1 : fieldOk f1 = true) :
    parseBody cfg body =
      [fieldInstr cfg.fieldSat cfg.field0 f0, fieldInstr cfg.fieldSat cfg.field1 f1] := by
  simp [parseBody, h, fieldError_eq_none.mpr h0, fieldError_eq_none.mpr h1, fieldDirective_eq_fieldInstr]

theorem parseBody_of_fieldCount {cfg : Config} {body : List Byte} (h : ∀ f0 f1, splitSep cfg.sepB body ≠ [f0, f1]) :
    parseBody cfg body = [.parseError reasonFieldCount] := by
  unfold parseBody
  split
  · rename_i f0 f1 hsplit
    exact absurd hsplit (h f0 f1)
  · rfl

theorem malformedReason_of_fieldCount {sep : Byte} {body : List Byte} (h : ∀ f0 f1, splitSep sep body ≠ [f0, f1]) :
    malformedReason sep body = reasonFieldCount := by
  unfold malformedReason
  split
  · rename_i f0 f1 hsplit
    exact absurd hsplit (h f0 f1)
  · rfl

theorem bodyOk_iff {sep : Byte} {body : List Byte} :
    bodyOk sep body = true ↔ ∃ f0 f1, splitSep sep body = [f0, f1] ∧ fieldOk f0 = true ∧ fieldOk f1 = true := by
  constructor
  · intro h
    unfold bodyOk at h
    split at h
    · rename_i f0 f1 hsplit
      exact ⟨f0, f1, hsplit, (Bool.and_eq_true _ _).mp h⟩
    · cases h
  · rintro ⟨f0, f1, hsplit, h0, h1⟩
    simp [bodyOk, hsplit, h0, h1]

/-- A well-formed body gives the directives of its two fields, field 0 first (R230). -/
theorem parseBody_of_ok {cfg : Config} {body : List Byte} (h : bodyOk cfg.sepB body = true) :
    parseBody cfg body =
      [fieldInstr cfg.fieldSat cfg.field0 (fieldText cfg.sepB body 0),
        fieldInstr cfg.fieldSat cfg.field1 (fieldText cfg.sepB body 1)] := by
  obtain ⟨f0, f1, hsplit, h0, h1⟩ := bodyOk_iff.mp h
  rw [parseBody_of_fields hsplit h0 h1, fieldText, fieldText, hsplit]
  rfl

/-- A malformed body gives one `ParseError` with the first reason that R230's order finds. -/
theorem parseBody_of_malformed {cfg : Config} {body : List Byte} (h : bodyOk cfg.sepB body = false) :
    parseBody cfg body = [.parseError (malformedReason cfg.sepB body)] := by
  by_cases hcount : ∃ f0 f1, splitSep cfg.sepB body = [f0, f1]
  · obtain ⟨f0, f1, hsplit⟩ := hcount
    by_cases hempty0 : f0 = []
    · simp [parseBody, malformedReason, hsplit, fieldError, hempty0, reasonEmptyField]
    by_cases hok0 : fieldOk f0 = true
    · have hok1 : fieldOk f1 = false := by
        by_contra hok1
        rw [bodyOk_iff.mpr ⟨f0, f1, hsplit, hok0, by simpa using hok1⟩] at h
        cases h
      by_cases hempty1 : f1 = []
      · simp [parseBody, malformedReason, hsplit, fieldError, hempty0, hok0, hempty1, reasonEmptyField]
      · simp [parseBody, malformedReason, hsplit, fieldError, hempty0, hok0, hempty1, hok1, reasonNonNumeric]
    · simp [parseBody, malformedReason, hsplit, fieldError, hempty0, hok0, reasonNonNumeric]
  · have hcount : ∀ f0 f1, splitSep cfg.sepB body ≠ [f0, f1] := fun f0 f1 hsplit => hcount ⟨f0, f1, hsplit⟩
    rw [parseBody_of_fieldCount hcount, malformedReason_of_fieldCount hcount]

/-- Every reason of a malformed body is a reason code (R100 item 6, R104). -/
theorem malformedReason_dirWf (n : Nat) (sep : Byte) (body : List Byte) :
    Instr.dirWf n (.parseError (malformedReason sep body)) = true := by
  unfold malformedReason
  split
  · split_ifs <;> rfl
  · rfl

end Sys2Proof.Machine
end

section
namespace Sys2Proof.Machine

/-! ## Dropped bytes (R212, R226) -/

theorem execByte_unmapped {s : State} {b : Byte} (hp : s.cfg.protocol = .char) (hb : s.ctx.unmapped b = true) :
    execByte b s = .next s :=
  execByte_eq_next.mpr ⟨_, decodeByte_unmapped hp hb, rfl⟩

theorem frameByte_outside {s : State} {b : Byte} (hf : s.ps.framing = false) (hb : b ≠ s.cfg.startB) :
    frameByte b s = .next s := by
  rw [← exec_decodeFrameByte, decodeFrameByte_outside hf hb]
  rfl

/-- Settles O33: a byte with no meaning is read as one of the two rows whose meaning is the same state. -/
theorem droppedBytesChangeNothing : Obligations.DroppedBytesChangeNothing := by
  refine ⟨fun s b => ⟨rfl, rfl⟩, fun s b hp hb => ?_, fun n => ⟨rfl, rfl⟩, fun s b hp hf hb => ?_⟩
  · exact ⟨decodeByte_unmapped hp hb, execByte_unmapped hp hb⟩
  · refine ⟨?_, (execByte_frame hp b).trans (frameByte_outside hf hb)⟩
    rw [decodeByte_frame hp, decodeFrameByte_outside hf hb]

/-- Settles O42, by induction over the bytes: each leaves the frame closed, so the next is outside it too. -/
theorem garbageOutsideFrameIgnored : Obligations.GarbageOutsideFrameIgnored := by
  intro s bs _ hf hbs
  induction bs with
  | nil => rfl
  | cons b bs ih =>
    obtain ⟨hb, hbs⟩ := List.forall_mem_cons.mp hbs
    rw [frameBytes, frameByte_outside hf hb, andThen_next]
    exact ih hbs

/-! ## `START` opens a frame (R221) -/

/-- The state after `START`: an empty frame, and the event of the frame it abandons (R221). -/
def afterStart (s : State) : State :=
  { s with
    ps := { s.ps with framing := true, cursor := 0#8 }
    port := { s.port with
      diag := s.port.diag ++ if s.ps.framing then [plainEvent 0x1F00000004#40] else [] } }

theorem execFrameStart_eq (s : State) : execFrameStart s = .next (afterStart s) := by
  unfold execFrameStart afterStart
  cases s.ps.framing with
  | true => rfl
  | false => simp [openFrame]

/-- Settles O35: the only event is the one of a frame that was open. -/
theorem frameStartOpensEmptyFrame : Obligations.FrameStartOpensEmptyFrame :=
  fun s => ⟨afterStart s, execFrameStart_eq s, rfl, rfl, fun _ => rfl, rfl, rfl, rfl, rfl, fun _ => rfl,
    ⟨rfl, rfl, rfl⟩, rfl, rfl⟩

/-! ## Bytes stored behind the cursor (R72, R225) -/

/-- Write bytes at an address and those after it. -/
def Memory.store (m : Memory) (i : Nat) : List Byte → Memory
  | [] => m
  | b :: bs => Memory.store (m.write i b) (i + 1) bs

/-- A stored byte reads back at its address; every other address reads as before. -/
theorem Memory.read_store {m : Memory} (h : m.wf = true) (i : Nat) (bs : List Byte) (a : Nat) :
    (m.store i bs).read a = if a < i then m.read a else (bs[a - i]?).getD (m.read a) := by
  induction bs generalizing m i with
  | nil => simp [Memory.store]
  | cons b bs ih =>
    rw [Memory.store, ih (Memory.write_wf h), Memory.read_write h]
    rcases lt_trichotomy a i with hlt | rfl | hgt
    · rw [if_pos (by omega), if_pos hlt, if_neg hlt.ne]
    · simp
    · have hnext : a - i = a - (i + 1) + 1 := by omega
      rw [if_neg (by omega), if_neg hgt.ne', if_neg (by omega), hnext, List.getElem?_cons_succ]

/-- The state after these bytes have been stored behind the cursor (R225). -/
def afterBody (bs : List Byte) (s : State) : State :=
  { s with
    ps := { s.ps with
      buf := s.ps.buf.store s.ps.cursor.toNat bs
      cursor := s.ps.cursor + BitVec.ofNat 8 bs.length } }

/-- `CAP` is at most 255, so the cursor behind bytes that fit has not wrapped (R8, R41). -/
theorem afterBody_cursor {s : State} {bs : List Byte} (hwf : s.cfg.wf = true)
    (h : s.ps.cursor.toNat + bs.length ≤ s.cfg.cap) :
    (afterBody bs s).ps.cursor.toNat = s.ps.cursor.toNat + bs.length := by
  have := (wf_scalars hwf).cap
  show (s.ps.cursor + BitVec.ofNat 8 bs.length).toNat = _
  rw [BitVec.toNat_add, BitVec.toNat_ofNat]
  omega

theorem afterBody_cons (b : Byte) (bs : List Byte) (s : State)
    (h : (afterBody [b] s).ps.cursor.toNat = s.ps.cursor.toNat + 1) :
    afterBody (b :: bs) s = afterBody bs (afterBody [b] s) := by
  have hcursor : s.ps.cursor + BitVec.ofNat 8 (bs.length + 1) = s.ps.cursor + 1#8 + BitVec.ofNat 8 bs.length := by
    rw [Nat.add_comm, BitVec.ofNat_add, BitVec.add_assoc]
  conv_rhs => rw [afterBody, h]
  simp only [afterBody, List.length_cons, hcursor, Memory.store]
  rfl

theorem execFrameBody_of_room {s : State} (h : s.ps.cursor.toNat < s.cfg.cap) (b : Byte) :
    execFrameBody b s = .next (afterBody [b] s) := by
  simp [execFrameBody, bufWrite, h, afterBody, Memory.store]

/-- At or above `CAP` the write is outside the buffer (R72; log 19). -/
theorem execFrameBody_of_full {s : State} (h : s.cfg.cap ≤ s.ps.cursor.toNat) (b : Byte) :
    execFrameBody b s = .fault .bufferIndex := by
  simp [execFrameBody, bufWrite, h.not_gt]

/-- Settles O36: one write of the canonical buffer, read back by `Memory.read_write`. -/
theorem frameBodyStoresAtCursor : Obligations.FrameBodyStoresAtCursor := by
  intro s b hs
  have hs := sound_iff.mp hs
  have read_after (a : Nat) :
      (afterBody [b] s).ps.buf.read a = if a = s.ps.cursor.toNat then b else s.ps.buf.read a :=
    Memory.read_write hs.buf _ a b
  refine ⟨fun hroom => ⟨afterBody [b] s, execFrameBody_of_room hroom b, ?stored, fun a ha => ?others,
    Memory.write_wf hs.buf, afterBody_cursor hs.wf hroom, rfl, rfl, rfl, rfl, rfl, rfl, fun _ => rfl⟩,
    fun hfull => execFrameBody_of_full hfull b⟩
  case stored => rw [read_after, if_pos rfl]
  case others => rw [read_after, if_neg ha]

/-! ## What closes a frame (R222, R224, R230, R234) -/

/-- Settles O37: the frame is closed and one event emitted, and nothing stored. -/
theorem frameOverflowAbandons : Obligations.FrameOverflowAbandons :=
  fun s _ => ⟨raiseOverflow (closeFrame s), rfl, rfl, rfl, fun _ => rfl, rfl, rfl, rfl, rfl, fun _ => rfl,
    ⟨rfl, rfl, rfl⟩, rfl, rfl⟩

/-- Settles O38: the body's only directive is a `ParseError`, whose one event is all that is left of the frame. -/
theorem malformedFrameOnlyReports : Obligations.MalformedFrameOnlyReports := by
  intro s hbody
  have hend : exec .frameEnd s =
      .next (raiseParseError (malformedReason s.cfg.sepB (bufBody s)) (closeFrame s)) := by
    show applyAll (parseBody s.cfg (bufBody s)) (closeFrame s) = _
    rw [parseBody_of_malformed hbody, applyAll_one]
    exact execParseError_eq_next.mpr ⟨malformedReason_dirWf _ _ _, rfl⟩
  exact ⟨_, hend, rfl, rfl, fun _ => rfl, rfl, rfl, rfl, rfl, fun _ => rfl, ⟨rfl, rfl, rfl⟩, rfl, rfl⟩

/-- Two well-formed directives run one after the other. -/
theorem applyAll_pair {d e : Instr} {s : State} (hd : d.dirWf s.cfg.npreset = true)
    (he : e.dirWf s.cfg.npreset = true) :
    ∃ t u, exec d s = .next t ∧ exec e t = .next u ∧ applyAll [d, e] s = .next u := by
  obtain ⟨t, ht⟩ := applyDirective_next hd
  have hcfg : t.cfg = s.cfg := (applyDirective_instrFrame ht).cfg
  obtain ⟨u, hu⟩ := applyDirective_next (d := e) (s := t) (by rw [hcfg, he])
  refine ⟨t, u, by rw [exec_directive hd, ht], by rw [exec_directive he, hu], ?_⟩
  rw [applyAll, ht, andThen_next, applyAll_one, hu]

/-- The directives of a well-formed body are the two of its fields, and both run. -/
theorem applyAll_parseBody {s : State} {body : List Byte} (hwf : s.cfg.wf = true) (hp : s.cfg.protocol = .frame)
    (hbody : bodyOk s.cfg.sepB body = true) :
    ∃ t u, exec (fieldInstr s.cfg.fieldSat s.cfg.field0 (fieldText s.cfg.sepB body 0)) s = .next t ∧
      exec (fieldInstr s.cfg.fieldSat s.cfg.field1 (fieldText s.cfg.sepB body 1)) t = .next u ∧
      applyAll (parseBody s.cfg body) s = .next u := by
  have hdir := parseBody_dirWf hwf hp body
  rw [parseBody_of_ok hbody] at hdir ⊢
  exact applyAll_pair (hdir _ (by simp)) (hdir _ (by simp))

/-- Settles O39: the fields' directives run from the closed frame. -/
theorem wellFormedFrameAppliesBoth : Obligations.WellFormedFrameAppliesBoth :=
  fun s hs hp hbody => applyAll_parseBody (s := closeFrame s) (sound_iff.mp hs).wf hp hbody

end Sys2Proof.Machine
end

section
namespace Sys2Proof.Machine

/-! ## A whole frame, byte by byte (R225, R227) -/

/-- The bytes stored from address 0 on are the body that `END` reads back. -/
theorem Memory.read_store_body {m : Memory} (h : m.wf = true) (body : List Byte) :
    (List.range body.length).map (m.store 0 body).read = body := by
  refine List.ext_getElem (by simp) fun a _ ha => ?_
  simp [Memory.read_store h, ha]

/-- The bytes of a body that fits, none of them a delimiter, are stored behind the cursor one by one. -/
theorem frameBytes_body {s : State} {body : List Byte} (rest : List Byte) (hwf : s.cfg.wf = true)
    (hf : s.ps.framing = true) (hbody : ∀ b ∈ body, b ≠ s.cfg.startB ∧ b ≠ s.cfg.endB)
    (hlen : s.ps.cursor.toNat + body.length ≤ s.cfg.cap) :
    frameBytes (body ++ rest) s = frameBytes rest (afterBody body s) := by
  induction body generalizing s with
  | nil => simp [afterBody, Memory.store]
  | cons b body ih =>
    obtain ⟨⟨hstart, hend⟩, hbody⟩ := List.forall_mem_cons.mp hbody
    rw [List.length_cons] at hlen
    have hroom : s.ps.cursor.toNat + 1 ≤ s.cfg.cap := by omega
    have hcursor : (afterBody [b] s).ps.cursor.toNat = s.ps.cursor.toNat + 1 := afterBody_cursor hwf hroom
    have hfits : (afterBody [b] s).ps.cursor.toNat + body.length ≤ s.cfg.cap := by omega
    have hstep : frameByte b s = .next (afterBody [b] s) := frameByte_body hf hstart hend hroom
    calc frameBytes (b :: body ++ rest) s
        = frameBytes (body ++ rest) (afterBody [b] s) := by
          rw [List.cons_append, frameBytes, hstep, andThen_next]
      _ = frameBytes rest (afterBody body (afterBody [b] s)) := ih hwf hf hbody hfits
      _ = frameBytes rest (afterBody (b :: body) s) := by rw [afterBody_cons b body s hcursor]

/-- `END` in an open frame closes it and runs the directives of the body that the buffer holds. -/
theorem frameByte_end {s : State} (hwf : s.cfg.wf = true) (hf : s.ps.framing = true) :
    frameByte s.cfg.endB s = applyAll (parseBody s.cfg (bufBody s)) (closeFrame s) := by
  have hdec : decodeFrameByte s.ctx s.cfg.endB = .frameEnd := decodeFrameByte_end hf (wf_bytes hwf).1.symm
  rw [← exec_decodeFrameByte, hdec]
  rfl

/-- A body stored in an empty frame is the body that `END` reads back. -/
theorem bufBody_afterBody {s : State} {body : List Byte} (hs : SoundFacts s) (hempty : s.ps.cursor = 0#8)
    (hlen : body.length ≤ s.cfg.cap) : bufBody (afterBody body s) = body := by
  have hzero : s.ps.cursor.toNat = 0 := by rw [hempty]; rfl
  rw [bufBody, afterBody_cursor hs.wf (by omega), hzero, Nat.zero_add]
  show (List.range body.length).map (s.ps.buf.store s.ps.cursor.toNat body).read = body
  rw [hzero, Memory.read_store_body hs.buf]

theorem afterStart_sound {s : State} (hs : SoundFacts s) : SoundFacts (afterStart s) :=
  { hs with cursor := Nat.zero_le _ }

/-- The state in which the directives of a whole frame run: the frame closed, its body left in the buffer, and the event
of a frame that was open before. -/
def afterWholeFrame (body : List Byte) (s : State) : State := closeFrame (afterBody body (afterStart s))

/-- The composite frame runs the directives of its body, whatever the parser held. -/
theorem execFrame_eq {s : State} {body : List Byte} (hs : SoundFacts s) (hbody : bodyOk s.cfg.sepB body = true)
    (hlen : body.length ≤ s.cfg.cap) :
    execFrame body s = applyAll (parseBody s.cfg body) (afterWholeFrame body s) := by
  have hstart : frameByte s.cfg.startB s = .next (afterStart s) := by
    rw [← exec_decodeFrameByte, ← execFrameStart_eq]
    exact congrArg (exec · s) (decodeFrameByte_start s.ctx)
  have hstored : frameBytes (body ++ [s.cfg.endB]) (afterStart s) =
      frameBytes [s.cfg.endB] (afterBody body (afterStart s)) :=
    frameBytes_body (s := afterStart s) _ hs.wf rfl (bodyOk_no_delimiters hs.wf hbody) ((Nat.zero_add _).trans_le hlen)
  have hend : frameByte s.cfg.endB (afterBody body (afterStart s)) =
      applyAll (parseBody s.cfg body) (afterWholeFrame body s) := by
    have hread := bufBody_afterBody (afterStart_sound hs) rfl hlen
    have hrun := frameByte_end (s := afterBody body (afterStart s)) hs.wf rfl
    rw [hread] at hrun
    exact hrun
  calc execFrame body s
      = frameBytes (body ++ [s.cfg.endB]) (afterStart s) := by rw [execFrame, frameBytes, hstart, andThen_next]
    _ = andThen (applyAll (parseBody s.cfg body) (afterWholeFrame body s)) .next := by
        rw [hstored, frameBytes, hend]
        rfl
    _ = applyAll (parseBody s.cfg body) (afterWholeFrame body s) := by
        cases applyAll (parseBody s.cfg body) (afterWholeFrame body s) <;> rfl

/-- Settles O40: after `START` nothing depends on what the parser held but the buffer's bytes beyond the body. -/
theorem frameResynchronises : Obligations.FrameResynchronises := by
  intro s body hs hp hbody hlen
  have hs := sound_iff.mp hs
  obtain ⟨t, u, hfirst, hsecond, hall⟩ := applyAll_parseBody (s := afterWholeFrame body s) hs.wf hp hbody
  refine ⟨s.ps.buf.store 0 body, t, u, fun a => ?_, hfirst, hsecond, (execFrame_eq hs hbody hlen).trans hall⟩
  rw [Memory.read_store hs.buf, if_neg (Nat.not_lt_zero a), Nat.sub_zero]

end Sys2Proof.Machine
end

section
namespace Sys2Proof.Machine

/-! ## `CHAR` mode and the parser registers (R213) -/

theorem applyValid_ps {ok : Bool} {f : State → State} {s t : State} (h : applyValid ok f s = .next t)
    (hf : ∀ u, (f u).ps = u.ps) : t.ps = s.ps := by
  obtain ⟨-, rfl⟩ := applyValid_eq_next.mp h
  exact hf (wdRefresh s)

theorem stopEvery_ps (s : State) : (stopEvery s).ps = s.ps := (stopEvery_fields s).2.1

theorem applyDirective_ps {d : Instr} {s t : State} (h : applyDirective d s = .next t) : t.ps = s.ps := by
  cases d <;> simp only [applyDirective, reduceCtorEq] at h
  case setRate | setAbsoluteTarget | stepRelative | stop => exact applyValid_ps h fun u => updChan_ps _ u _
  case stopAll => exact applyValid_ps h stopEvery_ps
  case queryStatus | adjustRatePreset => exact applyValid_ps h fun _ => rfl
  case parseError =>
    obtain ⟨-, rfl⟩ := execParseError_eq_next.mp h
    rfl

theorem applyAll_ps {ds : List Instr} {s t : State} (h : applyAll ds s = .next t) : t.ps = s.ps := by
  induction ds generalizing s with
  | nil => cases h; rfl
  | cons d ds ih =>
    obtain ⟨u, hu, ht⟩ := andThen_eq_next.mp h
    exact (ih ht).trans (applyDirective_ps hu)

/-- No row of the default map writes the parser registers. -/
theorem exec_byteRow_ps {n : Nat} {b : Byte} {i : Instr} {s t : State} (hrow : (b, i) ∈ byteRows n)
    (h : exec i s = .next t) : t.ps = s.ps := by
  rcases mem_byteRows.mp hrow with hcmd | ⟨k, hpreset, -, -⟩
  · cases i
    case fwd | rev | left | right =>
      obtain ⟨_, -, h⟩ := drive_eq_next.mp h
      exact applyAll_ps h
    case stopKey | stopSpace | query | jogFwd | jogRev | home => exact applyAll_ps h
    all_goals simp [commandRows] at hcmd
  · rw [exec_presetRow hpreset] at h
    rcases presetKey_eq_next h with h | rfl
    · exact applyAll_ps h
    · rfl

/-- In `CHAR` mode a byte runs a row of the default map or the directives of its entry, or is dropped (R211, R212). -/
theorem execByte_char_ps {b : Byte} {s t : State} (hp : s.cfg.protocol = .char) (h : execByte b s = .next t) :
    t.ps = s.ps := by
  obtain ⟨is, hdec, his⟩ := execByte_eq_next.mp h
  have dropped (hu : s.ctx.unmapped b = true) : t.ps = s.ps := by
    rw [execByte_unmapped hp hu] at h
    cases h
    rfl
  unfold decodeByte at hdec
  rw [show s.ctx.cfg.protocol = .char from hp] at hdec
  cases hmap : s.ctx.cfg.charMap with
  | default =>
    cases hrow : defaultRow s.cfg.npreset b with
    | none => exact dropped (by rw [Ctx.unmapped, hmap]; exact Option.isNone_iff_eq_none.mpr hrow)
    | some i =>
      obtain rfl : [i] = is := by
        simpa [hmap, decodeCharByte, show defaultRow s.ctx.cfg.npreset b = some i from hrow] using hdec
      exact exec_byteRow_ps (defaultRow_eq_some.mp hrow) (execAll_one his)
  | custom entries =>
    cases hentry : customEntry entries b with
    | none => exact dropped (by rw [Ctx.unmapped, hmap]; exact Option.isNone_iff_eq_none.mpr hentry)
    | some ts =>
      simp only [hmap, hentry] at hdec
      rw [decodeEntry_applies hdec] at his
      exact applyAll_ps his

theorem drainBytes_char_ps {bs : List Byte} {s t : State} (hp : s.cfg.protocol = .char)
    (h : drainBytes bs s = .next t) : t.ps = s.ps := by
  induction bs generalizing s with
  | nil => cases h; rfl
  | cons b bs ih =>
    obtain ⟨u, hu, ht⟩ := andThen_eq_next.mp h
    have hcfg : u.cfg = s.cfg := (execByte_instrFrame hu).cfg
    exact (ih (by rw [hcfg, hp]) ht).trans (execByte_char_ps (s := setRx bs s) hp hu)

theorem wdCheck_ps (s : State) : (wdCheck s).ps = s.ps := by
  unfold wdCheck
  split_ifs
  · rw [raiseWdTimeout, emit_ps, stopEvery_ps]
  · rfl

/-- The stages after the drain stage write no parser register (R283 to R285). -/
theorem afterDrain_ps {en : List Bool} {s t : State} (h : afterDrain en s = .next t) : t.ps = s.ps := by
  obtain ⟨u, hu, ht⟩ := andThen_eq_next.mp h
  obtain ⟨out, rfl⟩ := commitOutputs_eq_next hu
  cases ht
  obtain ⟨ws, hws⟩ := saveRequests_eq en { setStage .commit (stageTick (stageWdog s)) with out := out }
  obtain ⟨-, htick, -⟩ := stageTick_fields (stageWdog s)
  rw [hws]
  exact htick.trans (wdCheck_ps _)

theorem pass_char_ps {time : Nat} {s t : State} (hp : s.cfg.protocol = .char) (h : pass time s = .next t) :
    t.ps = s.ps := by
  obtain ⟨u, hu, ht⟩ := andThen_eq_next.mp h
  exact (afterDrain_ps ht).trans (drainBytes_char_ps (s := setStage .drain (stageSample time s)) hp hu)

/-- Settles O16: a pass keeps the parser registers, and a power cycle brings their reset values. -/
theorem charModeLeavesParser : Obligations.CharModeLeavesParser := by
  intro s t hp h
  have kept (hn : NoPowerCycle s) : t.ps = s.ps := by
    obtain ⟨time, inputs, draws, hpass⟩ := step_eq_pass hn h
    obtain ⟨hps, -, hcfg, -⟩ := arrive_fields (arriving s) { s with port := { s.port with inputs, draws } }
    exact (pass_char_ps (by rw [hcfg]; exact hp) hpass).trans hps
  refine ⟨kept, fun hreset => ?_⟩
  rcases noPowerCycle_or_reset h with hn | ⟨answers, rest, rfl⟩
  · exact (kept hn).trans hreset
  · rfl

end Sys2Proof.Machine
end

/-! SUPPORT AND PROOFS. The watchdog (spec/44): what refreshes it and what does not, when it trips, what a trip writes,
and that no channel advances in a pass that ends with the watchdog tripped. -/

section
namespace Sys2Proof.Machine

/-! ## What does not refresh the watchdog (R261) -/

/-- Settles O34: none of these rows writes a watchdog register. -/
theorem onlyValidDirectivesRefresh : Obligations.OnlyValidDirectivesRefresh := by
  refine ⟨fun i s t hi h => ?_, fun s t hbody h => ?_⟩
  · cases i
    case charUnmapped | frameIgnored | frameOverflow => cases h; rfl
    case frameStart => cases (execFrameStart_eq s).symm.trans h; rfl
    case frameBody =>
      obtain ⟨ps, rfl⟩ := execFrameBody_eq_next h
      rfl
    case parseError =>
      obtain ⟨-, rfl⟩ := execParseError_eq_next.mp h
      rfl
    all_goals cases hi
  · obtain ⟨u, hu, -, -, -, -, hwd, -⟩ := malformedFrameOnlyReports s hbody
    cases hu.symm.trans h
    exact hwd

/-! ## The check and its trip (R262 to R267) -/

theorem wdCheck_of_not_due {s : State} (h : wdDue s = false) : wdCheck s = s := if_neg (by simp [h])

/-- The check writes `wd.forced` only, and sets it exactly where it trips. -/
theorem wdCheck_wd (s : State) : (wdCheck s).wd = { s.wd with forced := s.wd.forced || wdDue s } := by
  cases h : wdDue s with
  | false => rw [wdCheck_of_not_due h, Bool.or_false]
  | true => rw [wdCheck, if_pos h, raiseWdTimeout, emit_wd, stopEvery_wd, Bool.or_true]

/-- More than `TIMEOUT` after the last valid directive an armed watchdog is tripped, if not by this check then by an
earlier one. -/
theorem wdCheck_forced {s : State} (harmed : s.wd.armed = true)
    (hlate : s.cfg.timeout < wsub s.cfg.tsW s.sq.now s.wd.lastValid) : (wdCheck s).wd.forced = true := by
  rw [wdCheck_wd]
  cases hforced : s.wd.forced with
  | true => exact Bool.true_or (wdDue s)
  | false => exact (wdDue_iff s).mpr ⟨harmed, hforced, hlate⟩

/-- Outside the banks and the watchdog a trip changes the diagnostic stream, by one `WD_TIMEOUT`, and nothing else. -/
theorem wdCheck_trip_frame {s : State} (h : wdDue s = true) :
    Emitted [plainEvent 0x3F00000000#40] s (wdCheck s) ∧ SameButChans (fun _ => True) s (wdCheck s) ∧
      SameInputs s (wdCheck s) := by
  obtain ⟨hcfg, hps, -, hsq, hout, hport, -⟩ := stopEvery_fields { s with wd := { s.wd with forced := true } }
  rw [wdCheck, if_pos h, raiseWdTimeout]
  refine ⟨⟨?diag, ?saves⟩, ⟨hcfg, ?parser, hsq, hout, fun _ hc => absurd trivial hc⟩, ?inputs⟩
  case diag => rw [emit_diag, hport]; rfl
  case saves => rw [emit_saves, hport]
  case parser => simp [SameParser, hps]
  case inputs => simp [SameInputs, hport]

/-- `stop` of every channel does to each bank what `stop` does (R262, R293): it writes no hardwired field. -/
theorem stopEvery_stopped {s : State} (hl : s.ch.length = s.cfg.nch) {c : Nat} {cc : ChanCfg}
    (hc : s.cfg.chans[c]? = some cc) : StoppedChan cc (s.chan c) ((stopEvery s).chan c) := by
  rw [stopEvery_chan hl hc, maskChan_stopRegs, maskChan_chan hc]
  exact stopRegs_stopped _ cc _

/-- A trip stops every channel (R262, R264). -/
theorem wdCheck_trip_stopped {s : State} (hs : SoundFacts s) (h : wdDue s = true) {c : Nat} {cc : ChanCfg}
    (hc : s.cfg.chans[c]? = some cc) : StoppedChan cc (s.chan c) ((wdCheck s).chan c) := by
  rw [wdCheck, if_pos h, raiseWdTimeout, emit_chan]
  exact stopEvery_stopped (s := { s with wd := { s.wd with forced := true } }) hs.banks hc

/-- Settles O50: the two cases of the check, on either side of the bound. -/
theorem watchdogComparisonIsStrict : Obligations.WatchdogComparisonIsStrict :=
  fun _ => ⟨fun hat => wdCheck_of_not_due (wdDue_eq_false (.inr (.inr hat.le))),
    fun hpast harmed _ => wdCheck_forced harmed (hpast ▸ Nat.lt_succ_self _)⟩

/-- Settles O51: the two cases of the check, and what a trip writes. -/
theorem watchdogTripStopsEveryChannel : Obligations.WatchdogTripStopsEveryChannel := by
  intro s hs
  refine ⟨fun h => wdCheck_of_not_due (wdDue_eq_false h), fun harmed hforced hlate => ?_⟩
  have hdue : wdDue s = true := (wdDue_iff s).mpr ⟨harmed, hforced, hlate⟩
  obtain ⟨hevent, hframe, hinputs⟩ := wdCheck_trip_frame hdue
  refine ⟨?_, hevent, hframe, hinputs, fun c cc hc => wdCheck_trip_stopped (sound_iff.mp hs) hdue hc⟩
  rw [wdCheck_wd, hdue, Bool.or_true]

/-! ## No advance in the pass of a trip (R265) -/

/-- The check moves no channel: `stop` keeps phase and position (R145). -/
theorem wdCheck_keeps_place {s : State} (hs : SoundFacts s) (c : Nat) :
    ((wdCheck s).chan c).phase = (s.chan c).phase ∧ ((wdCheck s).chan c).pos = (s.chan c).pos := by
  cases hdue : wdDue s with
  | false => rw [wdCheck_of_not_due hdue]; exact ⟨rfl, rfl⟩
  | true =>
    cases hc : s.cfg.chans[c]? with
    | none =>
      have hc' : (wdCheck s).cfg.chans[c]? = none := by rw [wdCheck_cfg, hc]
      rw [chan_of_none hc, chan_of_none hc']
      exact ⟨rfl, rfl⟩
    | some cc =>
      obtain ⟨hphase, hpos, -⟩ := wdCheck_trip_stopped hs hdue hc
      exact ⟨hphase, hpos⟩

/-- While the watchdog is tripped no channel ticks: a servo never does, and every other channel stands still
(R54 item 6). -/
theorem stageTick_chan_of_forced {s : State} (hs : SoundFacts s) (hforced : s.wd.forced = true) (c : Nat) :
    (stageTick s).chan c = s.chan c := by
  cases hc : s.cfg.chans[c]? with
  | none =>
    have hc' : (stageTick s).cfg.chans[c]? = none := by rw [(stageTick_fields s).1, hc]
    rw [chan_of_none hc, chan_of_none hc']
  | some cc =>
    rw [stageTick_chan hs hc]
    by_cases hk : cc.kind = .servo
    · exact tickRegs_of_not_stepper (by simp [hk])
    · exact tickRegs_of_rate_zero _ _ _ _ _ (hs.forcedStill hforced c cc hc hk)

theorem stageWdog_sound {s : State} (hs : SoundFacts s) : SoundFacts (stageWdog s) :=
  wdCheck_sound (setStage_sound .wdog hs)

theorem stageWdog_keeps_place {s : State} (hs : SoundFacts s) (c : Nat) :
    ((stageWdog s).chan c).phase = (s.chan c).phase ∧ ((stageWdog s).chan c).pos = (s.chan c).pos :=
  wdCheck_keeps_place (setStage_sound .wdog hs) c

/-- Settles O52: the trip leaves the watchdog tripped, so no channel ticks. -/
theorem tripPreventsAdvance : Obligations.TripPreventsAdvance := by
  intro s hs hdue c
  have hs := sound_iff.mp hs
  obtain ⟨harmed, -, hlate⟩ := (wdDue_iff s).mp hdue
  have hforced : (stageWdog s).wd.forced = true := wdCheck_forced (s := setStage .wdog s) harmed hlate
  rw [stageTick_chan_of_forced (stageWdog_sound hs) hforced]
  exact ⟨rfl, stageWdog_keeps_place hs c⟩

/-! ## A silent host (R268) -/

/-- A pass with no byte waiting, more than `TIMEOUT` after the last valid directive, ends with the armed watchdog
tripped and no channel moved. -/
theorem pass_silent {s : State} {time : Nat} (hs : SoundFacts s) (hrx : s.port.rx = []) (harmed : s.wd.armed = true)
    (hlate : s.cfg.timeout < wsub s.cfg.tsW (time % 2 ^ s.cfg.tsW) s.wd.lastValid) :
    ∃ t, pass time s = .next t ∧ t.wd.forced = true ∧ t.wd.lastValid = s.wd.lastValid ∧
      ∀ c, (t.chan c).phase = (s.chan c).phase ∧ (t.chan c).pos = (s.chan c).pos := by
  set u := setStage .drain (stageSample time s) with hu
  have husound : SoundFacts u := setStage_sound .drain (stageSample_sound time hs)
  have hwsound : SoundFacts (stageWdog u) := stageWdog_sound husound
  have hforced : (stageWdog u).wd.forced = true := wdCheck_forced (s := setStage .wdog u) harmed hlate
  have hlast : (stageWdog u).wd.lastValid = s.wd.lastValid := by rw [stageWdog, wdCheck_wd]; rfl
  obtain ⟨-, -, htick, -⟩ := stageTick_fields (stageWdog u)
  obtain ⟨t, ht, hwd, -, hchan⟩ := stageCommit_next (energizedFlags s) (stageTick_sound hwsound)
  refine ⟨t, ?_, ?_, ?_, fun c => ?_⟩
  · rw [pass_of_no_bytes hrx, ← hu, afterDrain, ht]
  · rw [hwd, htick, hforced]
  · rw [hwd, htick, hlast]
  · rw [hchan, stageTick_chan_of_forced hwsound hforced]
    exact stageWdog_keeps_place husound c

/-- Settles O53: the step is a silent pass, and its end state meets the invariant, by which a tripped watchdog means
that every stepper and DC channel stands still. -/
theorem silentHostStopsTheBlock : Obligations.SilentHostStopsTheBlock := by
  intro s time rest hs hi hrx harmed hlate
  have hsound := sound_iff.mp hs.1
  obtain ⟨t, ht, hforced, hlast, hplace⟩ := pass_silent (s := { s with port := { s.port with inputs := rest } })
    (withPort_sound hsound hsound.rx) hrx harmed hlate
  have hnext : step s = .next t := (step_pass hsound.wf hi).trans ht
  have htsound := sound_iff.mp (step_inv hs hnext).1
  refine ⟨t, hnext, hforced, hlast, fun c cc hc hk => ?_, hplace⟩
  exact htsound.forcedStill hforced c cc (by rw [step_cfg hnext, hc]) hk

end Sys2Proof.Machine
end

/-! SUPPORT AND PROOFS. The sequencer loop (spec/45): what `SetRate` writes and what a directive its channel cannot take
leaves alone, the directives that write no single bank, the byte that a step takes first, and the save requests of a
pass. -/

section
namespace Sys2Proof.Machine

/-! ## `SetRate` on a channel with a rate (R140 to R143, R290) -/

/-- The clamp of R140 is the bound written out by sign. -/
theorem clampRate_eq_boundedRate (cc : ChanCfg) (h : cc.minRate ≤ cc.maxRate) (r : Int) :
    clampRate cc.minRate cc.maxRate r = boundedRate cc r := by
  unfold boundedRate
  rcases lt_trichotomy r 0 with hneg | rfl | hpos
  · rw [clampRate_of_neg hneg, if_neg hneg.ne, if_neg hneg.not_gt]
    unfold clamp
    split_ifs <;> omega
  · rw [clampRate_zero, if_pos rfl]
  · rw [clampRate_of_pos hpos, if_neg hpos.ne', if_pos hpos]
    unfold clamp
    split_ifs <;> omega

/-- Of what `setRate` writes, a channel with a rate drops `last` alone, and only where it is no stepper (R141;
log 15). -/
theorem maskChan_setRateRegs {cc : ChanCfg} (hk : cc.kind ≠ .servo) (now : Nat) (r : Int) (x : ChanRegs) :
    maskChan cc (setRateRegs now r false cc x) =
      { setRateRegs now r false cc (maskChan cc x) with
        last := if cc.kind = .stepper then (setRateRegs now r false cc x).last else 0 } := by
  simp [maskChan, setRateRegs, movingAfter, hk]

/-- Settles O18: the bank `setRate` writes, less the `last` of a DC channel, which reads 0 before and after. -/
theorem setRateResult : Obligations.SetRateResult := by
  intro s c a cc hs hc hk
  have hsound := sound_iff.mp hs
  have hcc := wf_wfRates hsound.wf hc
  obtain ⟨-, hle, -⟩ := wfRates_facts hcc
  obtain ⟨t, hexec, hframe, hbank⟩ := applyValid_writes_bank (effect := applySetRate c.toNat a.toInt) hsound hc
    (decide_eq_true (wf_chan_le hsound.wf hc)) rfl
  rw [if_neg hk, maskChan_setRateRegs hk, maskChan_chan hc, setRateRegs_last hcc] at hbank
  refine ⟨t, hexec, hframe, ?rate, ?energized, ?others⟩
  case rate =>
    rw [hbank, ← clampRate_eq_boundedRate cc hle]
    exact setRateRegs_rate (x := s.chan c.toNat) (now := s.sq.now) (m := false) hcc
  case energized =>
    rw [hbank]
    exact setRateRegs_energized (x := s.chan c.toNat) (now := s.sq.now) (m := false) hcc
  case others =>
    rw [hbank]
    refine ⟨rfl, rfl, rfl, rfl, rfl, rfl, ?_⟩
    by_cases hstepper : cc.kind = .stepper
    · simp [hstepper]
    · obtain ⟨hfixed, -⟩ := chan_hardwired hc
      simp [hstepper, hfixed hstepper]

/-! ## A directive its channel cannot take (R289) -/

/-- A well-formed directive whose effect keeps the bank it names, or names a missing channel, only refreshes the
watchdog. -/
theorem applyValid_only_refreshes {ok : Bool} {effect : State → State} {s : State} {c : Nat}
    {f : ChanCfg → ChanRegs → ChanRegs} (hs : SoundFacts s) (hok : ok = true)
    (heffect : effect (wdRefresh s) = updChan c f (wdRefresh s))
    (hkeeps : ∀ cc, s.cfg.chans[c]? = some cc → f cc (s.chan c) = s.chan c) :
    ∃ t, applyValid ok effect s = .next t ∧ DirectiveFrame (fun _ => False) s t := by
  obtain ⟨hrefreshed, hport, hcfg, hparser, hsq, hout, -⟩ := updChan_wdRefresh_frame c f s
  exact ⟨_, applyValid_eq_next.mpr ⟨hok, heffect⟩, hrefreshed, hport, hcfg, hparser, hsq, hout,
    fun d _ => chan_updChan_id (s := wdRefresh s) hs.banks hkeeps d⟩

/-- Settles O19: on a channel of the wrong kind each effect is the branch that keeps the bank, and a missing channel has
no bank. -/
theorem unsupportedDirectiveOnlyRefreshes : Obligations.UnsupportedDirectiveOnlyRefreshes := by
  intro s c a hs hc
  have hs := sound_iff.mp hs
  refine ⟨fun hservo => ?setRate, fun huntracked => ?setTarget, fun huntracked ha => ?stepRelative,
    fun hmissing => ?stop⟩
  case setRate =>
    exact applyValid_only_refreshes hs (decide_eq_true hc) rfl fun cc h => if_pos (hservo cc h)
  case setTarget =>
    refine applyValid_only_refreshes (effect := applySetTarget c.toNat a.toInt) hs (decide_eq_true hc) rfl
      fun cc h => ?_
    obtain ⟨hk, ht⟩ := huntracked cc h
    rw [if_neg hk, if_neg (by simp [ht])]
  case stepRelative =>
    have hok : Instr.dirWf s.cfg.npreset (.stepRelative c a) = true := by
      simp [Instr.dirWf, dirFieldsWf_stepRelative, hc, ha]
    exact applyValid_only_refreshes hs hok rfl fun cc h => if_neg (by simp [huntracked cc h])
  case stop =>
    exact applyValid_only_refreshes hs (decide_eq_true hc) rfl fun cc h => by simp [hmissing] at h

/-! ## The directives that name no channel (R293, R294, R296, R297) -/

/-- Settles O24: the three rows are one directive, and `stop` of every channel writes the banks only. -/
theorem stopAllResult : Obligations.StopAllResult := by
  intro s hs
  obtain ⟨hcfg, hps, hwd, hsq, hout, hport, -⟩ := stopEvery_fields (wdRefresh s)
  refine ⟨stopEvery (wdRefresh s), rfl, rfl, rfl, ⟨hwd, hport, hcfg, ?parser, hsq, hout, ?banks⟩, fun c cc hc => ?_⟩
  case parser => simp [SameParser, hps]
  case banks => exact fun _ htouched => absurd trivial htouched
  exact stopEvery_stopped (s := wdRefresh s) (sound_iff.mp hs).banks hc

/-- Settles O25: one `emit` after the refresh, with the snapshot of the refreshed state. -/
theorem queryStatusResult : Obligations.QueryStatusResult := by
  intro s
  obtain ⟨hframe, -, hrx, hinputs, hdraws⟩ :=
    emit_sameButLogs { word := 0x4F00000000#40, snapshot := some (snapshot (wdRefresh s)) } (wdRefresh s)
  exact ⟨raiseStatus (wdRefresh s), snapshot (wdRefresh s), rfl, rfl, rfl, hframe, ⟨rfl, rfl⟩, hrx, hinputs, hdraws,
    snapshotOf_snapshot (wdRefresh s)⟩

/-- Settles O26: a well-formed block has at most nine presets, so the index fits its register. -/
theorem adjustRatePresetResult : Obligations.AdjustRatePresetResult := by
  intro s k hs hk
  have hle : s.cfg.npreset ≤ 9 := (wf_scalars (sound_iff.mp hs).wf).npreset.2
  refine ⟨applyPreset k (wdRefresh s), applyValid_eq_next.mpr ⟨decide_eq_true hk, rfl⟩, rfl, rfl, rfl, rfl,
    ⟨rfl, rfl, fun _ => rfl⟩, fun _ => rfl, ?index, rfl, rfl⟩
  case index =>
    show (BitVec.ofNat 4 k.toNat).toNat = k.toNat
    rw [BitVec.toNat_ofNat]
    omega

/-- Settles O27: a reason code is well formed, and `ParseError` is then one `emit` without a refresh. -/
theorem parseErrorResult : Obligations.ParseErrorResult := by
  intro s r hlo hhi
  have hok : Instr.dirWf s.cfg.npreset (.parseError r) = true := by
    simp [Instr.dirWf, dirFieldsWf_parseError, hlo, hhi]
  exact ⟨raiseParseError r s, execParseError_eq_next.mpr ⟨hok, rfl⟩, emit_sameButLogs _ s, rfl, rfl⟩

end Sys2Proof.Machine
end

section
namespace Sys2Proof.Machine

/-! ## The save requests of a pass (R280, R301) -/

theorem saveWords_congr {s t : State} (h : ∀ c, t.chan c = s.chan c) (en : List Bool) (n : Nat) (l : List ChanCfg) :
    saveWords en t n l = saveWords en s n l := by
  induction l generalizing n with
  | nil => rfl
  | cons cc l ih => simp only [saveWords, h, ih]

/-- The save requests from channel n on append the words of R301, and read banks that no request changes. -/
theorem saveFrom_eq (en : List Bool) (n : Nat) (l : List ChanCfg) (s : State) :
    saveFrom en n l s = { s with port := { s.port with saves := s.port.saves ++ saveWords en s n l } } := by
  induction l generalizing n s with
  | nil => simp [saveFrom, saveWords]
  | cons cc l ih =>
    rw [saveFrom, saveWords, ih]
    split_ifs
    · rw [saveWords_congr (s := s) (save_chan _ _ s), save_saves, List.append_assoc]
      rfl
    · rfl

theorem saveRequests_saveWords (en : List Bool) (s : State) :
    saveRequests en s =
      { s with port := { s.port with saves := s.port.saves ++ saveWords en s 0 s.cfg.chans } } :=
  saveFrom_eq en 0 s.cfg.chans s

theorem wdCheck_saves (s : State) : (wdCheck s).port.saves = s.port.saves := by
  cases hdue : wdDue s with
  | false => rw [wdCheck_of_not_due hdue]
  | true =>
    obtain ⟨⟨-, hsaves⟩, -⟩ := wdCheck_trip_frame hdue
    exact hsaves

/-- The stages after the drain stage append the save requests of the banks as they leave them (R283 to R285). -/
theorem afterDrain_saves {en : List Bool} {s t : State} (h : afterDrain en s = .next t) :
    t.port.saves = s.port.saves ++ saveWords en t 0 t.cfg.chans := by
  obtain ⟨u, hu, ht⟩ := andThen_eq_next.mp h
  obtain ⟨out, hcommit⟩ := commitOutputs_eq_next hu
  obtain ⟨-, -, -, -, -, htick, -⟩ := stageTick_fields (stageWdog s)
  have hsaves : u.port.saves = s.port.saves := by
    rw [hcommit, setStage_port, htick]
    exact wdCheck_saves (setStage .wdog s)
  obtain ⟨happended, hcfg, hbanks⟩ : t.port.saves = u.port.saves ++ saveWords en u 0 u.cfg.chans ∧
      t.cfg = u.cfg ∧ ∀ c, t.chan c = u.chan c := by
    rw [saveRequests_saveWords] at ht
    cases ht
    exact ⟨rfl, rfl, fun _ => rfl⟩
  rw [happended, hsaves, hcfg, saveWords_congr hbanks]

/-- A pass writes the save port at its end only: no byte makes a save request. -/
theorem pass_saves {time : Nat} {s t : State} (h : pass time s = .next t) :
    t.port.saves = s.port.saves ++ saveWords (energizedFlags s) t 0 t.cfg.chans := by
  obtain ⟨u, hu, ht⟩ := andThen_eq_next.mp h
  obtain ⟨-, hsaves⟩ := drainBytes_keepsSaves hu
  rw [afterDrain_saves ht, hsaves]
  rfl

/-- `en_start` is a matter of the banks, whatever the ports hold. -/
theorem energizedFlags_withPort (s : State) (port : Ports) :
    energizedFlags { s with port := port } = energizedFlags s :=
  energizedFrom_congr (s := { s with port := port }) (t := s) (fun _ => rfl) 0 s.cfg.chans

/-- Arriving bytes change the FIFO only, and how many of them fit does not depend on the inputs to come (R75). -/
theorem arrive_with_inputs (bs : List Byte) (inputs : List Input) (draws : Nat) (s : State) :
    arrive bs { s with port := { s.port with inputs := inputs, draws := draws } } =
      { s with port := { s.port with inputs := inputs, draws := draws, rx := (arrive bs s).port.rx } } := by
  induction bs generalizing s with
  | nil => rfl
  | cons b bs ih =>
    simp only [arrive]
    split_ifs
    · exact ih (setRx (s.port.rx ++ [b]) s)
    · exact ih s

/-- Settles O58: the requests by induction over the channels, and a step that is no power cycle as a pass from the banks
and the save port it began with. -/
theorem savesFollowStops : Obligations.SavesFollowStops := by
  refine ⟨saveRequests_saveWords, fun s t _ hp h => ?_⟩
  obtain ⟨time, inputs, draws, hpass⟩ := step_eq_pass hp h
  rw [arrive_with_inputs] at hpass
  rw [pass_saves hpass, energizedFlags_withPort]

end Sys2Proof.Machine
end

section
namespace Sys2Proof.Machine

/-! ## The byte a step takes first (R210, R280 to R282) -/

/-- A step whose pass finds a byte samples the timestamp, pops that byte and executes it; the later bytes and the stages
after the drain follow. -/
theorem step_of_byte {s : State} {time : Nat} {arrived : List Byte} {rest : List Input} {b : Byte} {bs : List Byte}
    (hw : s.cfg.wf = true) (hi : s.port.inputs = .pass time arrived :: rest)
    (hrx : (arrive arrived s).port.rx = b :: bs) :
    step s =
      andThen (andThen (execByte b
        { s with
          sq := { s.sq with stage := .drain, now := time % 2 ^ s.cfg.tsW }
          port := { s.port with inputs := rest, rx := bs } }) (drainBytes bs)) (afterDrain (energizedFlags s)) := by
  have harrive := arrive_with_inputs arrived rest s.port.draws s
  rw [hrx] at harrive
  rw [step_pass hw hi, harrive, pass, energizedFlags_withPort]
  rfl

theorem execAll_single (i : Instr) (s : State) : execAll [i] s = exec i s := by
  rw [execAll]
  cases exec i s <;> rfl

/-! ## A byte of a replaced map (R96, R211, R212) -/

/-- A template of a well-formed replaced map is well formed (R9 item 9). -/
theorem wf_customEntry_template {cfg : Config} {entries : List (Byte × List Template)} (h : cfg.wf = true)
    (hm : cfg.charMap = .custom entries) {b : Byte} {ts : List Template} (hb : customEntry entries b = some ts) :
    ∀ t ∈ ts, t.wf cfg.presets = true := by
  have hmap : cfg.wfCharMap = true := by
    unfold Config.wf at h
    exact (Bool.and_eq_true_iff.mp h).2
  simp only [Config.wfCharMap, hm, List.all_eq_true] at hmap
  obtain ⟨l₁, l₂, hl, -⟩ := List.lookup_eq_some_iff.mp hb
  exact hmap (b, ts) (by simp [hl])

theorem instantiate_preset (p : Nat) (t : Template) :
    instantiate (some p) t = some (mkWord t.kind t.ch (templateValue p t.arg)) := by
  unfold instantiate
  cases t.arg with
  | lit a => rfl
  | plusP => simp [templateValue, plusArg_eq]
  | minusP => rfl

/-- A template's fields, its argument instantiated, are those of its directive. -/
theorem dirOfFields_template {p : Nat} {t : Template} {i : Instr}
    (h : dirOfFields t.kind t.ch (templateValue p t.arg) = .ok i) : i = templateInstr p t := by
  unfold dirOfFields at h
  unfold templateInstr
  split at h <;> cases h
  all_goals
    rename_i hkind
    rw [hkind]
    rfl

/-- A well-formed template decodes to its directive under every preset rate of the block. -/
theorem decodeDir_template {presets : List Nat} {t : Template} {p : Nat} (h : t.wf presets = true) (hp : p ∈ presets) :
    decodeDir presets.length (mkWord t.kind t.ch (templateValue p t.arg)) = .ok (templateInstr p t) := by
  obtain ⟨a, i, hword, hfields, hdec⟩ := template_decodes h hp
  obtain rfl : templateValue p t.arg = a := by
    have harg := congrArg wordArg (Option.some.inj ((instantiate_preset p t).symm.trans hword))
    simpa using harg
  rw [hdec, dirOfFields_template hfields]

/-- Settles O6: the step by its first byte, and the entry of a replaced map template by template. -/
theorem stepRunsDecodedByte : Obligations.StepRunsDecodedByte := by
  refine ⟨fun s time arrived rest b bs hw hi hrx => ?step, fun x entries b hw hp hm => ⟨fun hb => ?unmapped,
    fun ts p hb hpreset => ?mapped⟩⟩
  case step =>
    intro u
    have hrun (is : List Instr) (hdec : decodeByte s.ctx b = .ok is) : execByte b u = execAll is u := by
      have hdec' : decodeByte u.ctx b = .ok is := hdec
      rw [execByte, hdec']
    refine ⟨fun is hdec => ?_, fun i hdec => ?_⟩
    · rw [step_of_byte hw hi hrx, ← hrun is hdec]
    · rw [step_of_byte hw hi hrx, ← execAll_single, ← hrun [i] hdec]
  case unmapped =>
    refine decodeByte_unmapped hp ?_
    rw [Ctx.unmapped, hm]
    exact Option.isNone_iff_eq_none.mpr hb
  case mapped =>
    have hentry : customEntry entries b = some ts := hb
    have htemplates := wf_customEntry_template hw hm hentry
    simp only [decodeByte, hp, hm, hentry, hpreset]
    exact decodeEntry_ok fun t ht =>
      ⟨_, instantiate_preset p t, decodeDir_template (htemplates t ht) (List.mem_of_getElem? hpreset)⟩

end Sys2Proof.Machine
end

/-! SUPPORT AND PROOFS. The exceptions (spec/60): no error category stops the block (R326, R327). From a sound state
every byte, the drain stage, a pass and so a step answer a next state. -/

section
namespace Sys2Proof.Machine

/-! ## Directives and rows of the default map (R95, R288) -/

/-- Well-formed directives run to the end, one after the other. -/
theorem applyAll_next {ds : List Instr} {s : State} (hds : ∀ d ∈ ds, d.dirWf s.cfg.npreset = true) :
    ∃ t, applyAll ds s = .next t := by
  induction ds generalizing s with
  | nil => exact ⟨s, rfl⟩
  | cons d ds ih =>
    obtain ⟨hd, hds⟩ := List.forall_mem_cons.mp hds
    obtain ⟨u, hu⟩ := applyDirective_next hd
    have hcfg : u.cfg = s.cfg := (applyDirective_instrFrame hu).cfg
    obtain ⟨t, ht⟩ := ih (s := u) (by rwa [hcfg])
    exact ⟨t, andThen_eq_next.mpr ⟨u, hu, ht⟩⟩

/-- A drive row finds its preset, which `Sound` has in range (R46). -/
theorem exec_driveRow_next {i : Instr} {s : State} (hs : Sound s) (hi : i ∈ driveRows.map Prod.fst) :
    ∃ t, exec i s = .next t := by
  obtain ⟨e, he, rfl⟩ := List.mem_map.mp hi
  obtain ⟨_, _, t, -, -, -, ht⟩ := (driveCommandsApplyTheirPair s e he).1 hs
  exact ⟨t, ht⟩

/-- Every row of the default map answers a next state. -/
theorem exec_byteRow_next {n : Nat} {b : Byte} {i : Instr} {s : State} (hs : Sound s) (hrow : (b, i) ∈ byteRows n) :
    ∃ t, exec i s = .next t := by
  obtain ⟨tStop, -, hstopKey, hstopSpace, -⟩ := stopAllResult s hs
  obtain ⟨tQuery, _, -, hquery, -⟩ := queryStatusResult s
  obtain ⟨⟨tFwd, -, hjogFwd⟩, ⟨tRev, -, hjogRev⟩, tHome, -, hhome⟩ := jogAndHomeApplyTheirDirective s hs
  rcases mem_byteRows.mp hrow with hcmd | ⟨k, hpreset, -, -⟩
  · cases i
    case fwd | rev | left | right => exact exec_driveRow_next hs (by simp [driveRows])
    case stopKey => exact ⟨tStop, hstopKey⟩
    case stopSpace => exact ⟨tStop, hstopSpace⟩
    case query => exact ⟨tQuery, hquery⟩
    case jogFwd => exact ⟨tFwd, hjogFwd⟩
    case jogRev => exact ⟨tRev, hjogRev⟩
    case home => exact ⟨tHome, hhome⟩
    all_goals simp [commandRows] at hcmd
  · obtain ⟨selects, dropped⟩ := presetCommandsSelect s hs (i, k) hpreset
    rcases lt_or_ge k s.cfg.npreset with hk | hk
    · obtain ⟨t, ht, -⟩ := selects hk
      exact ⟨t, ht⟩
    · exact ⟨s, dropped hk⟩

/-! ## Every byte runs (R210, R211, R220) -/

/-- The frame parser handles every byte: its directives are well formed, and a byte it stores finds room, since the
cursor is never above `CAP` and at `CAP` the byte overflows (R72, R224, R330). -/
theorem frameByte_next {s : State} (hs : SoundFacts s) (hp : s.cfg.protocol = .frame) (b : Byte) :
    ∃ t, frameByte b s = .next t := by
  rw [← exec_decodeFrameByte]
  unfold decodeFrameByte
  split_ifs with hstart hout hend hcap
  · exact ⟨afterStart s, execFrameStart_eq s⟩
  · exact ⟨s, rfl⟩
  · exact applyAll_next (s := closeFrame s) (parseBody_dirWf hs.wf hp _)
  · exact ⟨raiseOverflow (closeFrame s), rfl⟩
  · exact ⟨afterBody [b] s, execFrameBody_of_room (lt_of_le_of_ne hs.cursor hcap) b⟩

/-- A byte that the default map gives a row runs it (R95, R211). -/
theorem execByte_default_next {b : Byte} {i : Instr} {s : State} (hs : Sound s) (hx : s.ctx.charDefault = true)
    (hrow : defaultRow s.cfg.npreset b = some i) : ∃ t, execByte b s = .next t := by
  have hdec : decodeByte s.ctx b = .ok [i] := decode_defaultRow hx hrow
  obtain ⟨t, ht⟩ := exec_byteRow_next hs (defaultRow_eq_some.mp hrow)
  exact ⟨t, execByte_eq_next.mpr ⟨[i], hdec, by rw [execAll_single, ht]⟩⟩

/-- An entry of a replaced map decodes, since its templates are well formed and the preset is in range; the directives
it decodes to are well formed and run (R9 item 9, R96). -/
theorem execByte_custom_next {entries : List (Byte × List Template)} {ts : List Template} {b : Byte} {s : State}
    (hs : SoundFacts s) (hp : s.cfg.protocol = .char) (hm : s.cfg.charMap = .custom entries)
    (hentry : customEntry entries b = some ts) : ∃ t, execByte b s = .next t := by
  obtain ⟨p, hpreset⟩ : ∃ p, s.cfg.presets[s.sq.presetIdx.toNat]? = some p :=
    ⟨_, List.getElem?_eq_getElem hs.preset⟩
  have hdecode (t : Template) (ht : t ∈ ts) :
      decodeDir s.cfg.npreset (mkWord t.kind t.ch (templateValue p t.arg)) = .ok (templateInstr p t) :=
    decodeDir_template (wf_customEntry_template hs.wf hm hentry t ht) (List.mem_of_getElem? hpreset)
  have hok : decodeEntry s.cfg.npreset (some p) ts = .ok (ts.map (templateInstr p)) :=
    decodeEntry_ok fun t ht => ⟨_, instantiate_preset p t, hdecode t ht⟩
  have hbyte : decodeByte s.ctx b = .ok (ts.map (templateInstr p)) :=
    (stepRunsDecodedByte.2 s.ctx entries b hs.wf hp hm).2 ts p hentry hpreset
  have hdirs : ∀ d ∈ ts.map (templateInstr p), d.dirWf s.cfg.npreset = true :=
    List.forall_mem_map.mpr fun t ht => (directiveWordsHaveOneMeaning s.ctx _ _ (hdecode t ht)).1
  obtain ⟨t, ht⟩ := applyAll_next hdirs
  exact ⟨t, execByte_eq_next.mpr ⟨_, hbyte, by rw [decodeEntry_applies hok, ht]⟩⟩

/-- From a sound state every input byte answers a next state, whatever the protocol and the map. -/
theorem execByte_next {s : State} (hs : SoundFacts s) (b : Byte) : ∃ t, execByte b s = .next t := by
  cases hp : s.cfg.protocol with
  | frame =>
    rw [execByte_frame hp]
    exact frameByte_next hs hp b
  | char =>
    by_cases hu : s.ctx.unmapped b = true
    · exact ⟨s, execByte_unmapped hp hu⟩
    · cases hm : s.cfg.charMap with
      | default =>
        obtain ⟨i, hrow⟩ : ∃ i, defaultRow s.cfg.npreset b = some i := by
          simpa [Ctx.unmapped, State.ctx, hm, Option.ne_none_iff_exists'] using hu
        have hx : s.ctx.charDefault = true := by simp [Ctx.charDefault, State.ctx, hp, hm]
        exact execByte_default_next (sound_iff.mpr hs) hx hrow
      | custom entries =>
        obtain ⟨ts, hentry⟩ : ∃ ts, customEntry entries b = some ts := by
          simpa [Ctx.unmapped, State.ctx, hm, Option.ne_none_iff_exists'] using hu
        exact execByte_custom_next hs hp hm hentry

theorem execByte_sound {b : Byte} {s t : State} (h : execByte b s = .next t) (hs : SoundFacts s) : SoundFacts t := by
  obtain ⟨is, -, his⟩ := execByte_eq_next.mp h
  exact sound_kept.execAll (fun _ _ _ => trivial) his hs

/-! ## Every pass runs to its end (R282, R299) -/

/-- The drain stage takes every byte, and the state it leaves is sound. -/
theorem drainBytes_next {bs : List Byte} {s : State} (hs : SoundFacts s) (hlen : bs.length ≤ s.cfg.rxDepth) :
    ∃ t, drainBytes bs s = .next t ∧ SoundFacts t := by
  induction bs generalizing s with
  | nil => exact ⟨s, rfl, hs⟩
  | cons b bs ih =>
    have hrest : bs.length ≤ s.cfg.rxDepth := (Nat.le_succ _).trans hlen
    have hpop : SoundFacts (setRx bs s) := setRx_sound hs hrest
    obtain ⟨u, hu⟩ := execByte_next hpop b
    have hcfg : u.cfg = s.cfg := (execByte_instrFrame hu).cfg
    obtain ⟨t, ht, htsound⟩ := ih (execByte_sound hu hpop) (by rwa [hcfg])
    exact ⟨t, andThen_eq_next.mpr ⟨u, hu, ht⟩, htsound⟩

/-- A pass of a sound state answers a next state: the drain stage does, and the commit finds every phase in its table
(R71). -/
theorem pass_next {s : State} (hs : SoundFacts s) (time : Nat) : ∃ t, pass time s = .next t := by
  have hdrain : SoundFacts (setStage .drain (stageSample time s)) := setStage_sound .drain (stageSample_sound time hs)
  obtain ⟨u, hu, husound⟩ := drainBytes_next hdrain hdrain.rx
  obtain ⟨t, ht, -⟩ := stageCommit_next (energizedFlags s) (stageTick_sound (stageWdog_sound husound))
  exact ⟨t, andThen_eq_next.mpr ⟨u, hu, ht⟩⟩

/-- Settles O13: with or without an input a step is a pass of a sound state, or the reset of a power cycle. -/
theorem stepNeverStops : Obligations.StepNeverStops := by
  intro s hs
  have hsound := sound_iff.mp hs.1
  cases hi : s.port.inputs with
  | nil =>
    rw [step_noInput hsound.wf hi]
    exact pass_next (sound_kept.inputs s.port.inputs (s.port.draws + 1) hsound) _
  | cons i rest =>
    cases i with
    | pass time arrived =>
      rw [step_pass hsound.wf hi]
      exact pass_next (sound_kept.arrive arrived (sound_kept.inputs rest s.port.draws hsound)) time
    | powerCycle answers => exact ⟨_, step_powerCycle hsound.wf hi⟩

end Sys2Proof.Machine
end

/-! SUPPORT AND PROOFS. The reset (spec/70): the position a channel loads, the bank it reads right after reset, and the two
statements settled from these. -/

section
namespace Sys2Proof.Machine

/-! ## The loaded position (R363) -/

theorem loadedPos_of_not_persist {cc : ChanCfg} (hp : cc.persist = false) (answer : Option Int) :
    loadedPos cc answer = 0#32 := by
  simp [loadedPos, hp]

@[simp] theorem loadedPos_noEntry (cc : ChanCfg) : loadedPos cc none = 0#32 := by
  simp [loadedPos]

theorem loadedPos_answer {cc : ChanCfg} (hp : cc.persist = true) (r : Int) :
    loadedPos cc (some r) = BitVec.ofInt 32 r := by
  simp [loadedPos, hp, wrap32]

/-! ## The bank right after reset (R32 to R39, R360) -/

/-- Of a bank after reset the hardwired fields can hide only a position: a servo alone takes a home angle, and every other
field is 0 already. -/
theorem maskChan_resetChan (cc : ChanCfg) (answer : Option Int) :
    maskChan cc (resetChan cc answer) =
      { resetChan cc answer with pos := if cc.trackPos then loadedPos cc answer else 0#32 } := by
  by_cases hservo : cc.kind = .servo <;> simp [maskChan, resetChan, zeroChan, hservo]

/-- In a well-formed block only a tracking channel persists (R9), so no loaded position is hidden. -/
theorem maskChan_resetChan_of_wfRates {cc : ChanCfg} (hcc : cc.wfRates = true) (answer : Option Int) :
    maskChan cc (resetChan cc answer) = resetChan cc answer := by
  obtain ⟨-, -, -, -, htracks, -⟩ := wfRates_facts hcc
  rw [maskChan_resetChan]
  cases hp : cc.persist with
  | true => rw [if_pos (htracks hp)]; rfl
  | false => simp [resetChan, loadedPos_of_not_persist hp]

theorem chan_resetOf_of_wf {cfg : Config} (hwf : cfg.wf = true) (answers : List (Option Int)) (inputs : List Input)
    (n : Nat) {c : Nat} {cc : ChanCfg} (hc : cfg.chans[c]? = some cc) :
    (State.resetOf cfg answers inputs n).chan c = resetChan cc answers[c]?.join := by
  rw [chan_resetOf cfg answers inputs n c cc hc, maskChan_resetChan_of_wfRates (wf_wfRates hwf hc)]

/-! ## The statements -/

/-- Settles O9: the bank is the one `resetChan` makes, whose position is the load's; the cases are those of R363. -/
theorem resetLoadsPositions : Obligations.ResetLoadsPositions := by
  intro cfg answers inputs n c cc hwf hc
  have hpos : ((State.resetOf cfg answers inputs n).chan c).pos = loadedPos cc answers[c]?.join := by
    rw [chan_resetOf_of_wf hwf answers inputs n hc]
    rfl
  rw [hpos]
  cases hp : cc.persist with
  | false => exact loadedPos_of_not_persist hp _
  | true =>
    match answers[c]? with
    | some (some r) => exact loadedPos_answer hp r
    | some none => exact loadedPos_noEntry cc
    | none => exact loadedPos_noEntry cc

/-- Settles O8: every register but the lines and the banks is a field of `resetOf`; the lines are all 0, and a bank is
`resetChan`'s but for its position, whether or not the block is well formed. -/
theorem resetValues : Obligations.ResetValues := by
  intro cfg answers inputs n
  refine ⟨rfl, rfl, rfl, rfl, rfl, rfl, rfl, rfl, rfl, fun _ => List.eq_of_mem_replicate,
    fun _ => List.eq_of_mem_replicate, List.length_replicate, List.length_replicate, rfl, rfl, rfl, ?banks⟩
  case banks =>
    intro c cc hc
    rw [chan_resetOf cfg answers inputs n c cc hc, maskChan_resetChan]
    exact ⟨rfl, rfl, rfl, rfl, rfl, fun hservo => if_pos hservo⟩

end Sys2Proof.Machine
end
